-- ==== Sys2Proof/Word.lean ====
section
/-! DEFINITION. The widths of SYB-v7's words, and the values its signal arithmetic is done on. -/

namespace Sys2Proof

/-- A byte of the host output buffer (20_memory.md R76), and the width of OP, PID, NOTE and VEL (R101). -/
abbrev Byte := BitVec 8

/-- A 32-bit word: a parameter register (R72), a VAL field (R101), an output sample (R75). -/
abbrev Word := BitVec 32

/-- A command word (R100). -/
abbrev Cmd := BitVec 64

/-- An age counter or age stamp: 64-bit unsigned (R11, R34). -/
abbrev Age := BitVec 64

/-- A value of the number format NUMFMT (R10): a number, a zero of negative sign, an infinity or a NaN.
The finite values are rationals, which cover the values of every binary or fixed-point format exactly; fin 0 is the zero
without a sign or of positive sign. A format with one zero never gives negZero and takes it as 0 (log 1). -/
inductive Num where
  | fin (q : ℚ)
  | negZero
  | inf (neg : Bool)
  | nan
  deriving DecidableEq, Repr, Inhabited

namespace Num

/-- The number 0. -/
abbrev zero : Num := .fin 0

/-- The number 1. -/
abbrev one : Num := .fin 1

/-- The number over the reals: a zero has no sign there (R10). -/
def unsigned : Num → Num
  | .negZero => .fin 0
  | x => x

/-- A count as a number. -/
abbrev nat (n : Nat) : Num := .fin n

end Num

end Sys2Proof
end

