-- ==== Sys2Proof/Machine/F32.lean ====
section
/-! DEFINITION. IEEE 754 binary32 words: reading one as a number, ordering and clamping them, rounding to one. -/

namespace Sys2Proof.Machine.F32

/-- The pattern without its sign bit. -/
def mag (w : Word) : Nat := w.toNat % 2 ^ 31

/-- The sign bit. -/
def isNeg (w : Word) : Bool := decide (2 ^ 31 ≤ w.toNat)

/-- isnan(b) of R12: exponent all ones, fraction not zero. -/
def isNaN (w : Word) : Bool := decide (0x7F800000 < mag w)

/-- The magnitude a finite pattern stands for: subnormal below 2^23, normal above. -/
def magValue (m : Nat) : ℚ :=
  if m < 2 ^ 23 then (m : ℚ) / 2 ^ 149
  else ((2 ^ 23 + m % 2 ^ 23 : Nat) : ℚ) * 2 ^ (m / 2 ^ 23) / 2 ^ 150

/-- f32(b) of R12. The pattern of a zero with its sign bit set gives the zero of negative sign (log 1). -/
def toNum (w : Word) : Num :=
  if isNaN w then .nan
  else if mag w = 0x7F800000 then .inf (isNeg w)
  else if isNeg w then if mag w = 0 then .negZero else .fin (-(magValue (mag w)))
  else .fin (magValue (mag w))

/-- An integer that orders the patterns that are no NaN as their values are ordered. -/
def key (w : Word) : Int := if isNeg w then -(mag w : Int) else (mag w : Int)

/-- clamp of R12 on binary32 patterns: an infinity goes to its end of the range. The operand is no NaN. -/
def clamp (lo hi w : Word) : Word :=
  if key w < key lo then lo else if key hi < key w then hi else w

/-- The pattern of negative zero. -/
def negZeroWord : Word := 0x80000000

/-- The pattern a register keeps: one of the two zeros, where it is given negative zero (log 1). -/
def keptZero (keep : Bool) (w : Word) : Word :=
  if w = negZeroWord then if keep then negZeroWord else 0 else w

/-- A pattern held to the binary32 values in [-1, 1] (R378). -/
def heldToUnit (w : Word) : Word := if isNaN w then 0 else clamp 0xBF800000 0x3F800000 w

/-- n / d to the nearest integer, halves to even. -/
def roundHalfEven (n d : Nat) : Nat :=
  if 2 * (n % d) < d then n / d
  else if d < 2 * (n % d) then n / d + 1
  else n / d + n / d % 2

/-- n / d scaled by 2^shift and rounded. -/
def roundScaled (n d : Nat) (shift : Int) : Nat :=
  if 0 ≤ shift then roundHalfEven (n * 2 ^ shift.toNat) d
  else roundHalfEven n (d * 2 ^ (-shift).toNat)

/-- Whether 2^e is at most n / d. -/
def powLe (e : Int) (n d : Nat) : Bool :=
  if 0 ≤ e then decide (d * 2 ^ e.toNat ≤ n) else decide (d ≤ n * 2 ^ (-e).toNat)

/-- The exponent of a positive n / d: the largest e with 2^e at most n / d. -/
def expo (n d : Nat) : Int :=
  let e : Int := (Nat.log2 n : Int) - (Nat.log2 d : Int)
  if powLe e n d then e else e - 1

/-- The magnitude pattern nearest to n / d, ties to even; too large a value gives the infinity's pattern. -/
def magOf (n d : Nat) : Nat :=
  if n = 0 then 0
  else
    let e := max (expo n d) (-126)
    min 0x7F800000 ((e + 126).toNat * 2 ^ 23 + roundScaled n d (23 - e))

/-- The binary32 word nearest to a rational (round to nearest, ties to even: R10, R113). -/
def ofRat (q : ℚ) : Word :=
  BitVec.ofNat 32 (magOf q.num.natAbs q.den + if q.num < 0 then 2 ^ 31 else 0)

end Sys2Proof.Machine.F32
end

