-- ==== Sys2Proof/Syntax.lean ====
section
/-! DEFINITION. The ports, the parameter registers' names, and the 45 instructions of spec/opcode_table.json. -/

namespace Sys2Proof

/-- The three command ports (00_scope.md R6). -/
inductive Port where
  | ctrl
  | audio
  | plat
  deriving DecidableEq, Repr, Inhabited

/-- The 38 parameter registers, in PID order (10_state.md R23). -/
inductive Reg where
  | oscWaves | oscPw | subMix | noiseMix
  | fltCutoff | fltRes | fltHpf | fltKeytrack | fltEnvamt
  | aenvA | aenvD | aenvS | aenvR
  | fenvA | fenvD | fenvS | fenvR
  | lfoRate | lfoDepth | lfoRoute
  | chorusSMode | glideEn | glideTime | unisonEn | unisonN | unisonSpread
  | tremRate | tremDepth | chorusEMode
  | dlyTime | dlyFb | dlyMix
  | revSize | revDamp | revMix
  | epVol | mode | masterVol
  deriving DecidableEq, Repr, Inhabited

/-- One constructor per row of spec/opcode_table.json; the operands are the fields its format uses (30_encoding.md
R101, R102). A RENDER's buffer is no operand of the word: the audio port delivers it beside the word (R370). -/
inductive Instr where
  | nop
  | noteOn (note vel : Byte) (val : Word)
  | noteOff (note : Byte)
  | allNotesOff
  | setOscWaves (val : Word)
  | setOscPw (val : Word)
  | setSubMix (val : Word)
  | setNoiseMix (val : Word)
  | setFltCutoff (val : Word)
  | setFltRes (val : Word)
  | setFltHpf (val : Word)
  | setFltKeytrack (val : Word)
  | setFltEnvamt (val : Word)
  | setAenvA (val : Word)
  | setAenvD (val : Word)
  | setAenvS (val : Word)
  | setAenvR (val : Word)
  | setFenvA (val : Word)
  | setFenvD (val : Word)
  | setFenvS (val : Word)
  | setFenvR (val : Word)
  | setLfoRate (val : Word)
  | setLfoDepth (val : Word)
  | setLfoRoute (val : Word)
  | setChorusSMode (val : Word)
  | setGlideEn (val : Word)
  | setGlideTime (val : Word)
  | setUnisonEn (val : Word)
  | setUnisonN (val : Word)
  | setUnisonSpread (val : Word)
  | setTremRate (val : Word)
  | setTremDepth (val : Word)
  | setChorusEMode (val : Word)
  | setDlyTime (val : Word)
  | setDlyFb (val : Word)
  | setDlyMix (val : Word)
  | setRevSize (val : Word)
  | setRevDamp (val : Word)
  | setRevMix (val : Word)
  | setEpVol (val : Word)
  | setMode (val : Word)
  | setMasterVol (val : Word)
  | render (frames : Word)
  | deviceChanged
  | restartDone
  deriving DecidableEq, Repr, Inhabited

end Sys2Proof
end

