-- ==== Sys2Proof/Config.lean ====
section
/-! DEFINITION. What an implementation of SYB-v7 fixes (00_scope.md R8 to R10, 92_eei_decisions.md D52), and the free
values. The signal rules take a Config as an argument; the machine runs with the one chip, Config.chip, whose
constants and functions are opaque, so that a claim about it holds for every admissible choice. -/

namespace Sys2Proof

/-- The open constants of R8 and R9. -/
structure Constants where
  sr           : ℚ
  envEps       : ℚ
  fltSmoothK   : ℚ
  resRecalcEps : ℚ
  hpfBypassMul : ℚ
  lfoFiltHz    : ℚ
  chDepthMsI   : ℚ
  chDepthMsII  : ℚ
  dlyLpK       : ℚ
  combLen      : Vector Nat 4
  apLen        : Vector Nat 2
  revSpread    : Nat
  apG          : ℚ
  revInGain    : ℚ
  tremCurveP   : ℚ
  bbK          : ℚ
  bbGain       : ℚ
  epW1         : ℚ
  epW2         : ℚ
  epW3         : ℚ
  epWB1        : ℚ
  epWB2        : ℚ
  epBark       : ℚ
  epFbk        : ℚ
  epWn         : ℚ
  epBellR1     : ℚ
  epBellR2     : ℚ
  outGain      : ℚ
  deriving DecidableEq, Repr, Inhabited

/-- The constraint D52 (and R8) puts on each constant. -/
abbrev Constants.Valid (k : Constants) : Prop :=
  8000 ≤ k.sr ∧
  (0 < k.envEps ∧ k.envEps ≤ 1 / 10000) ∧
  (0 < k.fltSmoothK ∧ k.fltSmoothK ≤ 1) ∧
  (0 ≤ k.resRecalcEps ∧ k.resRecalcEps ≤ 1 / 100) ∧
  (1 ≤ k.hpfBypassMul ∧ k.hpfBypassMul ≤ 2) ∧
  (0 ≤ k.lfoFiltHz ∧ k.lfoFiltHz ≤ 20000) ∧
  (0 ≤ k.chDepthMsI ∧ k.chDepthMsI ≤ 6) ∧
  (0 ≤ k.chDepthMsII ∧ k.chDepthMsII ≤ 8) ∧
  (0 < k.dlyLpK ∧ k.dlyLpK ≤ 1) ∧
  (∀ j : Fin 4, 1 ≤ k.combLen[j]) ∧
  (∀ i j : Fin 4, i ≠ j → k.combLen[i] ≠ k.combLen[j]) ∧
  (∀ j : Fin 2, 1 ≤ k.apLen[j]) ∧
  1 ≤ k.revSpread ∧
  (0 < k.apG ∧ k.apG < 1) ∧
  (0 < k.revInGain ∧ k.revInGain ≤ 1) ∧
  1 ≤ k.tremCurveP ∧
  (0 < k.bbK ∧ k.bbK < 1) ∧
  (0 ≤ k.bbGain ∧ k.bbGain ≤ 1) ∧
  (0 ≤ k.epW1 ∧ 0 ≤ k.epW2 ∧ 0 ≤ k.epW3 ∧ 0 ≤ k.epWB1 ∧ 0 ≤ k.epWB2) ∧
  0 ≤ k.epBark ∧
  (0 ≤ k.epFbk ∧ k.epFbk < 1) ∧
  (0 ≤ k.epWn ∧ k.epWn ≤ 1 / 10) ∧
  (0 < k.epBellR1 ∧ 0 < k.epBellR2) ∧
  (0 < k.outGain ∧ k.outGain ≤ 1)

/-- One admissible set of constants. It stands in only where an opaque set is not admissible (log 2). -/
def Constants.someValid : Constants where
  sr := 8000
  envEps := 1 / 10000
  fltSmoothK := 1
  resRecalcEps := 0
  hpfBypassMul := 1
  lfoFiltHz := 0
  chDepthMsI := 0
  chDepthMsII := 0
  dlyLpK := 1
  combLen := #v[1, 2, 3, 4]
  apLen := #v[1, 1]
  revSpread := 1
  apG := 1 / 2
  revInGain := 1
  tremCurveP := 1
  bbK := 1 / 2
  bbGain := 0
  epW1 := 0
  epW2 := 0
  epW3 := 0
  epWB1 := 0
  epWB2 := 0
  epBark := 0
  epFbk := 0
  epWn := 0
  epBellR1 := 1
  epBellR2 := 1
  outGain := 1

/-- The constants held to D52: every admissible set is itself, so every admissible chip is admitted. -/
def Constants.held (k : Constants) : Constants :=
  if k.Valid then k else Constants.someValid

/-- Length of each chorus line (R87). -/
def Constants.chN (k : Constants) : Nat :=
  ((8 + max k.chDepthMsI k.chDepthMsII) * k.sr / 1000).ceil.toNat + 2

/-- Length of each delay line (R87). -/
def Constants.dlN (k : Constants) : Nat :=
  (1 / 2 * k.sr).ceil.toNat + 1

/-- Length of comb j of a channel, with 0 for the left channel and 1 for the right (R87, R214). -/
def Constants.combN (k : Constants) (channel : Nat) (j : Fin 4) : Nat :=
  k.combLen[j] + channel * k.revSpread

/-- Length of all-pass j of a channel (R87, R214). -/
def Constants.apN (k : Constants) (channel : Nat) (j : Fin 2) : Nat :=
  k.apLen[j] + channel * k.revSpread

/-- The number format: R10 asks for each rounded primitive as a configuration function of its operands.
lit is the format's image of a decimal constant of the rules, pi its image of the circle constant (log 3). -/
structure Format where
  lit  : ℚ → Num
  pi   : Num
  add  : Num → Num → Num
  sub  : Num → Num → Num
  mul  : Num → Num → Num
  div  : Num → Num → Num
  sqrt : Num → Num
  sin  : Num → Num
  cos  : Num → Num
  tanh : Num → Num
  exp  : Num → Num
  log2 : Num → Num
  pow  : Num → Num → Num
  deriving Inhabited

/-- All that an implementation fixes, with the free values: the noise draws (R140), the external input pair of each
tick (R376), the word written for a NaN output (R378), the line element a chorus or delay read takes where its offset is
none that R78 admits (log 12), and whether a register that is written negative zero keeps its sign (log 1). -/
structure Config where
  k           : Constants
  f           : Format
  epDBark     : Num → ℚ
  epDHarm     : Num → ℚ
  epDTine     : Num → ℚ
  epRel       : Num → ℚ
  noise       : Nat → Num
  extIn       : Nat → Num × Num
  nanWord     : Nat → Word
  strayOffset : Num → Int
  keepsSign   : Reg → Bool

/-- The chip's constants, uninterpreted. -/
opaque Config.freeConstants : Constants

/-- The chip's number format, uninterpreted (R10, D9). -/
opaque Config.freeFormat : Format

/-- The chip's EP_D_BARK, uninterpreted (R262). -/
opaque Config.freeEpDBark : Num → ℚ

/-- The chip's EP_D_HARM, uninterpreted (R262). -/
opaque Config.freeEpDHarm : Num → ℚ

/-- The chip's EP_D_TINE, uninterpreted (R262). -/
opaque Config.freeEpDTine : Num → ℚ

/-- The chip's EP_REL, uninterpreted (R262). -/
opaque Config.freeEpRel : Num → ℚ

/-- The noise draws, uninterpreted, by the number of draws taken before (R140). -/
opaque Config.freeNoise : Nat → Num

/-- The external input of each tick, uninterpreted, by the number of ticks run before (R376). -/
opaque Config.freeExtIn : Nat → Num × Num

/-- The word written for a NaN output, uninterpreted, by the number of output words computed before (R378). -/
opaque Config.freeNanWord : Nat → Word

/-- The element read where a line offset is none that R78 admits, uninterpreted (log 12). -/
opaque Config.freeStrayOffset : Num → Int

/-- Whether a register that is written negative zero keeps its sign, uninterpreted (log 1). -/
opaque Config.freeKeepsSign : Reg → Bool

/-- A rational held to a range. -/
def heldTo (lo hi q : ℚ) : ℚ := max lo (min hi q)

/-- A number held to the reals of [-1, 1], with either zero. -/
def Num.heldToUnit : Num → Num
  | .fin q => .fin (heldTo (-1) 1 q)
  | .negZero => .negZero
  | .inf _ => .zero
  | .nan => .zero

/-- The chip. Each free item is held to the limits the spec states and to nothing else: noise to [-1, 1] (R140),
the electric-piano times to [0.001, 20] (R262), a NaN output's word to a binary32 value in [-1, 1] (R378). -/
def Config.chip : Config where
  k := Config.freeConstants.held
  f := Config.freeFormat
  epDBark v := heldTo (1 / 1000) 20 (Config.freeEpDBark v)
  epDHarm v := heldTo (1 / 1000) 20 (Config.freeEpDHarm v)
  epDTine v := heldTo (1 / 1000) 20 (Config.freeEpDTine v)
  epRel v := heldTo (1 / 1000) 20 (Config.freeEpRel v)
  noise n := (Config.freeNoise n).heldToUnit
  extIn := Config.freeExtIn
  nanWord n := Machine.F32.heldToUnit (Config.freeNanWord n)
  strayOffset := Config.freeStrayOffset
  keepsSign := Config.freeKeepsSign

end Sys2Proof
end

