-- ==== Sys2Proof/Machine/Num.lean ====
section
/-! DEFINITION. The operations on numbers that no format rounds: comparing, minimum and maximum, clamp, sign, floor
(00_scope.md R12). A NaN compares false with everything, so clamp leaves it as it is (48_render.md R378). The two zeros
compare equal; where an operation here gives a zero, its sign is the one IEEE 754 gives it (log 1). -/

namespace Sys2Proof.Num

/-- a < b. -/
def lt (a b : Num) : Bool :=
  match a.unsigned, b.unsigned with
  | .fin a, .fin b => decide (a < b)
  | .fin _, .inf neg => !neg
  | .inf neg, .fin _ => neg
  | .inf a, .inf b => a && !b
  | _, _ => false

/-- a <= b. -/
def le (a b : Num) : Bool :=
  match a.unsigned, b.unsigned with
  | .fin a, .fin b => decide (a ≤ b)
  | .fin _, .inf neg => !neg
  | .inf neg, .fin _ => neg
  | .inf a, .inf b => a || !b
  | _, _ => false

/-- x = 0, of either sign. -/
def isZero (a : Num) : Bool := decide (a.unsigned = .fin 0)

/-- max(lo, x) of R12, with x in the place that a NaN passes through. -/
def max (lo x : Num) : Num := if lt x lo then lo else x

/-- min(hi, x) of R12, with x in the place that a NaN passes through. -/
def min (hi x : Num) : Num := if lt hi x then hi else x

/-- clamp(x, lo, hi) is min(hi, max(lo, x)) (R12). -/
def clamp (x lo hi : Num) : Num := min hi (max lo x)

/-- The magnitude. -/
def abs : Num → Num
  | .fin q => .fin |q|
  | .negZero => .fin 0
  | .inf _ => .inf false
  | .nan => .nan

/-- The negative; that of a zero is the other zero. -/
def neg : Num → Num
  | .fin q => if q = 0 then .negZero else .fin (-q)
  | .negZero => .fin 0
  | .inf n => .inf (!n)
  | .nan => .nan

/-- sgn(x) of R12. -/
def sgn : Num → Num
  | .fin q => if q < 0 then .fin (-1) else if q = 0 then .fin 0 else .fin 1
  | .negZero => .fin 0
  | .inf n => if n then .fin (-1) else .fin 1
  | .nan => .nan

/-- floor(x). -/
def floor : Num → Num
  | .fin q => .fin (q.floor : Int)
  | .negZero => .negZero
  | .inf n => .inf n
  | .nan => .nan

end Sys2Proof.Num

namespace Sys2Proof.Machine

/-- frac(x) is x - floor(x) (R12); the subtraction is a primitive of the format. -/
def frac (c : Config) (x : Num) : Num := c.f.sub x x.floor

/-- The integer part of a line offset, free where the offset is not a number (log 12). -/
def offsetOf (c : Config) : Num → Int
  | .fin q => q.floor
  | .negZero => 0
  | x => c.strayOffset x

/-- The integer part of an interpolated read's offset on a line of length n. R78 admits 0 to n - 2; at any other offset
the element read is free (log 12). -/
def tapOffset (c : Config) (n : Nat) (d : Num) : Int :=
  if Num.le (.fin 0) d && Num.le d (.fin ((n : ℚ) - 2)) then offsetOf c d else c.strayOffset d

/-- The sample rate as a number. -/
def sampleRate (c : Config) : Num := .fin c.k.sr

/-- 2*pi, evaluated in the format. -/
def twoPi (c : Config) : Num := c.f.mul (.fin 2) c.f.pi

end Sys2Proof.Machine
end

