-- ==== Sys2Proof/Decode.lean ====
section
/-! DEFINITION. Command words to instructions and back (30_encoding.md R100 to R112). -/

namespace Sys2Proof

/-- Why a word is no instruction. The block ignores such a word, and R109 and R401 ask a model to refuse it (log 6). -/
inductive DecodeError where
  /-- The port does not accept the opcode (R111; R402 row 1). -/
  | portRejects
  /-- The opcode is reserved (R109; R402 row 2). -/
  | reservedOpcode
  /-- OP is 0x10 and the PID is not assigned (R109; R402 row 3). -/
  | reservedPid
  /-- Fewer than the eight bytes a word has (R100). -/
  | truncated
  deriving DecidableEq, Repr

/-- OP, bits 63:56 (R101). -/
def opField (w : Cmd) : Byte := w.extractLsb' 56 8

/-- PID, bits 55:48. -/
def pidField (w : Cmd) : Byte := w.extractLsb' 48 8

/-- NOTE, bits 47:40. -/
def noteField (w : Cmd) : Byte := w.extractLsb' 40 8

/-- VEL, bits 39:32. -/
def velField (w : Cmd) : Byte := w.extractLsb' 32 8

/-- VAL, bits 31:0. -/
def valField (w : Cmd) : Word := w.extractLsb' 0 32

/-- The opcodes each port accepts (R111). -/
def accepts (p : Port) (op : Byte) : Bool :=
  match p with
  | .ctrl => op = 0x00 || op = 0x01 || op = 0x02 || op = 0x03 || op = 0x10
  | .audio => op = 0x00 || op = 0x20
  | .plat => op = 0x00 || op = 0x30 || op = 0x31

/-- SET by its PID (R108, and the PID column of 10_state.md R23). -/
def decodeSet (pid : Byte) (val : Word) : Except DecodeError Instr :=
  match pid.toNat with
  | 0x00 => .ok (.setOscWaves val)
  | 0x01 => .ok (.setOscPw val)
  | 0x02 => .ok (.setSubMix val)
  | 0x03 => .ok (.setNoiseMix val)
  | 0x04 => .ok (.setFltCutoff val)
  | 0x05 => .ok (.setFltRes val)
  | 0x06 => .ok (.setFltHpf val)
  | 0x07 => .ok (.setFltKeytrack val)
  | 0x08 => .ok (.setFltEnvamt val)
  | 0x09 => .ok (.setAenvA val)
  | 0x0A => .ok (.setAenvD val)
  | 0x0B => .ok (.setAenvS val)
  | 0x0C => .ok (.setAenvR val)
  | 0x0D => .ok (.setFenvA val)
  | 0x0E => .ok (.setFenvD val)
  | 0x0F => .ok (.setFenvS val)
  | 0x10 => .ok (.setFenvR val)
  | 0x11 => .ok (.setLfoRate val)
  | 0x12 => .ok (.setLfoDepth val)
  | 0x13 => .ok (.setLfoRoute val)
  | 0x14 => .ok (.setChorusSMode val)
  | 0x15 => .ok (.setGlideEn val)
  | 0x16 => .ok (.setGlideTime val)
  | 0x17 => .ok (.setUnisonEn val)
  | 0x18 => .ok (.setUnisonN val)
  | 0x19 => .ok (.setUnisonSpread val)
  | 0x20 => .ok (.setTremRate val)
  | 0x21 => .ok (.setTremDepth val)
  | 0x22 => .ok (.setChorusEMode val)
  | 0x23 => .ok (.setDlyTime val)
  | 0x24 => .ok (.setDlyFb val)
  | 0x25 => .ok (.setDlyMix val)
  | 0x26 => .ok (.setRevSize val)
  | 0x27 => .ok (.setRevDamp val)
  | 0x28 => .ok (.setRevMix val)
  | 0x29 => .ok (.setEpVol val)
  | 0x30 => .ok (.setMode val)
  | 0x31 => .ok (.setMasterVol val)
  | _ => .error .reservedPid

/-- A word by its opcode, whatever port it came on (R107). -/
def decodeOpcode (w : Cmd) : Except DecodeError Instr :=
  match (opField w).toNat with
  | 0x00 => .ok .nop
  | 0x01 => .ok (.noteOn (noteField w) (velField w) (valField w))
  | 0x02 => .ok (.noteOff (noteField w))
  | 0x03 => .ok .allNotesOff
  | 0x10 => decodeSet (pidField w) (valField w)
  | 0x20 => .ok (.render (valField w))
  | 0x30 => .ok .deviceChanged
  | 0x31 => .ok .restartDone
  | _ => .error .reservedOpcode

/-- The decoder of R112, in the order of checks of R404: the port, the opcode, the PID. -/
def decode (p : Port) (w : Cmd) : Except DecodeError Instr :=
  if accepts p (opField w) then decodeOpcode w else .error .portRejects

/-- A word as the eight bytes that carry it, least significant first (20_memory.md R76). -/
def cmdBytes (w : Cmd) : List Byte :=
  [w.extractLsb' 0 8, w.extractLsb' 8 8, w.extractLsb' 16 8, w.extractLsb' 24 8,
   w.extractLsb' 32 8, w.extractLsb' 40 8, w.extractLsb' 48 8, w.extractLsb' 56 8]

/-- The first word of a byte stream, and the bytes after it. -/
def cmdOfBytes : List Byte → Option (Cmd × List Byte)
  | b0 :: b1 :: b2 :: b3 :: b4 :: b5 :: b6 :: b7 :: rest =>
    some (b7 ++ (b6 ++ (b5 ++ (b4 ++ (b3 ++ (b2 ++ (b1 ++ b0)))))), rest)
  | _ => none

/-- The decoder on bytes: it always takes eight (R100). -/
def decodeBytes (p : Port) (bs : List Byte) : Except DecodeError (Instr × List Byte) :=
  match cmdOfBytes bs with
  | none => .error .truncated
  | some (w, rest) => (decode p w).map fun i => (i, rest)

/-- A port that accepts the opcode, CTRL where more than one does or none does (R107). -/
def homePort (w : Cmd) : Port :=
  match (opField w).toNat with
  | 0x20 => .audio
  | 0x30 => .plat
  | 0x31 => .plat
  | _ => .ctrl

/-- A word of the opcode table: w numbers its bits, and the bits above nbits are 0. -/
def tableCmd (nbits w : Nat) : Cmd := BitVec.ofNat 64 (w % 2 ^ nbits)

/-- The decoder on a word of the opcode table, laid out as bytes on a port that accepts it. -/
def decodeTableWord (nbits w : Nat) : Option Instr :=
  match decodeBytes (homePort (tableCmd nbits w)) (cmdBytes (tableCmd nbits w)) with
  | .ok (i, _) => some i
  | .error _ => none

/-- A word of its five fields (R101). -/
def packCmd (op pid note vel : Byte) (val : Word) : Cmd :=
  op ++ (pid ++ (note ++ (vel ++ val)))

/-- The word of a SET (R315). -/
def packSet (pid : Byte) (val : Word) : Cmd := packCmd 0x10 pid 0 0 val

/-- The encoder; fields a format does not use are 0, as the assembler writes them (R113). -/
def encode : Instr → Cmd
  | .nop => packCmd 0x00 0 0 0 0
  | .noteOn note vel val => packCmd 0x01 0 note vel val
  | .noteOff note => packCmd 0x02 0 note 0 0
  | .allNotesOff => packCmd 0x03 0 0 0 0
  | .setOscWaves val => packSet 0x00 val
  | .setOscPw val => packSet 0x01 val
  | .setSubMix val => packSet 0x02 val
  | .setNoiseMix val => packSet 0x03 val
  | .setFltCutoff val => packSet 0x04 val
  | .setFltRes val => packSet 0x05 val
  | .setFltHpf val => packSet 0x06 val
  | .setFltKeytrack val => packSet 0x07 val
  | .setFltEnvamt val => packSet 0x08 val
  | .setAenvA val => packSet 0x09 val
  | .setAenvD val => packSet 0x0A val
  | .setAenvS val => packSet 0x0B val
  | .setAenvR val => packSet 0x0C val
  | .setFenvA val => packSet 0x0D val
  | .setFenvD val => packSet 0x0E val
  | .setFenvS val => packSet 0x0F val
  | .setFenvR val => packSet 0x10 val
  | .setLfoRate val => packSet 0x11 val
  | .setLfoDepth val => packSet 0x12 val
  | .setLfoRoute val => packSet 0x13 val
  | .setChorusSMode val => packSet 0x14 val
  | .setGlideEn val => packSet 0x15 val
  | .setGlideTime val => packSet 0x16 val
  | .setUnisonEn val => packSet 0x17 val
  | .setUnisonN val => packSet 0x18 val
  | .setUnisonSpread val => packSet 0x19 val
  | .setTremRate val => packSet 0x20 val
  | .setTremDepth val => packSet 0x21 val
  | .setChorusEMode val => packSet 0x22 val
  | .setDlyTime val => packSet 0x23 val
  | .setDlyFb val => packSet 0x24 val
  | .setDlyMix val => packSet 0x25 val
  | .setRevSize val => packSet 0x26 val
  | .setRevDamp val => packSet 0x27 val
  | .setRevMix val => packSet 0x28 val
  | .setEpVol val => packSet 0x29 val
  | .setMode val => packSet 0x30 val
  | .setMasterVol val => packSet 0x31 val
  | .render frames => packCmd 0x20 0 0 0 frames
  | .deviceChanged => packCmd 0x30 0 0 0 0
  | .restartDone => packCmd 0x31 0 0 0 0

/-- A port accepts an instruction: it accepts the opcode of its word (R107, R111). -/
def Instr.onPort (i : Instr) (p : Port) : Bool := accepts p (opField (encode i))

end Sys2Proof
end

