-- ==== Sys2Proof/Machine/State.lean ====
section
/-! DEFINITION. The state of the block (10_state.md R20 to R41), its ports, the host buffer it has written, and the
ways a step can stop. All of it is plain data. -/

namespace Sys2Proof.Machine

/-- Why the machine has no next state. Both are behaviours the spec leaves undefined and asks a model to be stuck on. -/
inductive Fault where
  /-- A stamp would wrap a 64-bit age counter (R281, U13). Raised by NOTE_ON. Safe: no claim about the steps after it
  can be proved. -/
  | ageCounterWrap
  /-- A RENDER whose buffer base is no multiple of 4 or has fewer than 8 * frameCount writable bytes (R77, U10). Raised
  by RENDER. Unsafe in the spec's own words (D12), since an implementation may do something here. -/
  | renderBufferInvalid
  deriving DecidableEq, Repr

/-- Why the machine gives a command no meaning. -/
inductive Refusal where
  /-- An instruction without a meaning yet. No arm of exec answers it. Safe. -/
  | notModelled (mnemonic : String)
  /-- A word that is no instruction on its port (R109, R111, R401; U2 to U4). Raised by the step. Safe (log 6). -/
  | undecodable (why : DecodeError)
  deriving DecidableEq, Repr

/-- Lifecycle of a voice slot (R29). -/
inductive VState where
  | idle
  | active
  | releasing
  deriving DecidableEq, Repr, Inhabited

/-- Stage of an envelope (R32, R170). -/
inductive Stage where
  | idle
  | attack
  | decay
  | sustain
  | release
  deriving DecidableEq, Repr, Inhabited

/-- An envelope (R32). -/
structure Env where
  stage : Stage
  level : Num
  deriving DecidableEq, Repr

/-- A voice filter (R31). -/
structure Flt where
  init : Bool
  sc   : Num
  sr   : Num
  cu   : Num
  ru   : Num
  b0   : Num
  b1   : Num
  b2   : Num
  a1   : Num
  a2   : Num
  x1   : Num
  x2   : Num
  y1   : Num
  y2   : Num
  hx1  : Num
  hy1  : Num
  deriving DecidableEq, Repr

/-- A subtractive voice slot (R28). The note is none for the FREE sentinel. -/
structure SubVoice where
  vstate  : VState
  note    : Option (Fin 128)
  uidx    : Fin 8
  age     : Age
  fTarget : Num
  fCur    : Num
  detune  : Num
  ph      : Num
  phSub   : Num
  aenv    : Env
  fenv    : Env
  flt     : Flt
  deriving DecidableEq, Repr

/-- An electric-piano envelope with the settings its trigger fixes (R33). -/
structure EpEnv where
  env : Env
  tA  : Num
  tD  : Num
  tR  : Num
  sus : Num
  deriving DecidableEq, Repr

/-- An electric-piano voice slot (R33). -/
structure EpVoice where
  vstate : VState
  note   : Option (Fin 128)
  age    : Age
  freq   : Num
  vel    : Num
  amp    : EpEnv
  bark   : EpEnv
  harm   : EpEnv
  tine   : EpEnv
  ph     : Vector Num 5
  yprev  : Num
  dcx1   : Num
  dcy1   : Num
  deriving DecidableEq, Repr

/-- The elements of a ring buffer (R73): index and value, indexes rising, no entry for an element that holds 0. -/
abbrev Line := List (Nat × Num)

/-- A chorus unit (R37, R202). -/
structure Chorus where
  buf : Line
  w   : Nat
  psi : Num
  deriving DecidableEq, Repr

/-- A tremolo unit (R37, R220). -/
structure Tremolo where
  theta : Num
  g     : Num
  deriving DecidableEq, Repr

/-- A delay unit (R37, R210). -/
structure Delay where
  bufL : Line
  bufR : Line
  w    : Nat
  lpL  : Num
  lpR  : Num
  deriving DecidableEq, Repr

/-- A comb filter of one reverb channel (R37, R216). -/
structure Comb where
  buf : Line
  ci  : Nat
  cf  : Num
  deriving DecidableEq, Repr

/-- An all-pass filter of one reverb channel (R37, R217). -/
structure AllPass where
  buf : Line
  ai  : Nat
  deriving DecidableEq, Repr

/-- One channel of a reverb (R213). -/
structure RevChannel where
  comb : Vector Comb 4
  ap   : Vector AllPass 2
  deriving DecidableEq, Repr

/-- A reverb unit: its left and right channels (R37, R213). -/
structure Reverb where
  left  : RevChannel
  right : RevChannel
  deriving DecidableEq, Repr

/-- The bass-boost shelf (R37, R226). -/
structure Shelf where
  lpL : Num
  lpR : Num
  deriving DecidableEq, Repr

/-- The parameter registers, each one 32-bit word, in the order of Reg (R22, R23, R72). -/
abbrev Params := Vector Word 38

/-- The subtractive path: its pool, age counter, LFO, auto-gain and effect chain (R28, R34 to R37). -/
structure SubPath where
  pool     : Vector SubVoice 12
  gS       : Age
  lfoTheta : Num
  ag       : Num
  chorus   : Chorus
  trem     : Tremolo
  delay    : Delay
  reverb   : Reverb
  shelf    : Shelf
  deriving DecidableEq, Repr

/-- The electric-piano path (R33, R34, R36, R37). -/
structure EpPath where
  pool   : Vector EpVoice 12
  gE     : Age
  ag     : Num
  trem   : Tremolo
  chorus : Chorus
  delay  : Delay
  reverb : Reverb
  deriving DecidableEq, Repr

/-- The host buffer the audio port delivers with a word: its base address and how many bytes are writable from there
(R74, R77). -/
structure OutBuf where
  base : Nat
  room : Nat
  deriving DecidableEq, Repr

/-- A transfer on the audio port: the word and the buffer (R370). -/
structure AudioWord where
  word : Cmd
  buf  : OutBuf
  deriving DecidableEq, Repr

/-- A RENDER in progress: the frames next to frames-1 are still to run (R80, R370). -/
structure Job where
  base   : Nat
  frames : Nat
  next   : Nat
  deriving DecidableEq, Repr

/-- The result type of a render (R379). -/
inductive RenderResult where
  | continue
  | stop
  deriving DecidableEq, Repr

/-- The ports: words received and not yet applied, oldest first (R71, R80); whose turn it is in the one total order of
actions, next first (R80, log 7); the buffer delivered with the last audio word; the render in progress; the last
result returned on the audio port (R379) and the last tick's SYN_OUT (R377), none before the first. -/
structure Ports where
  ctrlIn  : List Cmd
  audioIn : List AudioWord
  platIn  : List Cmd
  turns   : List Port
  buf     : OutBuf
  job     : Option Job
  result  : Option RenderResult
  synOut  : Option (Num × Num)
  deriving DecidableEq, Repr

/-- The bytes of host memory the block has written, by address (R74). A byte it has not written has no entry. -/
abbrev Memory := List Host.Cell

/-- The state. noiseCount and tickCount are the model's own: how many noise values have been drawn and how many ticks
have run, which index the free values (log 5). -/
structure State where
  params          : Params
  sub             : SubPath
  ep              : EpPath
  restartInFlight : Bool
  mem             : Memory
  io              : Ports
  noiseCount      : Nat
  tickCount       : Nat
  deriving DecidableEq, Repr

/-- An envelope at rest (R432). -/
def Env.reset : Env := { stage := .idle, level := .zero }

/-- R432. -/
def Flt.reset : Flt where
  init := false
  sc := .zero
  sr := .zero
  cu := .zero
  ru := .zero
  b0 := .zero
  b1 := .zero
  b2 := .zero
  a1 := .zero
  a2 := .zero
  x1 := .zero
  x2 := .zero
  y1 := .zero
  y2 := .zero
  hx1 := .zero
  hy1 := .zero

/-- R432. -/
def SubVoice.reset : SubVoice where
  vstate := .idle
  note := none
  uidx := 0
  age := 0
  fTarget := .zero
  fCur := .zero
  detune := .one
  ph := .zero
  phSub := .zero
  aenv := .reset
  fenv := .reset
  flt := .reset

/-- R433. -/
def EpEnv.reset : EpEnv where
  env := .reset
  tA := .fin (1 / 1000)
  tD := .fin (1 / 1000)
  tR := .fin (1 / 1000)
  sus := .zero

/-- R433. -/
def EpVoice.reset : EpVoice where
  vstate := .idle
  note := none
  age := 0
  freq := .zero
  vel := .zero
  amp := .reset
  bark := .reset
  harm := .reset
  tine := .reset
  ph := Vector.replicate 5 .zero
  yprev := .zero
  dcx1 := .zero
  dcy1 := .zero

/-- R435. -/
def Chorus.reset : Chorus := { buf := [], w := 0, psi := .zero }

/-- R435. -/
def Tremolo.reset : Tremolo := { theta := .zero, g := .one }

/-- R435. -/
def Delay.reset : Delay := { bufL := [], bufR := [], w := 0, lpL := .zero, lpR := .zero }

/-- R435. -/
def RevChannel.reset : RevChannel where
  comb := Vector.replicate 4 { buf := [], ci := 0, cf := .zero }
  ap := Vector.replicate 2 { buf := [], ai := 0 }

/-- R435. -/
def Reverb.reset : Reverb := { left := .reset, right := .reset }

/-- R435. -/
def Shelf.reset : Shelf := { lpL := .zero, lpR := .zero }

/-- R432, R434, R435. -/
def SubPath.reset : SubPath where
  pool := Vector.replicate 12 .reset
  gS := 0
  lfoTheta := .zero
  ag := .one
  chorus := .reset
  trem := .reset
  delay := .reset
  reverb := .reset
  shelf := .reset

/-- R433 to R435. -/
def EpPath.reset : EpPath where
  pool := Vector.replicate 12 .reset
  gE := 0
  ag := .one
  trem := .reset
  chorus := .reset
  delay := .reset
  reverb := .reset

/-- Nothing received, nothing to do, no render in progress (R437). -/
def Ports.reset : Ports where
  ctrlIn := []
  audioIn := []
  platIn := []
  turns := []
  buf := { base := 0, room := 0 }
  job := none
  result := none
  synOut := none

/-- The state after reset with the register file p. R431 leaves each register any legal value, so every p of legal
values is a reset state of the block; a claim about reset that is to hold of the block is stated for every such p. -/
def State.resetWith (p : Params) : State where
  params := p
  sub := .reset
  ep := .reset
  restartInFlight := false
  mem := []
  io := .reset
  noiseCount := 0
  tickCount := 0

/-- The register file State.reset has: each register at the value a SET of VAL = 0 stores, which is 0 or the legal value
nearest to it. DESIGN CHOICE (log 4, unsafe): the spec states no value. -/
def Params.reset : Params :=
  #v[0x00000000, 0x3C23D70A, 0x00000000, 0x00000000,  -- OSC_WAVES, OSC_PW, SUB_MIX, NOISE_MIX
     0x41A00000, 0x00000000, 0x00000000, 0x00000000,  -- FLT_CUTOFF, FLT_RES, FLT_HPF, FLT_KEYTRACK
     0x00000000,                                      -- FLT_ENVAMT
     0x3A83126F, 0x3A83126F, 0x00000000, 0x3A83126F,  -- AENV_A, AENV_D, AENV_S, AENV_R
     0x3A83126F, 0x3A83126F, 0x00000000, 0x3A83126F,  -- FENV_A, FENV_D, FENV_S, FENV_R
     0x3DCCCCCD, 0x00000000, 0x00000000,              -- LFO_RATE, LFO_DEPTH, LFO_ROUTE
     0x00000000, 0x00000000, 0x00000000,              -- CHORUS_S_MODE, GLIDE_EN, GLIDE_TIME
     0x00000000, 0x00000001, 0x00000000,              -- UNISON_EN, UNISON_N, UNISON_SPREAD
     0x3DCCCCCD, 0x00000000, 0x00000000,              -- TREM_RATE, TREM_DEPTH, CHORUS_E_MODE
     0x3D4CCCCD, 0x00000000, 0x00000000,              -- DLY_TIME, DLY_FB, DLY_MIX
     0x00000000, 0x00000000, 0x00000000,              -- REV_SIZE, REV_DAMP, REV_MIX
     0x00000000, 0x00000000, 0x00000000]              -- EP_VOL, MODE, MASTER_VOL

/-- The state after reset (R430 to R437), with the register values of Params.reset. -/
def State.reset : State := State.resetWith Params.reset

end Sys2Proof.Machine
end

