-- ==== Sys2Proof/Machine/Ops.lean ====
section
/-! DEFINITION. The named operations over memory, delay lines, registers and counters that the meanings share, and the
one error-handling primitive of the block, ignore. The block takes no exception and returns from none
(60_exceptions.md R400, R406, R409), so ignore stands where other machines have an exception entry. -/

namespace Sys2Proof.Machine

/-- The entry a list of cells has for a key. -/
def cellAt {α : Type} : List (Nat × α) → Nat → Option α
  | [], _ => none
  | (k, v) :: rest, a => if k = a then some v else cellAt rest a

/-- Put an entry, in the order of keys, in place of the one with its key. -/
def putCell {α : Type} : List (Nat × α) → Nat → α → List (Nat × α)
  | [], a, x => [(a, x)]
  | (k, v) :: rest, a, x =>
    if a < k then (a, x) :: (k, v) :: rest
    else if k = a then (a, x) :: rest
    else (k, v) :: putCell rest a x

/-- Drop the entry of a key. -/
def dropCell {α : Type} : List (Nat × α) → Nat → List (Nat × α)
  | [], _ => []
  | (k, v) :: rest, a => if k = a then rest else (k, v) :: dropCell rest a

/-- Keys strictly rising. -/
def rising {α : Type} : List (Nat × α) → Bool
  | [] => true
  | (k, _) :: rest => (rest.all fun e => decide (k < e.1)) && rising rest

namespace Memory

/-- The byte the block has written at an address, none if it has written none there. -/
def read (m : Memory) (a : Nat) : Option Byte := cellAt m a

/-- Write one byte. -/
def write (m : Memory) (a : Nat) (b : Byte) : Memory := putCell m a b

/-- MemWrite(a, 4, v) of R12, least significant byte first (20_memory.md R76). -/
def write32 (m : Memory) (a : Nat) (v : Word) : Memory :=
  write (write (write (write m a (v.extractLsb' 0 8)) (a + 1) (v.extractLsb' 8 8)) (a + 2) (v.extractLsb' 16 8))
    (a + 3) (v.extractLsb' 24 8)

/-- The word stored at an address, where all four of its bytes have been written. -/
def read32 (m : Memory) (a : Nat) : Option Word :=
  match read m a, read m (a + 1), read m (a + 2), read m (a + 3) with
  | some b0, some b1, some b2, some b3 => some (b3 ++ (b2 ++ (b1 ++ b0)))
  | _, _, _, _ => none

/-- The canonical form. A byte not written has no entry, and every entry is a byte written, so addresses strictly
rising is all of it. -/
def wf (m : Memory) : Bool := rising m

end Memory

namespace Line

/-- An element of a line; one without an entry holds 0. -/
def get (l : Line) (i : Nat) : Num := (cellAt l i).getD .zero

/-- Store an element; storing 0 leaves no entry. -/
def put (l : Line) (i : Nat) (v : Num) : Line :=
  if v = .zero then dropCell l i else putCell l i v

/-- The canonical form: indexes strictly rising, and no entry that holds 0. -/
def wf (l : Line) : Bool := rising l && l.all fun e => decide (e.2 ≠ .zero)

/-- (w - k) mod n, in 0..n-1 for a line of length n >= 1 (R78). -/
def slot (n w : Nat) (k : Int) : Nat := (((w : Int) - k) % (n : Int)).toNat

/-- DL.rd(k) for a line of length n with write index w (R78). -/
def rd (l : Line) (n w : Nat) (k : Int) : Num := get l (slot n w k)

/-- DL.rdf(d): linear interpolation between two elements (R78). -/
def rdf (c : Config) (l : Line) (n w : Nat) (d : Num) : Num :=
  c.f.add (c.f.mul (c.f.sub .one (frac c d)) (rd l n w (tapOffset c n d)))
    (c.f.mul (frac c d) (rd l n w (tapOffset c n d + 1)))

/-- The index after w (DL.adv of R78). -/
def adv (n w : Nat) : Nat := (w + 1) % n

end Line

/-- A register's place in the register file. -/
def regIdx : Reg → Fin 38
  | .oscWaves => 0
  | .oscPw => 1
  | .subMix => 2
  | .noiseMix => 3
  | .fltCutoff => 4
  | .fltRes => 5
  | .fltHpf => 6
  | .fltKeytrack => 7
  | .fltEnvamt => 8
  | .aenvA => 9
  | .aenvD => 10
  | .aenvS => 11
  | .aenvR => 12
  | .fenvA => 13
  | .fenvD => 14
  | .fenvS => 15
  | .fenvR => 16
  | .lfoRate => 17
  | .lfoDepth => 18
  | .lfoRoute => 19
  | .chorusSMode => 20
  | .glideEn => 21
  | .glideTime => 22
  | .unisonEn => 23
  | .unisonN => 24
  | .unisonSpread => 25
  | .tremRate => 26
  | .tremDepth => 27
  | .chorusEMode => 28
  | .dlyTime => 29
  | .dlyFb => 30
  | .dlyMix => 31
  | .revSize => 32
  | .revDamp => 33
  | .revMix => 34
  | .epVol => 35
  | .mode => 36
  | .masterVol => 37

/-- P[r] as the word it holds (R22). -/
def Params.u (p : Params) (r : Reg) : Word := p[regIdx r]

/-- P[r] of an f32 register, as a number (R23). -/
def Params.num (p : Params) (r : Reg) : Num := F32.toNum (p.u r)

/-- P[r] <- v. -/
def Params.put (p : Params) (r : Reg) (v : Word) : Params := p.set (regIdx r) v

/-- P[r] of a state. -/
def State.P (s : State) (r : Reg) : Word := s.params.u r

/-- P[r] <- v on a state. -/
def State.setP (s : State) (r : Reg) (v : Word) : State := { s with params := s.params.put r v }

/-- The ignore primitive (R401): the command changes no state, and the port goes on to its next word. -/
def ignore (s : State) : Host.Outcome State Fault Refusal := .next s

/-- Whether n more stamps keep a 64-bit age counter from wrapping (R281). -/
def stampsFit (g : Age) (n : Nat) : Bool := decide (g.toNat + n < 2 ^ 64)

/-- The twelve slots in slot order (R280, R292). -/
def slots : List (Fin 12) := [0, 1, 2, 3, 4, 5, 6, 7, 8, 9, 10, 11]

end Sys2Proof.Machine
end

