-- ==== Sys2Proof/Machine/Operands.lean ====
section
/-! DEFINITION. The operand forms (30_encoding.md R103 to R105) and the write rule of each parameter register
(10_state.md R23). -/

namespace Sys2Proof.Machine

/-- How a register takes a written VAL (the type and write columns of R23). -/
inductive RegKind where
  /-- binary32, clamped to [lo, hi]; a NaN is ignored. -/
  | f32 (lo hi : Word)
  /-- unsigned, VAL & m. -/
  | mask (m : Word)
  /-- unsigned, min(VAL, hi). -/
  | upTo (hi : Word)
  /-- unsigned, clamp(VAL, lo, hi). -/
  | range (lo hi : Word)
  deriving DecidableEq, Repr

/-- The binary32 words of the ranges' ends. -/
def f32Zero : Word := 0x00000000
/-- 1 -/
def f32One : Word := 0x3F800000
/-- 0.001 -/
def f32Milli : Word := 0x3A83126F
/-- 20 -/
def f32Twenty : Word := 0x41A00000
/-- 0.1 -/
def f32Tenth : Word := 0x3DCCCCCD
/-- 20000 -/
def f32TwentyK : Word := 0x469C4000

/-- The legal values and the write rule of each register (R23 to R27). -/
def regKind : Reg → RegKind
  | .oscWaves => .mask 0xF
  | .oscPw => .f32 0x3C23D70A 0x3F7D70A4  -- 0.01, 0.99
  | .subMix => .f32 f32Zero f32One
  | .noiseMix => .f32 f32Zero f32One
  | .fltCutoff => .f32 f32Twenty f32TwentyK
  | .fltRes => .f32 f32Zero f32One
  | .fltHpf => .f32 f32Zero f32TwentyK
  | .fltKeytrack => .f32 f32Zero f32One
  | .fltEnvamt => .f32 0xC69C4000 f32TwentyK  -- -20000, 20000
  | .aenvA => .f32 f32Milli f32Twenty
  | .aenvD => .f32 f32Milli f32Twenty
  | .aenvS => .f32 f32Zero f32One
  | .aenvR => .f32 f32Milli f32Twenty
  | .fenvA => .f32 f32Milli f32Twenty
  | .fenvD => .f32 f32Milli f32Twenty
  | .fenvS => .f32 f32Zero f32One
  | .fenvR => .f32 f32Milli f32Twenty
  | .lfoRate => .f32 f32Tenth f32Twenty
  | .lfoDepth => .f32 f32Zero f32One
  | .lfoRoute => .mask 0x7
  | .chorusSMode => .upTo 2
  | .glideEn => .mask 1
  | .glideTime => .f32 f32Zero 0x41200000  -- 0, 10
  | .unisonEn => .mask 1
  | .unisonN => .range 1 8
  | .unisonSpread => .f32 f32Zero 0x42C80000  -- 0, 100
  | .tremRate => .f32 f32Tenth f32Twenty
  | .tremDepth => .f32 f32Zero f32One
  | .chorusEMode => .upTo 2
  | .dlyTime => .f32 0x3D4CCCCD 0x3F000000  -- 0.05, 0.5
  | .dlyFb => .f32 f32Zero 0x3F4CCCCD  -- 0, 0.8
  | .dlyMix => .f32 f32Zero f32One
  | .revSize => .f32 f32Zero f32One
  | .revDamp => .f32 f32Zero f32One
  | .revMix => .f32 f32Zero f32One
  | .epVol => .f32 f32Zero f32One
  | .mode => .upTo 1
  | .masterVol => .f32 f32Zero f32One

/-- min of R12 on unsigned words. -/
def uMin (a b : Word) : Word := if b < a then b else a

/-- max of R12 on unsigned words. -/
def uMax (a b : Word) : Word := if a < b then b else a

/-- What a write of VAL stores, none where it is ignored (R315; R402 row 6); keep says which zero an f32 register holds
after a write of negative zero (log 1). -/
def storedWord (keep : Bool) : RegKind → Word → Option Word
  | .f32 lo hi, val => if F32.isNaN val then none else some (F32.keptZero keep (F32.clamp lo hi val))
  | .mask m, val => some (val &&& m)
  | .upTo hi, val => some (uMin val hi)
  | .range lo hi, val => some (uMin (uMax lo val) hi)

/-- A legal value of a register (the legal values column of R23). -/
def legalWord : RegKind → Word → Bool
  | .f32 lo hi, w => !F32.isNaN w && decide (F32.key lo ≤ F32.key w) && decide (F32.key w ≤ F32.key hi)
  | .mask m, w => decide (w &&& m = w)
  | .upTo hi, w => decide (w ≤ hi)
  | .range lo hi, w => decide (lo ≤ w) && decide (w ≤ hi)

/-- The SET common action (R315). -/
def writeReg (r : Reg) (val : Word) (s : State) : Host.Outcome State Fault Refusal :=
  match storedWord (Config.chip.keepsSign r) (regKind r) val with
  | some w => .next (s.setP r w)
  | none => ignore s

/-- NOTE as a note number, none above 127 (R104; R402 row 4). -/
def noteOperand (note : Byte) : Option (Fin 128) :=
  if h : note.toNat < 128 then some ⟨note.toNat, h⟩ else none

/-- vel := min(VEL, 127) / 127 (R105). -/
def velOperand (c : Config) (vel : Byte) : Num := c.f.div (.nat (min vel.toNat 127)) (.nat 127)

/-- The ceiling of a note frequency, min(20000, SR / 2) (R312). -/
def freqCeiling (c : Config) : Num := Num.min (.fin 20000) (c.f.div (sampleRate c) (.fin 2))

/-- fr := clamp(f32(VAL), 1, min(20000, SR / 2)) (R312); none where VAL is a NaN (R402 row 5). -/
def freqOperand (c : Config) (val : Word) : Option Num :=
  if F32.isNaN val then none else some (Num.clamp (F32.toNum val) .one (freqCeiling c))

end Sys2Proof.Machine
end

