-- ==== Sys2Proof/Machine/Flags.lean ====
section
/-! DEFINITION. The status-like state of 10_state.md R39: an envelope's activity, a slot's lifecycle, the restart flag,
and the tests of register fields that the rules make. -/

namespace Sys2Proof.Machine

/-- isActive(E) (R180). -/
def Env.isActive (e : Env) : Bool := decide (e.stage ≠ .idle)

/-- cnt of the subtractive pool: slots that are not IDLE (R294). -/
def subCount (pool : Vector SubVoice 12) : Nat := (slots.filter fun i => pool[i].vstate ≠ .idle).length

/-- cnt of the electric-piano pool (R294). -/
def epCount (pool : Vector EpVoice 12) : Nat := (slots.filter fun i => pool[i].vstate ≠ .idle).length

/-- P[MODE] = SUB (R27). -/
def Params.isSub (p : Params) : Bool := decide (p.u .mode = 0)

/-- Bit n of a field register is 1 (R24, R25). -/
def Params.bit (p : Params) (r : Reg) (n : Nat) : Bool := (p.u r).getLsbD n

/-- The test-and-set of the restart flag (R407): true where the signal is a no-op. -/
def State.restartPending (s : State) : Bool := s.restartInFlight

end Sys2Proof.Machine
end

