-- ==== Sys2Proof/Machine/Envelope.lean ====
section
/-! DEFINITION. The envelope (42_envelope.md). -/

namespace Sys2Proof.Machine

/-- The settings an envelope runs under: attack, decay, sustain, release. -/
structure EnvSettings where
  a : Num
  d : Num
  s : Num
  r : Num
  deriving DecidableEq, Repr

/-- gate(E, true): ATTACK from the current level (R172). -/
def Env.gateOn (e : Env) : Env := { e with stage := .attack }

/-- gate(E, false): RELEASE unless IDLE (R173). -/
def Env.gateOff (e : Env) : Env := if e.stage = .idle then e else { e with stage := .release }

/-- The rate of a stage of time t: 1 / (max(t, 0.001) * SR) (R171). -/
def stageRate (c : Config) (t : Num) : Num :=
  c.f.div .one (c.f.mul (Num.max (c.f.lit (1 / 1000)) t) (sampleRate c))

/-- ATTACK (R174, R175). -/
def Env.attackTick (c : Config) (x : EnvSettings) (e : Env) : Env :=
  let l := c.f.add e.level (stageRate c x.a)
  if Num.le .one l then { stage := .decay, level := .one } else { e with level := l }

/-- DECAY (R174, R176). -/
def Env.decayTick (c : Config) (x : EnvSettings) (e : Env) : Env :=
  let l := c.f.sub e.level (c.f.mul (stageRate c x.d) (c.f.add (c.f.sub e.level x.s) (.fin c.k.envEps)))
  if Num.lt (Num.abs (c.f.sub l x.s)) (c.f.lit (1 / 10000)) then { stage := .sustain, level := x.s }
  else { e with level := l }

/-- RELEASE (R174, R178). -/
def Env.releaseTick (c : Config) (x : EnvSettings) (e : Env) : Env :=
  let l := c.f.sub e.level (stageRate c x.r)
  if Num.le l .zero then { stage := .idle, level := .zero } else { e with level := l }

/-- env_tick(E); the value returned is the new level (R174). -/
def Env.tick (c : Config) (x : EnvSettings) (e : Env) : Env :=
  match e.stage with
  | .idle => { e with level := .zero }
  | .attack => e.attackTick c x
  | .decay => e.decayTick c x
  | .sustain => { e with level := x.s }
  | .release => e.releaseTick c x

/-- The amplitude envelope's settings, read at each tick (R181). -/
def aenvSettings (p : Params) : EnvSettings :=
  { a := p.num .aenvA, d := p.num .aenvD, s := p.num .aenvS, r := p.num .aenvR }

/-- The filter envelope's settings, read at each tick (R181). -/
def fenvSettings (p : Params) : EnvSettings :=
  { a := p.num .fenvA, d := p.num .fenvD, s := p.num .fenvS, r := p.num .fenvR }

/-- An electric-piano envelope's settings, fixed at its trigger (R181). -/
def EpEnv.settings (e : EpEnv) : EnvSettings := { a := e.tA, d := e.tD, s := e.sus, r := e.tR }

/-- One tick of an electric-piano envelope. -/
def EpEnv.tick (c : Config) (e : EpEnv) : EpEnv := { e with env := e.env.tick c e.settings }

end Sys2Proof.Machine
end

