-- ==== Sys2Proof/Machine/Effects.lean ====
section
/-! DEFINITION. Saturators and effect units (44_effects.md). -/

namespace Sys2Proof.Machine

/-- sat08 (R200), with the corner cases the rule states for the infinities and NaN. -/
def sat08 (c : Config) (x : Num) : Num :=
  match x with
  | .nan => .nan
  | .inf neg => if neg then .fin (-1) else .one
  | .fin _ | .negZero =>
    let k := c.f.lit (4 / 5)
    let w := c.f.lit (1 / 5)
    if Num.le (Num.abs x) k then x
    else c.f.mul (Num.sgn x) (c.f.add k (c.f.mul w (c.f.tanh (c.f.div (c.f.sub (Num.abs x) k) w))))

/-- cub (R201). -/
def cub (c : Config) (x : Num) : Num :=
  if Num.le (Num.abs x) .one then c.f.sub x (c.f.div (c.f.mul (c.f.mul x x) x) (.fin 3))
  else c.f.div (c.f.mul (Num.sgn x) (.fin 2)) (.fin 3)

/-- (1 - mix) * x + mix * y, the crossfade of the chorus, the delay and the reverb (R204, R210, R218). -/
def crossfade (c : Config) (mix x y : Num) : Num :=
  c.f.add (c.f.mul (c.f.sub .one mix) x) (c.f.mul mix y)

/-- A row of the chorus mode table (R203). -/
structure ChorusMode where
  d0  : Num
  fr  : Num
  mix : Num
  dep : Num
  deriving DecidableEq, Repr

/-- The row of a mode register value: none for OFF (R203). -/
def chorusMode (c : Config) (md : Word) : Option ChorusMode :=
  if md = 0 then none
  else if md = 1 then some { d0 := .fin 6, fr := .fin (1 / 2), mix := .fin (1 / 2), dep := .fin c.k.chDepthMsI }
  else some { d0 := .fin 8, fr := c.f.lit (4 / 5), mix := c.f.lit (3 / 5), dep := .fin c.k.chDepthMsII }

/-- A tap's read offset in samples, from its delay in ms (R204). -/
def chorusOffset (c : Config) (ms : Num) : Num := c.f.div (c.f.mul ms (sampleRate c)) (.fin 1000)

/-- chorus_tick (R204): the input is written first, then the two taps are read. -/
def Chorus.tick (c : Config) (u : Chorus) (x : Num) (md : Word) : Chorus × Num × Num :=
  let n := c.k.chN
  let buf := Line.put u.buf u.w x
  match chorusMode c md with
  | none => ({ u with buf := buf, w := Line.adv n u.w }, x, x)
  | some m =>
    let s := c.f.sin (c.f.mul (twoPi c) u.psi)
    let dL := chorusOffset c (c.f.add m.d0 (c.f.mul m.dep s))
    let dR := chorusOffset c (c.f.sub m.d0 (c.f.mul m.dep s))
    ({ buf := buf, w := Line.adv n u.w, psi := frac c (c.f.add u.psi (c.f.div m.fr (sampleRate c))) },
     crossfade c m.mix x (Line.rdf c buf n u.w dL),
     crossfade c m.mix x (Line.rdf c buf n u.w dR))

/-- The delay in samples: floor(DLY_TIME * SR + 0.5) clamped to [1, DL_N - 1] (R210, R211). -/
def delaySamples (c : Config) (p : Params) : Int :=
  offsetOf c (Num.clamp (Num.floor (c.f.add (c.f.mul (p.num .dlyTime) (sampleRate c)) (.fin (1 / 2))))
    .one (.nat (c.k.dlN - 1)))

/-- One step of a one-pole low-pass: y + k * (x - y). -/
def onePole (c : Config) (k y x : Num) : Num := c.f.add y (c.f.mul k (c.f.sub x y))

/-- delay_tick (R210): the line is read before it is written. -/
def Delay.tick (c : Config) (p : Params) (u : Delay) (xL xR : Num) : Delay × Num × Num :=
  let n := c.k.dlN
  let sL := Line.rd u.bufL n u.w (delaySamples c p)
  let sR := Line.rd u.bufR n u.w (delaySamples c p)
  let lpL := onePole c (.fin c.k.dlyLpK) u.lpL sL
  let lpR := onePole c (.fin c.k.dlyLpK) u.lpR sR
  let fb := p.num .dlyFb
  ({ bufL := Line.put u.bufL u.w (c.f.add xL (c.f.mul fb lpL)),
     bufR := Line.put u.bufR u.w (c.f.add xR (c.f.mul fb lpR)),
     w := Line.adv n u.w, lpL := lpL, lpR := lpR },
   crossfade c (p.num .dlyMix) xL sL, crossfade c (p.num .dlyMix) xR sR)

/-- fb := 0.5 + 0.45 * P[REV_SIZE] (R219). -/
def combFeedback (c : Config) (p : Params) : Num :=
  c.f.add (.fin (1 / 2)) (c.f.mul (c.f.lit (9 / 20)) (p.num .revSize))

/-- comb_tick on a line of length n (R216). -/
def Comb.tick (c : Config) (p : Params) (n : Nat) (u : Num) (x : Comb) : Comb × Num :=
  let o := Line.get x.buf x.ci
  let dm := p.num .revDamp
  let cf := c.f.add (c.f.mul o (c.f.sub .one dm)) (c.f.mul x.cf dm)
  ({ buf := Line.put x.buf x.ci (c.f.add u (c.f.mul (combFeedback c p) cf)), ci := Line.adv n x.ci, cf := cf }, o)

/-- ap_tick on a line of length n (R217). -/
def AllPass.tick (c : Config) (n : Nat) (s : Num) (x : AllPass) : AllPass × Num :=
  let b := Line.get x.buf x.ai
  ({ buf := Line.put x.buf x.ai (c.f.add s (c.f.mul (.fin c.k.apG) b)), ai := Line.adv n x.ai }, c.f.sub b s)

/-- One channel: the four combs summed in increasing order, then all-pass 0, then all-pass 1 (R218). -/
def RevChannel.tick (c : Config) (p : Params) (channel : Nat) (u : Num) (x : RevChannel) : RevChannel × Num :=
  let c0 := Comb.tick c p (c.k.combN channel 0) u x.comb[0]
  let c1 := Comb.tick c p (c.k.combN channel 1) u x.comb[1]
  let c2 := Comb.tick c p (c.k.combN channel 2) u x.comb[2]
  let c3 := Comb.tick c p (c.k.combN channel 3) u x.comb[3]
  let s := c.f.add (c.f.add (c.f.add c0.2 c1.2) c2.2) c3.2
  let a0 := AllPass.tick c (c.k.apN channel 0) s x.ap[0]
  let a1 := AllPass.tick c (c.k.apN channel 1) a0.2 x.ap[1]
  ({ comb := #v[c0.1, c1.1, c2.1, c3.1], ap := #v[a0.1, a1.1] }, a1.2)

/-- reverb_tick (R215, R218). -/
def Reverb.tick (c : Config) (p : Params) (u : Reverb) (xL xR : Num) : Reverb × Num × Num :=
  let x := c.f.div (c.f.mul (.fin c.k.revInGain) (c.f.add xL xR)) (.fin 2)
  let l := RevChannel.tick c p 0 x u.left
  let r := RevChannel.tick c p 1 x u.right
  ({ left := l.1, right := r.1 }, crossfade c (p.num .revMix) xL l.2, crossfade c (p.num .revMix) xR r.2)

/-- The tremolo's target gain, 1 - 0.7 * depth * u^p with u = (1 + sin) / 2 (R221). -/
def tremTarget (c : Config) (p : Params) (theta : Num) : Num :=
  let u := c.f.div (c.f.add .one (c.f.sin (c.f.mul (twoPi c) theta))) (.fin 2)
  c.f.sub .one (c.f.mul (c.f.mul (c.f.lit (7 / 10)) (p.num .tremDepth)) (c.f.pow u (.fin c.k.tremCurveP)))

/-- The follower coefficient, 1 - exp(-1 / (0.008 * SR)) (R221). -/
def tremFollow (c : Config) : Num :=
  c.f.sub .one (c.f.exp (c.f.div (.fin (-1)) (c.f.mul (c.f.lit (1 / 125)) (sampleRate c))))

/-- trem_gain (R221). -/
def Tremolo.tick (c : Config) (p : Params) (t : Tremolo) : Tremolo × Num :=
  let g := onePole c (tremFollow c) t.g (tremTarget c p t.theta)
  ({ theta := frac c (c.f.add t.theta (c.f.div (p.num .tremRate) (sampleRate c))), g := g }, g)

/-- bb_tick (R226). -/
def Shelf.tick (c : Config) (b : Shelf) (xL xR : Num) : Shelf × Num × Num :=
  let lpL := onePole c (.fin c.k.bbK) b.lpL xL
  let lpR := onePole c (.fin c.k.bbK) b.lpR xR
  ({ lpL := lpL, lpR := lpR },
   c.f.add xL (c.f.mul (.fin c.k.bbGain) lpL), c.f.add xR (c.f.mul (.fin c.k.bbGain) lpR))

end Sys2Proof.Machine
end

