-- ==== Sys2Proof/Machine/Oscillator.lean ====
section
/-! DEFINITION. Oscillator and sub-oscillator (40_oscillator.md), and the LFO (43_lfo.md). -/

namespace Sys2Proof.Machine

/-- The advance of a phase by f / SR (R130). -/
def advance (c : Config) (ph dt : Num) : Num := frac c (c.f.add ph dt)

/-- s_sine (R131). -/
def sSine (c : Config) (t : Num) : Num := c.f.sin (c.f.mul (twoPi c) t)

/-- blep (R132). -/
def blep (c : Config) (t dt : Num) : Num :=
  if Num.lt t dt then
    let u := c.f.div t dt
    c.f.sub (c.f.sub (c.f.mul (.fin 2) u) (c.f.mul u u)) .one
  else if Num.lt (c.f.sub .one dt) t then
    let u := c.f.div (c.f.sub t .one) dt
    c.f.add (c.f.add (c.f.mul u u) (c.f.mul (.fin 2) u)) .one
  else .zero

/-- s_saw (R133). -/
def sSaw (c : Config) (t dt : Num) : Num :=
  c.f.sub (c.f.sub (c.f.mul (.fin 2) t) .one) (blep c t dt)

/-- s_pulse (R134). -/
def sPulse (c : Config) (t dt pw : Num) : Num :=
  c.f.sub (c.f.add (if Num.lt t pw then .one else .fin (-1)) (blep c t dt))
    (blep c (frac c (c.f.sub (c.f.add t .one) pw)) dt)

/-- s_tri (R135); also the LFO's shape (R191). -/
def sTri (c : Config) (t : Num) : Num :=
  c.f.sub .one (c.f.mul (.fin 4) (Num.abs (c.f.sub t (.fin (1 / 2)))))

/-- The values added from the left, in order (R136). -/
def sumFrom (c : Config) : Num → List Num → Num
  | a, [] => a
  | a, v :: vs => sumFrom c (c.f.add a v) vs

/-- The additive combination of the enabled waveforms' values (R136). -/
def combine (c : Config) : List Num → Num
  | [] => .zero
  | [v] => v
  | v :: vs => sat08 c (c.f.div (sumFrom c v vs) (c.f.sqrt (.nat (vs.length + 1))))

/-- The values of the enabled waveforms, in the order of the mask's bits (R24, R136). -/
def enabledWaves (c : Config) (p : Params) (t dt pw : Num) : List Num :=
  (if p.bit .oscWaves 0 then [sSine c t] else []) ++
  (if p.bit .oscWaves 1 then [sPulse c t dt pw] else []) ++
  (if p.bit .oscWaves 2 then [sSaw c t dt] else []) ++
  (if p.bit .oscWaves 3 then [sTri c t] else [])

/-- osc_tick: the new phase and the output, computed from the phase before it advances (R137). -/
def oscTick (c : Config) (p : Params) (ph f pw : Num) : Num × Num :=
  let dt := c.f.div f (sampleRate c)
  (advance c ph dt, combine c (enabledWaves c p ph dt pw))

/-- sub_tick: the new phase and the output (R138). -/
def subOscTick (c : Config) (phSub f : Num) : Num × Num :=
  let dt := c.f.div (c.f.div f (.fin 2)) (sampleRate c)
  (advance c phSub dt, sPulse c phSub dt (.fin (1 / 2)))

/-- The LFO's three modulation taps (R192). -/
structure Taps where
  pitch  : Num
  filter : Num
  pw     : Num
  deriving DecidableEq, Repr

/-- lfo_tick: the new phase and the raw value (R191). -/
def lfoTick (c : Config) (p : Params) (theta : Num) : Num × Num :=
  (advance c theta (c.f.div (p.num .lfoRate) (sampleRate c)), sTri c theta)

/-- A tap of a scale, 0 where its route bit is 0 (R192, R193). -/
def tap (c : Config) (p : Params) (bit : Nat) (scale raw : Num) : Num :=
  if p.bit .lfoRoute bit then c.f.mul (c.f.mul scale raw) (p.num .lfoDepth) else .zero

/-- The taps of a raw value (R192). -/
def lfoTaps (c : Config) (p : Params) (raw : Num) : Taps where
  pitch := tap c p 0 (.fin 2) raw
  filter := tap c p 1 .one raw
  pw := tap c p 2 (c.f.lit (2 / 5)) raw

end Sys2Proof.Machine
end

