-- ==== Sys2Proof/Machine/EpVoice.lean ====
section
/-! DEFINITION. The electric-piano voice (46_wurlitzer_voice.md). -/

namespace Sys2Proof.Machine

/-- The attack time 0.020 - 0.012 * v, the same for the four envelopes (R262). -/
def epAttack (c : Config) (v : Num) : Num :=
  c.f.sub (c.f.lit (1 / 50)) (c.f.mul (c.f.lit (3 / 250)) v)

/-- The AMP decay time 2.0 + 1.5 * v (R262). -/
def epAmpDecay (c : Config) (v : Num) : Num := c.f.add (.fin 2) (c.f.mul (.fin (3 / 2)) v)

/-- An envelope given its settings of R262 and gated on (R270). -/
def EpEnv.trigger (c : Config) (v tD : Num) (e : EpEnv) : EpEnv :=
  { env := e.env.gateOn, tA := epAttack c v, tD := tD, tR := .fin (c.epRel v), sus := .zero }

/-- ep_trigger (R270), with the stamp of R281. -/
def EpVoice.trigger (c : Config) (w : EpVoice) (n : Fin 128) (fr v : Num) (stamp : Age) : EpVoice :=
  { w with
    note := some n,
    freq := fr,
    vel := v,
    amp := w.amp.trigger c v (epAmpDecay c v),
    bark := w.bark.trigger c v (.fin (c.epDBark v)),
    harm := w.harm.trigger c v (.fin (c.epDHarm v)),
    tine := w.tine.trigger c v (.fin (c.epDTine v)),
    vstate := .active,
    age := stamp }

/-- An electric-piano envelope gated off. -/
def EpEnv.gateOff (e : EpEnv) : EpEnv := { e with env := e.env.gateOff }

/-- ep_release (R271). -/
def EpVoice.release (w : EpVoice) : EpVoice :=
  if w.vstate = .active then
    { w with
      amp := w.amp.gateOff, bark := w.bark.gateOff, harm := w.harm.gateOff, tine := w.tine.gateOff,
      vstate := .releasing }
  else w

/-- The ratio of each partial to the fundamental (R263). -/
def partialRatio (c : Config) : Fin 5 → Num
  | 0 => .one
  | 1 => c.f.mul (.fin 2) (c.f.lit (10005 / 10000))
  | 2 => c.f.mul (.fin 3) (c.f.lit (10005 / 10000))
  | 3 => .fin c.k.epBellR1
  | 4 => .fin c.k.epBellR2

/-- A partial's phase after the tick (R263). -/
def partialPhase (c : Config) (w : EpVoice) (j : Fin 5) : Num :=
  advance c w.ph[j] (c.f.div (c.f.mul (partialRatio c j) w.freq) (sampleRate c))

/-- The weighted sum before the clip (R265). -/
def epSum (c : Config) (w : EpVoice) (ea eb eh et n : Num) : Num :=
  let k := c.k
  let pt (j : Fin 5) : Num := sSine c w.ph[j]
  let harmonics := c.f.add (c.f.mul (.fin k.epW2) (pt 1)) (c.f.mul (.fin k.epW3) (pt 2))
  let bark := c.f.add .one (c.f.mul (c.f.mul (.fin k.epBark) w.vel) eb)
  let bells := c.f.add (c.f.mul (.fin k.epWB1) (pt 3)) (c.f.mul (.fin k.epWB2) (pt 4))
  let tone := c.f.add (c.f.add (c.f.mul (.fin k.epW1) (pt 0)) (c.f.mul (c.f.mul harmonics eh) bark))
    (c.f.mul bells et)
  c.f.add (c.f.add (c.f.mul ea tone) (c.f.mul (.fin k.epFbk) w.yprev))
    (c.f.mul (c.f.mul (c.f.mul (.fin k.epWn) w.vel) eb) n)

/-- The DC blocker, c - dcx1 + 0.999 * dcy1 (R267). -/
def dcBlock (c : Config) (w : EpVoice) (x : Num) : Num :=
  c.f.add (c.f.sub x w.dcx1) (c.f.mul (c.f.lit (999 / 1000)) w.dcy1)

/-- ep_retire (R269). -/
def EpVoice.retire (w : EpVoice) : EpVoice := { w with vstate := .idle, note := none }

/-- ep_retire where the AMP envelope has become inactive (R268, R269). -/
def EpVoice.settle (w : EpVoice) : EpVoice := if w.amp.env.isActive then w else w.retire

/-- ep_tick of a slot that is not IDLE, with this tick's noise value: the slot and its output (R268). -/
def EpVoice.tick (c : Config) (noise : Num) (w : EpVoice) : EpVoice × Num :=
  let amp := w.amp.tick c
  let bark := w.bark.tick c
  let harm := w.harm.tick c
  let tine := w.tine.tick c
  let x := cub c (epSum c w amp.env.level bark.env.level harm.env.level tine.env.level noise)
  let y := dcBlock c w x
  (EpVoice.settle
    { w with
      amp := amp, bark := bark, harm := harm, tine := tine,
      ph := #v[partialPhase c w 0, partialPhase c w 1, partialPhase c w 2, partialPhase c w 3, partialPhase c w 4],
      yprev := x, dcx1 := x, dcy1 := y },
   y)

end Sys2Proof.Machine
end

