-- ==== Sys2Proof/Machine/Filter.lean ====
section
/-! DEFINITION. The voice filter (41_filter.md). -/

namespace Sys2Proof.Machine

/-- qmap (R154). -/
def qmap (c : Config) (r : Num) : Num :=
  let q0 := c.f.lit (707 / 1000)
  let knee := c.f.lit (19 / 20)
  if Num.le r knee then c.f.add q0 (c.f.div (c.f.mul (c.f.sub (.fin 15) q0) r) knee)
  else c.f.add (.fin 15)
    (c.f.div (c.f.mul (c.f.sub (.fin 50) (.fin 15)) (c.f.sub r knee)) (c.f.lit (1 / 20)))

/-- The Nyquist guard, min(c, 0.49 * SR) (R161). -/
def guardedCutoff (c : Config) (ct : Num) : Num :=
  Num.min (c.f.mul (c.f.lit (49 / 100)) (sampleRate c)) ct

/-- coeffs(F, c, r) (R155). -/
def Flt.coeffs (c : Config) (f : Flt) (ct r : Num) : Flt :=
  let w0 := c.f.div (c.f.mul (twoPi c) (guardedCutoff c ct)) (sampleRate c)
  let cw := c.f.cos w0
  let al := c.f.div (c.f.sin w0) (c.f.mul (.fin 2) (qmap c r))
  let a0 := c.f.add .one al
  { f with
    b0 := c.f.div (c.f.div (c.f.sub .one cw) (.fin 2)) a0,
    b1 := c.f.div (c.f.sub .one cw) a0,
    b2 := c.f.div (c.f.div (c.f.sub .one cw) (.fin 2)) a0,
    a1 := c.f.div (c.f.mul (.fin (-2)) cw) a0,
    a2 := c.f.div (c.f.sub .one al) a0,
    cu := ct,
    ru := r }

/-- Parameter smoothing (R152). -/
def Flt.smooth (c : Config) (f : Flt) (ct rt : Num) : Flt :=
  { f with sc := onePole c (.fin c.k.fltSmoothK) f.sc ct, sr := onePole c (.fin c.k.fltSmoothK) f.sr rt }

/-- The recompute test (R153). -/
def Flt.stale (c : Config) (f : Flt) : Bool :=
  Num.lt .one (Num.abs (c.f.sub f.sc f.cu)) || Num.lt (.fin c.k.resRecalcEps) (Num.abs (c.f.sub f.sr f.ru))

/-- The coefficients a tick runs with: computed at once on the first tick (R162), smoothed and recomputed where stale
after that (R152, R153). -/
def Flt.prepare (c : Config) (f : Flt) (ct rt : Num) : Flt :=
  if f.init then
    let g := f.smooth c ct rt
    if g.stale c then g.coeffs c g.sc g.sr else g
  else { Flt.coeffs c { f with sc := ct, sr := rt } ct rt with init := true }

/-- The biquad's output before the saturator (R156). -/
def Flt.direct (c : Config) (f : Flt) (x : Num) : Num :=
  c.f.sub (c.f.sub (c.f.add (c.f.add (c.f.mul f.b0 x) (c.f.mul f.b1 f.x1)) (c.f.mul f.b2 f.x2))
    (c.f.mul f.a1 f.y1)) (c.f.mul f.a2 f.y2)

/-- The biquad with saturated feedback: its history and its output (R156). -/
def Flt.biquad (c : Config) (f : Flt) (x : Num) : Flt × Num :=
  let y := sat08 c (f.direct c x)
  ({ f with x2 := f.x1, x1 := x, y2 := f.y1, y1 := y }, y)

/-- Resonance gain compensation, y * (1 / (1 + 2 * ru)) (R157). -/
def Flt.compensate (c : Config) (f : Flt) (y : Num) : Num :=
  c.f.mul y (c.f.div .one (c.f.add .one (c.f.mul (.fin 2) f.ru)))

/-- The high-pass coefficient RC / (RC + 1/SR) with RC = 1 / (2*pi*fh) (R158). -/
def hpfCoeff (c : Config) (fh : Num) : Num :=
  let rc := c.f.div .one (c.f.mul (twoPi c) fh)
  c.f.div rc (c.f.add rc (c.f.div .one (sampleRate c)))

/-- The high-pass stage, or the bypass multiplier below 1 Hz (R158). -/
def Flt.highpass (c : Config) (f : Flt) (lp fh : Num) : Flt × Num :=
  if Num.lt fh .one then (f, c.f.mul lp (.fin c.k.hpfBypassMul))
  else
    let out := c.f.mul (hpfCoeff c fh) (c.f.sub (c.f.add f.hy1 lp) f.hx1)
    ({ f with hx1 := lp, hy1 := out }, out)

/-- flt_tick (R159). -/
def Flt.tick (c : Config) (f : Flt) (x ct rt fh : Num) : Flt × Num :=
  let r := (f.prepare c ct rt).biquad c x
  r.1.highpass c (r.1.compensate c r.2) fh

/-- The key-tracking offset kt(fn) in Hz (R160). -/
def keyTrack (c : Config) (p : Params) (fn : Num) : Num :=
  c.f.mul (c.f.mul (c.f.log2 (c.f.div fn (c.f.lit (26163 / 100)))) (.fin 2000)) (p.num .fltKeytrack)

end Sys2Proof.Machine
end

