-- ==== Sys2Proof/Machine/Voice.lean ====
section
/-! DEFINITION. The subtractive voice (45_voice.md). -/

namespace Sys2Proof.Machine

/-- glide_step: the new fCur (R241). -/
def glideStep (c : Config) (p : Params) (v : SubVoice) : Num :=
  let gt := p.num .glideTime
  if p.u .glideEn = 1 ∧ Num.le (c.f.lit (1 / 1000)) gt = true then
    let k := c.f.sub .one (c.f.exp (c.f.div (.fin (-5)) (c.f.mul gt (sampleRate c))))
    onePole c k v.fCur v.fTarget
  else v.fTarget

/-- fCur * detune * 2^(tapPitch / 12) (R242). -/
def voiceFreq (c : Config) (fCur detune tapPitch : Num) : Num :=
  c.f.mul (c.f.mul fCur detune) (c.f.pow (.fin 2) (c.f.div tapPitch (.fin 12)))

/-- The effective pulse width (R243). -/
def effectivePw (c : Config) (p : Params) (tapPw : Num) : Num :=
  Num.clamp (c.f.add (p.num .oscPw) tapPw) (c.f.lit (1 / 100)) (c.f.lit (99 / 100))

/-- The normalised mix of oscillator, sub-oscillator and noise (R243). -/
def voiceMix (c : Config) (p : Params) (o s n : Num) : Num :=
  let ms := p.num .subMix
  let mn := p.num .noiseMix
  c.f.div (c.f.add (c.f.add o (c.f.mul ms s)) (c.f.mul mn n)) (c.f.add (c.f.add .one ms) mn)

/-- The modulated cutoff (R245). -/
def modulatedCutoff (c : Config) (p : Params) (fTarget ef tapFilter : Num) : Num :=
  Num.clamp
    (c.f.add (c.f.add (c.f.add (p.num .fltCutoff) (keyTrack c p fTarget)) (c.f.mul ef (p.num .fltEnvamt)))
      (c.f.mul tapFilter (.fin c.k.lfoFiltHz)))
    (.fin 20) (.fin 20000)

/-- retire (R247). -/
def SubVoice.retire (v : SubVoice) : SubVoice := { v with vstate := .idle, note := none }

/-- retire where the amplitude envelope has become inactive (R246, R247). -/
def SubVoice.settle (v : SubVoice) : SubVoice := if v.aenv.isActive then v else v.retire

/-- voice_tick of a slot that is not IDLE, with this tick's taps and noise value: the slot and its output (R246). -/
def SubVoice.tick (c : Config) (p : Params) (t : Taps) (noise : Num) (v : SubVoice) : SubVoice × Num :=
  let fCur := glideStep c p v
  let f := voiceFreq c fCur v.detune t.pitch
  let o := oscTick c p v.ph f (effectivePw c p t.pw)
  let s := subOscTick c v.phSub f
  let x := voiceMix c p o.2 s.2 noise
  let fenv := v.fenv.tick c (fenvSettings p)
  let aenv := v.aenv.tick c (aenvSettings p)
  let ct := modulatedCutoff c p v.fTarget fenv.level t.filter
  let y := v.flt.tick c x ct (p.num .fltRes) (p.num .fltHpf)
  (SubVoice.settle
    { v with fCur := fCur, ph := o.1, phSub := s.1, fenv := fenv, aenv := aenv, flt := y.1 },
   c.f.mul aenv.level y.2)

/-- voice_trigger (R248), with the stamp of R281. -/
def SubVoice.trigger (v : SubVoice) (n : Fin 128) (fr d : Num) (k : Fin 8) (stamp : Age) : SubVoice :=
  { v with
    note := some n,
    uidx := k,
    detune := d,
    fTarget := fr,
    fCur := if v.fCur.isZero then fr else v.fCur,
    aenv := v.aenv.gateOn,
    fenv := v.fenv.gateOn,
    vstate := .active,
    age := stamp }

/-- voice_release (R249). -/
def SubVoice.release (v : SubVoice) : SubVoice :=
  if v.vstate = .active then
    { v with aenv := v.aenv.gateOff, fenv := v.fenv.gateOff, vstate := .releasing }
  else v

end Sys2Proof.Machine
end

