-- ==== Sys2Proof/Machine/Pool.lean ====
section
/-! DEFINITION. The voice pools (47_voice_pool.md): allocation, stealing, unison, note-off, mixing and auto-gain. -/

namespace Sys2Proof.Machine

/-- The slot a note-on retriggers in place: not IDLE, with this note and unison index (R282). -/
def subSounding (pool : Vector SubVoice 12) (n : Fin 128) (k : Fin 8) : Option (Fin 12) :=
  slots.find? fun i => pool[i].vstate ≠ .idle && pool[i].note = some n && pool[i].uidx = k

/-- free_slot (R283). -/
def subFree (pool : Vector SubVoice 12) : Option (Fin 12) :=
  slots.find? fun i => pool[i].vstate = .idle

/-- The one of a slot and a list of slots with the smallest age, the first of equals. -/
def oldestFrom (age : Fin 12 → Age) : Fin 12 → List (Fin 12) → Fin 12
  | i, [] => i
  | i, j :: js => oldestFrom age (if age j < age i then j else i) js

/-- The slot with the smallest age among a list of slots; slot 0 for the empty list, which no note-on meets. -/
def oldest (age : Fin 12 → Age) : List (Fin 12) → Fin 12
  | [] => 0
  | i :: is => oldestFrom age i is

/-- steal_slot(taken) (R284). -/
def stealSlot (pool : Vector SubVoice 12) (taken : List (Fin 12)) : Fin 12 :=
  oldest (fun i => pool[i].age) (slots.filter fun i => !taken.contains i)

/-- The slot a subtractive note-on takes for one unison voice (R282). -/
def subSlotFor (pool : Vector SubVoice 12) (taken : List (Fin 12)) (n : Fin 128) (k : Fin 8) : Fin 12 :=
  match subSounding pool n k with
  | some i => i
  | none =>
    match subFree pool with
    | some i => i
    | none => stealSlot pool taken

/-- Unison voices of a note-on: UNISON_N with unison on, else 1 (R282). -/
def unisonCount (p : Params) : Nat := if p.u .unisonEn = 1 then (p.u .unisonN).toNat else 1

/-- The spread Dc in cents: UNISON_SPREAD with unison on, else 0 (R282). -/
def unisonSpread (p : Params) : Num := if p.u .unisonEn = 1 then p.num .unisonSpread else .zero

/-- The unison indexes of a note-on of n voices, in increasing order, at most UNISON_MAX = 8 of them (R7, R282). -/
def unisonIdxs (n : Nat) : List (Fin 8) := [0, 1, 2, 3, 4, 5, 6, 7].take n

/-- The detune offset in cents of voice k of n with spread dc: -dc + 2 * dc * k / (n - 1) (R285). -/
def unisonCents (c : Config) (n : Nat) (dc : Num) (k : Fin 8) : Num :=
  if n = 1 then .zero
  else c.f.add dc.neg (c.f.div (c.f.mul (c.f.mul (.fin 2) dc) (.nat k.val)) (.nat (n - 1)))

/-- 2^(cents / 1200) (R285). -/
def detuneRatio (c : Config) (cents : Num) : Num := c.f.pow (.fin 2) (c.f.div cents (.fin 1200))

/-- What a note-on threads through its unison voices: the pool, the age counter and the slots taken so far. -/
structure NoteOn where
  pool  : Vector SubVoice 12
  g     : Age
  taken : List (Fin 12)
  deriving DecidableEq, Repr

/-- One unison voice of a note-on: pick the slot, trigger it, stamp it, mark it taken (R281, R282). -/
def noteOnVoice (c : Config) (p : Params) (n : Fin 128) (fr : Num) (a : NoteOn) (k : Fin 8) : NoteOn :=
  let i := subSlotFor a.pool a.taken n k
  let d := detuneRatio c (unisonCents c (unisonCount p) (unisonSpread p) k)
  { pool := a.pool.set i (a.pool[i].trigger n fr d k a.g), g := a.g + 1, taken := i :: a.taken }

/-- sub_note_on(n, fr): the pool and the counter after it (R282). -/
def subNoteOn (c : Config) (p : Params) (n : Fin 128) (fr : Num) (x : SubPath) : SubPath :=
  let a := (unisonIdxs (unisonCount p)).foldl (noteOnVoice c p n fr) { pool := x.pool, g := x.gS, taken := [] }
  { x with pool := a.pool, gS := a.g }

/-- Release the slots of a list that hold a condition, in slot order. -/
def releaseSub (cond : SubVoice → Bool) (pool : Vector SubVoice 12) : List (Fin 12) → Vector SubVoice 12
  | [] => pool
  | i :: is => releaseSub cond (if cond pool[i] then pool.set i pool[i].release else pool) is

/-- sub_note_off(n) (R287). -/
def subNoteOff (n : Fin 128) (x : SubPath) : SubPath :=
  { x with pool := releaseSub (fun v => v.note = some n && v.vstate = .active) x.pool slots }

/-- The subtractive half of all_notes_off (R288). -/
def subAllOff (x : SubPath) : SubPath := { x with pool := releaseSub (fun _ => true) x.pool slots }

/-- The electric-piano slot a note-on retriggers in place: not IDLE, with this note (R289). -/
def epSounding (pool : Vector EpVoice 12) (n : Fin 128) : Option (Fin 12) :=
  slots.find? fun i => pool[i].vstate ≠ .idle && pool[i].note = some n

/-- The lowest-index IDLE electric-piano slot (R289). -/
def epFree (pool : Vector EpVoice 12) : Option (Fin 12) :=
  slots.find? fun i => pool[i].vstate = .idle

/-- The slot an electric-piano note-on takes (R289). -/
def epSlotFor (pool : Vector EpVoice 12) (n : Fin 128) : Fin 12 :=
  match epSounding pool n with
  | some i => i
  | none =>
    match epFree pool with
    | some i => i
    | none => oldest (fun i => pool[i].age) slots

/-- ep_note_on(n, fr, v) (R289). -/
def epNoteOn (c : Config) (n : Fin 128) (fr v : Num) (x : EpPath) : EpPath :=
  let i := epSlotFor x.pool n
  { x with pool := x.pool.set i (x.pool[i].trigger c n fr v x.gE), gE := x.gE + 1 }

/-- Release the electric-piano slots of a list that hold a condition, in slot order. -/
def releaseEp (cond : EpVoice → Bool) (pool : Vector EpVoice 12) : List (Fin 12) → Vector EpVoice 12
  | [] => pool
  | i :: is => releaseEp cond (if cond pool[i] then pool.set i pool[i].release else pool) is

/-- ep_note_off(n) (R289). -/
def epNoteOff (n : Fin 128) (x : EpPath) : EpPath :=
  { x with pool := releaseEp (fun w => w.note = some n && w.vstate = .active) x.pool slots }

/-- The electric-piano half of all_notes_off (R288). -/
def epAllOff (x : EpPath) : EpPath := { x with pool := releaseEp (fun _ => true) x.pool slots }

/-- ag_step: the new gain (R290). -/
def agStep (c : Config) (g : Num) (cnt : Nat) : Num :=
  let target := if cnt = 0 then .one else c.f.div .one (c.f.sqrt (.nat cnt))
  c.f.add (c.f.mul (c.f.lit (9995 / 10000)) g) (c.f.mul (c.f.lit (5 / 10000)) target)

/-- What mixing threads through the subtractive slots: the pool, the sum so far and the noise values drawn so far. -/
structure SubMix where
  pool  : Vector SubVoice 12
  sum   : Num
  draws : Nat
  deriving DecidableEq, Repr

/-- One slot's part of the mix: an IDLE slot gives 0, changes nothing and draws nothing (R246, R292). -/
def mixSubSlot (c : Config) (p : Params) (t : Taps) (a : SubMix) (i : Fin 12) : SubMix :=
  if a.pool[i].vstate = .idle then { a with sum := c.f.add a.sum .zero }
  else
    let r := a.pool[i].tick c p t (c.noise a.draws)
    { pool := a.pool.set i r.1, sum := c.f.add a.sum r.2, draws := a.draws + 1 }

/-- The voice ticks of the subtractive pool in slot order (R292). -/
def mixSub (c : Config) (p : Params) (t : Taps) (pool : Vector SubVoice 12) (draws : Nat) : SubMix :=
  slots.foldl (mixSubSlot c p t) { pool := pool, sum := .zero, draws := draws }

/-- What mixing threads through the electric-piano slots. -/
structure EpMix where
  pool  : Vector EpVoice 12
  sum   : Num
  draws : Nat
  deriving DecidableEq, Repr

/-- One electric-piano slot's part of the mix (R268, R292). -/
def mixEpSlot (c : Config) (a : EpMix) (i : Fin 12) : EpMix :=
  if a.pool[i].vstate = .idle then { a with sum := c.f.add a.sum .zero }
  else
    let r := a.pool[i].tick c (c.noise a.draws)
    { pool := a.pool.set i r.1, sum := c.f.add a.sum r.2, draws := a.draws + 1 }

/-- The voice ticks of the electric-piano pool in slot order (R292). -/
def mixEp (c : Config) (pool : Vector EpVoice 12) (draws : Nat) : EpMix :=
  slots.foldl (mixEpSlot c) { pool := pool, sum := .zero, draws := draws }

end Sys2Proof.Machine
end

