-- ==== Sys2Proof/Machine/Notes.lean ====
section
/-! DEFINITION. NOP and the note commands (49_commands.md R311 to R314). -/

namespace Sys2Proof.Machine

/-- NOP (R311). -/
def execNop (s : State) : Host.Outcome State Fault Refusal := .next s

/-- The note-on of the selected path, once its operands are in range (R312). The age counter that would wrap has no
defined behaviour (R281). -/
def noteOnPath (c : Config) (n : Fin 128) (fr v : Num) (s : State) : Host.Outcome State Fault Refusal :=
  if s.params.isSub then
    if stampsFit s.sub.gS (unisonIdxs (unisonCount s.params)).length then
      .next { s with sub := subNoteOn c s.params n fr s.sub }
    else .fault .ageCounterWrap
  else
    if stampsFit s.ep.gE 1 then .next { s with ep := epNoteOn c n fr v s.ep }
    else .fault .ageCounterWrap

/-- NOTE_ON (R312): ignored for a note above 127 or a NaN frequency. -/
def execNoteOn (note vel : Byte) (val : Word) (s : State) : Host.Outcome State Fault Refusal :=
  match noteOperand note, freqOperand Config.chip val with
  | some n, some fr => noteOnPath Config.chip n fr (velOperand Config.chip vel) s
  | _, _ => ignore s

/-- NOTE_OFF (R313): ignored for a note above 127. -/
def execNoteOff (note : Byte) (s : State) : Host.Outcome State Fault Refusal :=
  match noteOperand note with
  | some n =>
    if s.params.isSub then .next { s with sub := subNoteOff n s.sub }
    else .next { s with ep := epNoteOff n s.ep }
  | none => ignore s

/-- ALL_NOTES_OFF (R314). -/
def execAllNotesOff (s : State) : Host.Outcome State Fault Refusal :=
  .next { s with sub := subAllOff s.sub, ep := epAllOff s.ep }

end Sys2Proof.Machine
end

