-- ==== Sys2Proof/Machine/Platform.lean ====
section
/-! DEFINITION. The platform commands (60_exceptions.md R407, R408). -/

namespace Sys2Proof.Machine

/-- DEVICE_CHANGED (R407): sets the flag, and is ignored while a restart is in flight. -/
def execDeviceChanged (s : State) : Host.Outcome State Fault Refusal :=
  if s.restartPending then ignore s else .next { s with restartInFlight := true }

/-- RESTART_DONE (R408). -/
def execRestartDone (s : State) : Host.Outcome State Fault Refusal := .next { s with restartInFlight := false }

end Sys2Proof.Machine
end

