-- ==== Sys2Proof/Machine/Render.lean ====
section
/-! DEFINITION. The per-tick pipeline, the output stage and RENDER (48_render.md). -/

namespace Sys2Proof.Machine

/-- What a tick of the subtractive path gives: the path, the noise values drawn so far, and the output pair. -/
structure SubOut where
  path  : SubPath
  draws : Nat
  yL    : Num
  yR    : Num
  deriving DecidableEq, Repr

/-- What a tick of the electric-piano path gives. -/
structure EpOut where
  path  : EpPath
  draws : Nat
  yL    : Num
  yR    : Num
  deriving DecidableEq, Repr

/-- sub_tick (R372) on the path and the count of noise values drawn. -/
def SubPath.tick (c : Config) (p : Params) (draws : Nat) (x : SubPath) : SubOut :=
  let lfo := lfoTick c p x.lfoTheta
  let m := mixSub c p (lfoTaps c p lfo.2) x.pool draws
  let g := agStep c x.ag (subCount x.pool)
  let ch := x.chorus.tick c (sat08 c (c.f.mul g m.sum)) (p.u .chorusSMode)
  let tr := x.trem.tick c p
  let dl := x.delay.tick c p (c.f.mul tr.2 ch.2.1) (c.f.mul tr.2 ch.2.2)
  let rv := x.reverb.tick c p dl.2.1 dl.2.2
  let bb := x.shelf.tick c rv.2.1 rv.2.2
  { path :=
      { pool := m.pool, gS := x.gS, lfoTheta := lfo.1, ag := g, chorus := ch.1, trem := tr.1, delay := dl.1,
        reverb := rv.1, shelf := bb.1 },
    draws := m.draws,
    yL := c.f.mul (p.num .masterVol) bb.2.1,
    yR := c.f.mul (p.num .masterVol) bb.2.2 }

/-- ep_tick_path (R373) on the path and the count of noise values drawn. -/
def EpPath.tick (c : Config) (p : Params) (draws : Nat) (x : EpPath) : EpOut :=
  let m := mixEp c x.pool draws
  let g := agStep c x.ag (epCount x.pool)
  let tr := x.trem.tick c p
  let ch := x.chorus.tick c (c.f.mul tr.2 (c.f.mul g m.sum)) (p.u .chorusEMode)
  let dl := x.delay.tick c p ch.2.1 ch.2.2
  let rv := x.reverb.tick c p dl.2.1 dl.2.2
  { path := { pool := m.pool, gE := x.gE, ag := g, trem := tr.1, chorus := ch.1, delay := dl.1, reverb := rv.1 },
    draws := m.draws,
    yL := c.f.mul (p.num .epVol) rv.2.1,
    yR := c.f.mul (p.num .epVol) rv.2.2 }

/-- A tick's path output with the state after it. -/
structure PathOut where
  st : State
  yL : Num
  yR : Num
  deriving DecidableEq, Repr

/-- sub_tick (R372): it writes the subtractive path and nothing else. -/
def State.subTick (c : Config) (s : State) : PathOut :=
  let o := s.sub.tick c s.params s.noiseCount
  { st := { s with sub := o.path, noiseCount := o.draws }, yL := o.yL, yR := o.yR }

/-- ep_tick_path (R373): it writes the electric-piano path and nothing else. -/
def State.epTick (c : Config) (s : State) : PathOut :=
  let o := s.ep.tick c s.params s.noiseCount
  { st := { s with ep := o.path, noiseCount := o.draws }, yL := o.yL, yR := o.yR }

/-- The selected path's tick; MODE is read once (R371, R375). -/
def State.pathTick (c : Config) (s : State) : PathOut :=
  if s.params.isSub then s.subTick c else s.epTick c

/-- clip(OUT_GAIN * y + e) (R376). -/
def outSample (c : Config) (y e : Num) : Num :=
  Num.clamp (c.f.add (c.f.mul (.fin c.k.outGain) y) e) (.fin (-1)) .one

/-- The word of an output sample: rounded to binary32, a zero keeping its sign; for a NaN the free word (R378). -/
def outWord (c : Config) (n : Nat) (v : Num) : Word :=
  match v with
  | .fin q => F32.ofRat q
  | .negZero => F32.negZeroWord
  | .inf neg => if neg then 0xBF800000 else 0x3F800000
  | .nan => c.nanWord n

/-- A tick's stereo frame with the state after it. -/
structure FrameOut where
  st : State
  l  : Word
  r  : Word
  deriving DecidableEq, Repr

/-- tick() (R371), with the SYN_OUT tap (R377). -/
def State.tick (c : Config) (s : State) : FrameOut :=
  let o := s.pathTick c
  let e := c.extIn s.tickCount
  { st := { o.st with io := { o.st.io with synOut := some (o.yL, o.yR) }, tickCount := s.tickCount + 1 },
    l := outWord c (2 * s.tickCount) (outSample c o.yL e.1),
    r := outWord c (2 * s.tickCount + 1) (outSample c o.yR e.2) }

/-- The two words of frame n at base + 8*n (R75). -/
def Memory.writeFrame (m : Memory) (base n : Nat) (l r : Word) : Memory :=
  Memory.write32 (Memory.write32 m (base + 8 * n) l) (base + 8 * n + 4) r

/-- What is left of a render after its next frame: none, and CONTINUE returned, after the last (R370, R379). -/
def Ports.afterFrame (x : Ports) (j : Job) : Ports :=
  if j.next + 1 < j.frames then { x with job := some { j with next := j.next + 1 } }
  else { x with job := none, result := some .continue }

/-- One tick of a render with its two writes, one atomic action (R80, R370). -/
def State.renderFrame (c : Config) (j : Job) (s : State) : State :=
  let o := s.tick c
  { o.st with mem := Memory.writeFrame o.st.mem j.base j.next o.l o.r, io := o.st.io.afterFrame j }

/-- The caller's guarantee on a buffer (R74, R77). -/
def OutBuf.holds (b : OutBuf) (frames : Nat) : Bool :=
  decide (b.base % 4 = 0) && decide (8 * frames ≤ b.room)

/-- RENDER (R370, R380): its first tick runs at once, and the audio port's next turns run the rest, since each tick is
an action of its own between which the other ports' commands may fall (R80). With no frames it returns at once. -/
def execRender (frames : Word) (s : State) : Host.Outcome State Fault Refusal :=
  if s.io.buf.holds frames.toNat = false then .fault .renderBufferInvalid
  else if frames.toNat = 0 then .next { s with io := { s.io with result := some .continue } }
  else .next (s.renderFrame Config.chip { base := s.io.buf.base, frames := frames.toNat, next := 0 })

end Sys2Proof.Machine
end

