-- ==== Sys2Proof/Machine/Sets.lean ====
section
/-! DEFINITION. The 38 parameter writes (49_commands.md R315 to R353). Each stores what its register's row of
10_state.md R23 says (regKind) and touches nothing else. -/

namespace Sys2Proof.Machine

/-- SET.OSC_WAVES (R316). -/
def execSetOscWaves (val : Word) (s : State) : Host.Outcome State Fault Refusal := writeReg .oscWaves val s

/-- SET.OSC_PW (R317). -/
def execSetOscPw (val : Word) (s : State) : Host.Outcome State Fault Refusal := writeReg .oscPw val s

/-- SET.SUB_MIX (R318). -/
def execSetSubMix (val : Word) (s : State) : Host.Outcome State Fault Refusal := writeReg .subMix val s

/-- SET.NOISE_MIX (R319). -/
def execSetNoiseMix (val : Word) (s : State) : Host.Outcome State Fault Refusal := writeReg .noiseMix val s

/-- SET.FLT_CUTOFF (R320). -/
def execSetFltCutoff (val : Word) (s : State) : Host.Outcome State Fault Refusal := writeReg .fltCutoff val s

/-- SET.FLT_RES (R321). -/
def execSetFltRes (val : Word) (s : State) : Host.Outcome State Fault Refusal := writeReg .fltRes val s

/-- SET.FLT_HPF (R322). -/
def execSetFltHpf (val : Word) (s : State) : Host.Outcome State Fault Refusal := writeReg .fltHpf val s

/-- SET.FLT_KEYTRACK (R323). -/
def execSetFltKeytrack (val : Word) (s : State) : Host.Outcome State Fault Refusal := writeReg .fltKeytrack val s

/-- SET.FLT_ENVAMT (R324). -/
def execSetFltEnvamt (val : Word) (s : State) : Host.Outcome State Fault Refusal := writeReg .fltEnvamt val s

/-- SET.AENV_A (R325). -/
def execSetAenvA (val : Word) (s : State) : Host.Outcome State Fault Refusal := writeReg .aenvA val s

/-- SET.AENV_D (R326). -/
def execSetAenvD (val : Word) (s : State) : Host.Outcome State Fault Refusal := writeReg .aenvD val s

/-- SET.AENV_S (R327). -/
def execSetAenvS (val : Word) (s : State) : Host.Outcome State Fault Refusal := writeReg .aenvS val s

/-- SET.AENV_R (R328). -/
def execSetAenvR (val : Word) (s : State) : Host.Outcome State Fault Refusal := writeReg .aenvR val s

/-- SET.FENV_A (R329). -/
def execSetFenvA (val : Word) (s : State) : Host.Outcome State Fault Refusal := writeReg .fenvA val s

/-- SET.FENV_D (R330). -/
def execSetFenvD (val : Word) (s : State) : Host.Outcome State Fault Refusal := writeReg .fenvD val s

/-- SET.FENV_S (R331). -/
def execSetFenvS (val : Word) (s : State) : Host.Outcome State Fault Refusal := writeReg .fenvS val s

/-- SET.FENV_R (R332). -/
def execSetFenvR (val : Word) (s : State) : Host.Outcome State Fault Refusal := writeReg .fenvR val s

/-- SET.LFO_RATE (R333). -/
def execSetLfoRate (val : Word) (s : State) : Host.Outcome State Fault Refusal := writeReg .lfoRate val s

/-- SET.LFO_DEPTH (R334). -/
def execSetLfoDepth (val : Word) (s : State) : Host.Outcome State Fault Refusal := writeReg .lfoDepth val s

/-- SET.LFO_ROUTE (R335). -/
def execSetLfoRoute (val : Word) (s : State) : Host.Outcome State Fault Refusal := writeReg .lfoRoute val s

/-- SET.CHORUS_S_MODE (R336). -/
def execSetChorusSMode (val : Word) (s : State) : Host.Outcome State Fault Refusal := writeReg .chorusSMode val s

/-- SET.GLIDE_EN (R337). -/
def execSetGlideEn (val : Word) (s : State) : Host.Outcome State Fault Refusal := writeReg .glideEn val s

/-- SET.GLIDE_TIME (R338). -/
def execSetGlideTime (val : Word) (s : State) : Host.Outcome State Fault Refusal := writeReg .glideTime val s

/-- SET.UNISON_EN (R339). -/
def execSetUnisonEn (val : Word) (s : State) : Host.Outcome State Fault Refusal := writeReg .unisonEn val s

/-- SET.UNISON_N (R340). -/
def execSetUnisonN (val : Word) (s : State) : Host.Outcome State Fault Refusal := writeReg .unisonN val s

/-- SET.UNISON_SPREAD (R341). -/
def execSetUnisonSpread (val : Word) (s : State) : Host.Outcome State Fault Refusal := writeReg .unisonSpread val s

/-- SET.TREM_RATE (R342). -/
def execSetTremRate (val : Word) (s : State) : Host.Outcome State Fault Refusal := writeReg .tremRate val s

/-- SET.TREM_DEPTH (R343). -/
def execSetTremDepth (val : Word) (s : State) : Host.Outcome State Fault Refusal := writeReg .tremDepth val s

/-- SET.CHORUS_E_MODE (R344). -/
def execSetChorusEMode (val : Word) (s : State) : Host.Outcome State Fault Refusal := writeReg .chorusEMode val s

/-- SET.DLY_TIME (R345). -/
def execSetDlyTime (val : Word) (s : State) : Host.Outcome State Fault Refusal := writeReg .dlyTime val s

/-- SET.DLY_FB (R346). -/
def execSetDlyFb (val : Word) (s : State) : Host.Outcome State Fault Refusal := writeReg .dlyFb val s

/-- SET.DLY_MIX (R347). -/
def execSetDlyMix (val : Word) (s : State) : Host.Outcome State Fault Refusal := writeReg .dlyMix val s

/-- SET.REV_SIZE (R348). -/
def execSetRevSize (val : Word) (s : State) : Host.Outcome State Fault Refusal := writeReg .revSize val s

/-- SET.REV_DAMP (R349). -/
def execSetRevDamp (val : Word) (s : State) : Host.Outcome State Fault Refusal := writeReg .revDamp val s

/-- SET.REV_MIX (R350). -/
def execSetRevMix (val : Word) (s : State) : Host.Outcome State Fault Refusal := writeReg .revMix val s

/-- SET.EP_VOL (R351). -/
def execSetEpVol (val : Word) (s : State) : Host.Outcome State Fault Refusal := writeReg .epVol val s

/-- SET.MODE (R352). -/
def execSetMode (val : Word) (s : State) : Host.Outcome State Fault Refusal := writeReg .mode val s

/-- SET.MASTER_VOL (R353). -/
def execSetMasterVol (val : Word) (s : State) : Host.Outcome State Fault Refusal := writeReg .masterVol val s

end Sys2Proof.Machine
end

