-- ==== Sys2Proof/Machine/Dispatch.lean ====
section
/-! DEFINITION. One arm per instruction. -/

namespace Sys2Proof.Machine

def exec (i : Instr) (s : State) : Host.Outcome State Fault Refusal :=
  match i with
  | .nop => Sys2Proof.Machine.execNop s
  | .noteOn note vel val => Sys2Proof.Machine.execNoteOn note vel val s
  | .noteOff note => Sys2Proof.Machine.execNoteOff note s
  | .allNotesOff => Sys2Proof.Machine.execAllNotesOff s
  | .setOscWaves val => Sys2Proof.Machine.execSetOscWaves val s
  | .setOscPw val => Sys2Proof.Machine.execSetOscPw val s
  | .setSubMix val => Sys2Proof.Machine.execSetSubMix val s
  | .setNoiseMix val => Sys2Proof.Machine.execSetNoiseMix val s
  | .setFltCutoff val => Sys2Proof.Machine.execSetFltCutoff val s
  | .setFltRes val => Sys2Proof.Machine.execSetFltRes val s
  | .setFltHpf val => Sys2Proof.Machine.execSetFltHpf val s
  | .setFltKeytrack val => Sys2Proof.Machine.execSetFltKeytrack val s
  | .setFltEnvamt val => Sys2Proof.Machine.execSetFltEnvamt val s
  | .setAenvA val => Sys2Proof.Machine.execSetAenvA val s
  | .setAenvD val => Sys2Proof.Machine.execSetAenvD val s
  | .setAenvS val => Sys2Proof.Machine.execSetAenvS val s
  | .setAenvR val => Sys2Proof.Machine.execSetAenvR val s
  | .setFenvA val => Sys2Proof.Machine.execSetFenvA val s
  | .setFenvD val => Sys2Proof.Machine.execSetFenvD val s
  | .setFenvS val => Sys2Proof.Machine.execSetFenvS val s
  | .setFenvR val => Sys2Proof.Machine.execSetFenvR val s
  | .setLfoRate val => Sys2Proof.Machine.execSetLfoRate val s
  | .setLfoDepth val => Sys2Proof.Machine.execSetLfoDepth val s
  | .setLfoRoute val => Sys2Proof.Machine.execSetLfoRoute val s
  | .setChorusSMode val => Sys2Proof.Machine.execSetChorusSMode val s
  | .setGlideEn val => Sys2Proof.Machine.execSetGlideEn val s
  | .setGlideTime val => Sys2Proof.Machine.execSetGlideTime val s
  | .setUnisonEn val => Sys2Proof.Machine.execSetUnisonEn val s
  | .setUnisonN val => Sys2Proof.Machine.execSetUnisonN val s
  | .setUnisonSpread val => Sys2Proof.Machine.execSetUnisonSpread val s
  | .setTremRate val => Sys2Proof.Machine.execSetTremRate val s
  | .setTremDepth val => Sys2Proof.Machine.execSetTremDepth val s
  | .setChorusEMode val => Sys2Proof.Machine.execSetChorusEMode val s
  | .setDlyTime val => Sys2Proof.Machine.execSetDlyTime val s
  | .setDlyFb val => Sys2Proof.Machine.execSetDlyFb val s
  | .setDlyMix val => Sys2Proof.Machine.execSetDlyMix val s
  | .setRevSize val => Sys2Proof.Machine.execSetRevSize val s
  | .setRevDamp val => Sys2Proof.Machine.execSetRevDamp val s
  | .setRevMix val => Sys2Proof.Machine.execSetRevMix val s
  | .setEpVol val => Sys2Proof.Machine.execSetEpVol val s
  | .setMode val => Sys2Proof.Machine.execSetMode val s
  | .setMasterVol val => Sys2Proof.Machine.execSetMasterVol val s
  | .render frames => Sys2Proof.Machine.execRender frames s
  | .deviceChanged => Sys2Proof.Machine.execDeviceChanged s
  | .restartDone => Sys2Proof.Machine.execRestartDone s

end Sys2Proof.Machine
end

