-- ==== Sys2Proof/Machine/Fetch.lean ====
section
/-! DEFINITION. Whose turn it is and what the port gives (20_memory.md R71, R80), and putting a word where the next
step takes it. -/

namespace Sys2Proof.Machine

/-- What a step has to do. -/
inductive Action where
  /-- Nothing: no agent has a turn, or the port whose turn it is has no word (R414). -/
  | rest (s : State)
  /-- The next tick of the render in progress (R80). -/
  | frame (j : Job) (s : State)
  /-- A word received on a port, taken off the port (R21). -/
  | command (p : Port) (w : Cmd) (s : State)
  deriving DecidableEq, Repr

/-- The turn of a port: the control and platform ports give their oldest word; the audio port first finishes the render
in progress, then gives its oldest word with its buffer (R80). -/
def portTurn (p : Port) (s : State) : Action :=
  match p with
  | .ctrl =>
    match s.io.ctrlIn with
    | [] => .rest s
    | w :: ws => .command .ctrl w { s with io := { s.io with ctrlIn := ws } }
  | .plat =>
    match s.io.platIn with
    | [] => .rest s
    | w :: ws => .command .plat w { s with io := { s.io with platIn := ws } }
  | .audio =>
    match s.io.job with
    | some j => .frame j s
    | none =>
      match s.io.audioIn with
      | [] => .rest s
      | a :: as => .command .audio a.word { s with io := { s.io with audioIn := as, buf := a.buf } }

/-- The next turn. -/
def nextAction (s : State) : Action :=
  match s.io.turns with
  | [] => .rest s
  | p :: ps => portTurn p { s with io := { s.io with turns := ps } }

/-- A buffer valid for every frame count (R74, R77). -/
def roomyBuf : OutBuf := { base := 0, room := 2 ^ 35 }

/-- The state with a word as the next one a port gives, and the next turn that port's. On the audio port no render is
in progress, and the word comes with a buffer valid for any frame count. -/
def placeWord (s : State) (p : Port) (w : Cmd) : State :=
  match p with
  | .ctrl => { s with io := { s.io with turns := .ctrl :: s.io.turns, ctrlIn := w :: s.io.ctrlIn } }
  | .plat => { s with io := { s.io with turns := .plat :: s.io.turns, platIn := w :: s.io.platIn } }
  | .audio =>
    { s with io := { s.io with
        turns := .audio :: s.io.turns, job := none, audioIn := { word := w, buf := roomyBuf } :: s.io.audioIn } }

end Sys2Proof.Machine
end

