-- ==== Sys2Proof/Machine/Step.lean ====
section
/-! DEFINITION. One step: one atomic action of the block's history (20_memory.md R80), or rest. -/

namespace Sys2Proof.Machine

/-- One step. A word that is no instruction on its port is refused by name (R109, R401; log 6). -/
def step (s : State) : Host.Outcome State Fault Refusal :=
  match nextAction s with
  | .rest s' => .next s'
  | .frame j s' => .next (s'.renderFrame Config.chip j)
  | .command p w s' =>
    match decode p w with
    | .ok i => exec i s'
    | .error e => .refused (.undecodable e)

/-- s with a word of the opcode table where step takes its next word (log 8). -/
def State.withFetchWord (s : State) (nbits w : Nat) : State :=
  placeWord s (homePort (tableCmd nbits w)) (tableCmd nbits w)

end Sys2Proof.Machine
end

