-- ==== Sys2Proof/Safety.lean ====
section
/-! DEFINITION. What claims mean by a sound state and by a step that goes on. -/

namespace Sys2Proof.Machine

/-- The step went on: no fault and no refusal. -/
def goesOn (o : Host.Outcome State Fault Refusal) : Prop := ∃ t, o = .next t

/-- The next state, where there is one. -/
def after (o : Host.Outcome State Fault Refusal) : Option State :=
  match o with
  | .next t => some t
  | _ => none

/-- The SET of each register (R108): one instruction per register. -/
def setInstr : Reg → Word → Instr
  | .oscWaves => .setOscWaves
  | .oscPw => .setOscPw
  | .subMix => .setSubMix
  | .noiseMix => .setNoiseMix
  | .fltCutoff => .setFltCutoff
  | .fltRes => .setFltRes
  | .fltHpf => .setFltHpf
  | .fltKeytrack => .setFltKeytrack
  | .fltEnvamt => .setFltEnvamt
  | .aenvA => .setAenvA
  | .aenvD => .setAenvD
  | .aenvS => .setAenvS
  | .aenvR => .setAenvR
  | .fenvA => .setFenvA
  | .fenvD => .setFenvD
  | .fenvS => .setFenvS
  | .fenvR => .setFenvR
  | .lfoRate => .setLfoRate
  | .lfoDepth => .setLfoDepth
  | .lfoRoute => .setLfoRoute
  | .chorusSMode => .setChorusSMode
  | .glideEn => .setGlideEn
  | .glideTime => .setGlideTime
  | .unisonEn => .setUnisonEn
  | .unisonN => .setUnisonN
  | .unisonSpread => .setUnisonSpread
  | .tremRate => .setTremRate
  | .tremDepth => .setTremDepth
  | .chorusEMode => .setChorusEMode
  | .dlyTime => .setDlyTime
  | .dlyFb => .setDlyFb
  | .dlyMix => .setDlyMix
  | .revSize => .setRevSize
  | .revDamp => .setRevDamp
  | .revMix => .setRevMix
  | .epVol => .setEpVol
  | .mode => .setMode
  | .masterVol => .setMasterVol

/-- A line of length n with write index w: canonical, no element past its end, and the index inside (R73, R78). -/
structure Line.Fits (n w : Nat) (l : Line) : Prop where
  canonical : Line.wf l = true
  inside    : ∀ e ∈ l, e.1 < n
  index     : w < n

/-- A chorus unit whose line has the length of R87. -/
structure Chorus.Fits (k : Constants) (u : Chorus) : Prop where
  buf : Line.Fits k.chN u.w u.buf

/-- A delay unit whose lines have the length of R87. -/
structure Delay.Fits (k : Constants) (u : Delay) : Prop where
  bufL : Line.Fits k.dlN u.w u.bufL
  bufR : Line.Fits k.dlN u.w u.bufR

/-- A reverb channel whose lines have the lengths of R87 and R214. -/
structure RevChannel.Fits (k : Constants) (channel : Nat) (x : RevChannel) : Prop where
  comb : ∀ j : Fin 4, Line.Fits (k.combN channel j) x.comb[j].ci x.comb[j].buf
  ap   : ∀ j : Fin 2, Line.Fits (k.apN channel j) x.ap[j].ai x.ap[j].buf

/-- A reverb unit whose lines have the lengths of R87 and R214. -/
structure Reverb.Fits (k : Constants) (u : Reverb) : Prop where
  left  : RevChannel.Fits k 0 u.left
  right : RevChannel.Fits k 1 u.right

/-- A subtractive slot sounds: it is not IDLE (R29). -/
abbrev SubVoice.Sounds (v : SubVoice) : Prop := v.vstate ≠ .idle

/-- An electric-piano slot sounds (R29, R33). -/
abbrev EpVoice.Sounds (w : EpVoice) : Prop := w.vstate ≠ .idle

/-- The subtractive pool is sound (R29, R281, R293). -/
structure SubPool.Sound (pool : Vector SubVoice 12) (g : Age) : Prop where
  /-- R29, R293 (c). -/
  free  : ∀ i : Fin 12, pool[i].vstate = .idle ↔ pool[i].note = none
  /-- R293 (a). -/
  pairs : ∀ i j : Fin 12, pool[i].Sounds → pool[j].Sounds →
    pool[i].note = pool[j].note → pool[i].uidx = pool[j].uidx → i = j
  /-- Every stamp in use was taken from the counter (R281). -/
  below : ∀ i : Fin 12, pool[i].Sounds → pool[i].age < g
  /-- Stamps are distinct (R281). -/
  ages  : ∀ i j : Fin 12, pool[i].Sounds → pool[j].Sounds → pool[i].age = pool[j].age → i = j

/-- The electric-piano pool is sound (R29, R281, R293). -/
structure EpPool.Sound (pool : Vector EpVoice 12) (g : Age) : Prop where
  /-- R29, R293 (c). -/
  free  : ∀ i : Fin 12, pool[i].vstate = .idle ↔ pool[i].note = none
  /-- R293 (b). -/
  notes : ∀ i j : Fin 12, pool[i].Sounds → pool[j].Sounds → pool[i].note = pool[j].note → i = j
  /-- Every stamp in use was taken from the counter (R281). -/
  below : ∀ i : Fin 12, pool[i].Sounds → pool[i].age < g
  /-- Stamps are distinct (R281). -/
  ages  : ∀ i j : Fin 12, pool[i].Sounds → pool[j].Sounds → pool[i].age = pool[j].age → i = j

/-- Every register holds a legal value (R22, R23). -/
def Params.Legal (p : Params) : Prop := ∀ r, legalWord (regKind r) (p.u r) = true

/-- A render in progress has frames left and an aligned base (R77, R370). -/
def Job.Sound (j : Job) : Prop := j.base % 4 = 0 ∧ j.next < j.frames

/-- The invariant of the block's state, for a chip of the constants k. -/
structure State.Sound (k : Constants) (s : State) : Prop where
  memory    : Memory.wf s.mem = true
  registers : s.params.Legal
  subPool   : SubPool.Sound s.sub.pool s.sub.gS
  epPool    : EpPool.Sound s.ep.pool s.ep.gE
  subChorus : s.sub.chorus.Fits k
  subDelay  : s.sub.delay.Fits k
  subReverb : s.sub.reverb.Fits k
  epChorus  : s.ep.chorus.Fits k
  epDelay   : s.ep.delay.Fits k
  epReverb  : s.ep.reverb.Fits k
  job       : ∀ j, s.io.job = some j → j.Sound

/-- The host may read the output buffer: no render is in progress (R82). -/
def State.hostMayRead (s : State) : Prop := s.io.job = none

/-- Every subtractive slot that sounds was triggered with unison off, or is voice 0 of its unison (R293 (d)). -/
def State.NoUnison (s : State) : Prop := ∀ i : Fin 12, s.sub.pool[i].Sounds → s.sub.pool[i].uidx = 0

end Sys2Proof.Machine
end

