-- ==== Sys2Proof/Certificates/Slice0/Obligations.lean ====
section
/-! DEFINITION. The statements. Each says in its docstring which rules of spec/ it formalises. The namespace Claims holds
what the statements are written with: the spec's own tables and actions, written out a second time from the rules. -/

namespace Sys2Proof.Claims

open Sys2Proof.Machine

/-! Encodings, from 30_encoding.md. -/

/-- The opcodes each port accepts, as R111 lists them. -/
def portOpcodes : Port → List Nat
  | .ctrl => [0x00, 0x01, 0x02, 0x03, 0x10]
  | .audio => [0x00, 0x20]
  | .plat => [0x00, 0x30, 0x31]

/-- The assigned PIDs (R23, R109): all but 0x1A to 0x1F, 0x2A to 0x2F and 0x32 to 0xFF. -/
def AssignedPid (pid : Nat) : Prop := pid ≤ 0x19 ∨ (0x20 ≤ pid ∧ pid ≤ 0x29) ∨ pid = 0x30 ∨ pid = 0x31

/-- The bits the format of an opcode uses (R102, R107). -/
def usedBits (op : Nat) : Cmd :=
  if op = 0x01 then 0xFF00FFFFFFFFFFFF
  else if op = 0x02 then 0xFF00FF0000000000
  else if op = 0x10 then 0xFFFF0000FFFFFFFF
  else if op = 0x20 then 0xFF000000FFFFFFFF
  else 0xFF00000000000000

/-! The register table, from 10_state.md R23. -/

/-- The range of an f32 register, none for a u32 register. -/
def f32Range : Reg → Option (ℚ × ℚ)
  | .oscWaves => none
  | .oscPw => some (1 / 100, 99 / 100)
  | .subMix => some (0, 1)
  | .noiseMix => some (0, 1)
  | .fltCutoff => some (20, 20000)
  | .fltRes => some (0, 1)
  | .fltHpf => some (0, 20000)
  | .fltKeytrack => some (0, 1)
  | .fltEnvamt => some (-20000, 20000)
  | .aenvA => some (1 / 1000, 20)
  | .aenvD => some (1 / 1000, 20)
  | .aenvS => some (0, 1)
  | .aenvR => some (1 / 1000, 20)
  | .fenvA => some (1 / 1000, 20)
  | .fenvD => some (1 / 1000, 20)
  | .fenvS => some (0, 1)
  | .fenvR => some (1 / 1000, 20)
  | .lfoRate => some (1 / 10, 20)
  | .lfoDepth => some (0, 1)
  | .lfoRoute => none
  | .chorusSMode => none
  | .glideEn => none
  | .glideTime => some (0, 10)
  | .unisonEn => none
  | .unisonN => none
  | .unisonSpread => some (0, 100)
  | .tremRate => some (1 / 10, 20)
  | .tremDepth => some (0, 1)
  | .chorusEMode => none
  | .dlyTime => some (1 / 20, 1 / 2)
  | .dlyFb => some (0, 4 / 5)
  | .dlyMix => some (0, 1)
  | .revSize => some (0, 1)
  | .revDamp => some (0, 1)
  | .revMix => some (0, 1)
  | .epVol => some (0, 1)
  | .mode => none
  | .masterVol => some (0, 1)

/-- What a u32 register stores of a written VAL, on numbers; VAL for an f32 register, where it is not used. -/
def u32Stored (r : Reg) (val : Nat) : Nat :=
  match r with
  | .oscWaves => val % 16
  | .lfoRoute => val % 8
  | .chorusSMode => min val 2
  | .glideEn => val % 2
  | .unisonEn => val % 2
  | .unisonN => min 8 (max 1 val)
  | .chorusEMode => min val 2
  | .mode => min val 1
  | _ => val

/-- Nothing but the register file changed, and of it only one register. -/
def OnlyRegister (r : Reg) (s t : State) : Prop :=
  t = { s with params := t.params } ∧ ∀ r', r' ≠ r → t.P r' = s.P r'

/-- The SETs of a list of registers, one after the other. -/
def setAll (vals : Reg → Word) : List Reg → State → Host.Outcome State Fault Refusal
  | [], s => .next s
  | r :: rs, s =>
    match exec (setInstr r (vals r)) s with
    | .next t => setAll vals rs t
    | .fault e => .fault e
    | .refused e => .refused e

/-! Notes, from 45_voice.md, 46_wurlitzer_voice.md and 47_voice_pool.md. -/

/-- fr of R312. -/
def noteFreq (val : Word) : Num :=
  Num.clamp (F32.toNum val) (.fin 1) (Num.min (.fin 20000) (Config.chip.f.div (.fin Config.chip.k.sr) (.fin 2)))

/-- vel of R105. -/
def noteVel (vel : Byte) : Num := Config.chip.f.div (.fin (min vel.toNat 127 : Nat)) (.fin 127)

/-- 2^(ck / 1200) of R282 and R285, for voice k of n with spread dc. -/
def unisonRatio (n : Nat) (dc : Num) (k : Nat) : Num :=
  let f := Config.chip.f
  let ck := if n = 1 then .fin 0
    else f.add (Num.neg dc) (f.div (f.mul (f.mul (.fin 2) dc) (.fin k)) (.fin (n - 1 : Nat)))
  f.pow (.fin 2) (f.div ck (.fin 1200))

/-- ATTACK from the current level (R172). -/
def gatedOn (e : Env) : Env := { stage := .attack, level := e.level }

/-- RELEASE at the current level, unless IDLE (R173). -/
def gatedOff (e : Env) : Env := { stage := if e.stage = .idle then .idle else .release, level := e.level }

/-- A slot after voice_trigger and stamp (R248, R281). -/
def triggered (v : SubVoice) (n : Fin 128) (fr d : Num) (k : Fin 8) (stamp : Age) : SubVoice :=
  { v with
    note := some n, uidx := k, detune := d, fTarget := fr, fCur := if v.fCur = .fin 0 ∨ v.fCur = .negZero then fr else v.fCur,
    aenv := gatedOn v.aenv, fenv := gatedOn v.fenv, vstate := .active, age := stamp }

/-- A slot after voice_release (R249). -/
def released (v : SubVoice) : SubVoice :=
  { v with aenv := gatedOff v.aenv, fenv := gatedOff v.fenv, vstate := .releasing }

/-- An envelope with the settings of R262, gated on. -/
def epEnvOn (e : EpEnv) (v tD : Num) : EpEnv where
  env := gatedOn e.env
  tA := Config.chip.f.sub (Config.chip.f.lit (1 / 50)) (Config.chip.f.mul (Config.chip.f.lit (3 / 250)) v)
  tD := tD
  tR := .fin (Config.chip.epRel v)
  sus := .fin 0

/-- A slot after ep_trigger and stamp (R262, R270, R281). -/
def epTriggered (w : EpVoice) (n : Fin 128) (fr v : Num) (stamp : Age) : EpVoice :=
  { w with
    note := some n, freq := fr, vel := v,
    amp := epEnvOn w.amp v (Config.chip.f.add (.fin 2) (Config.chip.f.mul (.fin (3 / 2)) v)),
    bark := epEnvOn w.bark v (.fin (Config.chip.epDBark v)),
    harm := epEnvOn w.harm v (.fin (Config.chip.epDHarm v)),
    tine := epEnvOn w.tine v (.fin (Config.chip.epDTine v)),
    vstate := .active, age := stamp }

/-- A slot after ep_release (R271). -/
def epReleased (w : EpVoice) : EpVoice :=
  { w with
    amp := { w.amp with env := gatedOff w.amp.env }, bark := { w.bark with env := gatedOff w.bark.env },
    harm := { w.harm with env := gatedOff w.harm.env }, tine := { w.tine with env := gatedOff w.tine.env },
    vstate := .releasing }

/-- The slot a note-on takes for note n and unison index k, with some slots taken already by this note-on: the one that
sounds the pair, else the first IDLE one, else the oldest of those not taken (R282 to R284). -/
def TakesSlot (pool : Vector SubVoice 12) (taken : Fin 12 → Prop) (n : Fin 128) (k : Fin 8) (i : Fin 12) : Prop :=
  (pool[i].Sounds ∧ pool[i].note = some n ∧ pool[i].uidx = k) ∨
  ((∀ j : Fin 12, ¬ (pool[j].Sounds ∧ pool[j].note = some n ∧ pool[j].uidx = k)) ∧
    ((¬ pool[i].Sounds ∧ ∀ j : Fin 12, j < i → pool[j].Sounds) ∨
     ((∀ j : Fin 12, pool[j].Sounds) ∧ ¬ taken i ∧ ∀ j : Fin 12, ¬ taken j → pool[i].age ≤ pool[j].age)))

/-- The same for the electric piano (R289). -/
def TakesEpSlot (pool : Vector EpVoice 12) (n : Fin 128) (i : Fin 12) : Prop :=
  (pool[i].Sounds ∧ pool[i].note = some n) ∨
  ((∀ j : Fin 12, ¬ (pool[j].Sounds ∧ pool[j].note = some n)) ∧
    ((¬ pool[i].Sounds ∧ ∀ j : Fin 12, j < i → pool[j].Sounds) ∨
     ((∀ j : Fin 12, pool[j].Sounds) ∧ ∀ j : Fin 12, pool[i].age ≤ pool[j].age)))

/-! Rendering, from 48_render.md. -/

/-- n ticks in a row, with the two writes of each (R75, R370). -/
def ticksInto (base : Nat) : Nat → State → State
  | 0, s => s
  | n + 1, s =>
    let o := (ticksInto base n s).tick Config.chip
    { o.st with mem := Memory.write32 (Memory.write32 o.st.mem (base + 8 * n) o.l) (base + 8 * n + 4) o.r }

/-- n steps, stopping at the first fault or refusal. -/
def run : Nat → State → Host.Outcome State Fault Refusal
  | 0, s => .next s
  | n + 1, s =>
    match step s with
    | .next t => run n t
    | .fault e => .fault e
    | .refused e => .refused e

/-- A binary32 word that is a number in [-1, 1]. -/
def InUnit (w : Word) : Prop :=
  F32.isNaN w = false ∧ Num.le (.fin (-1)) (F32.toNum w) = true ∧ Num.le (F32.toNum w) (.fin 1) = true

/-- clip of R376. -/
def clip (v : Sys2Proof.Num) : Sys2Proof.Num := Num.clamp v (.fin (-1)) (.fin 1)

/-- The word an output sample is written as: the nearest binary32 value, which is the model's reading (log 19), a zero
keeping its sign, which is too (log 1), and for a NaN any binary32 number in [-1, 1] (R378). -/
def WordOf (v : Sys2Proof.Num) (w : Word) : Prop :=
  match v with
  | .fin q => w = F32.ofRat q
  | .negZero => w = 0x80000000
  | .inf _ => False
  | .nan => InUnit w

/-- 0 + v 0 + ... + v 11, added from the left. -/
def sumOfSlots (f : Format) (v : Fin 12 → Sys2Proof.Num) : Sys2Proof.Num :=
  (List.finRange 12).foldl (fun acc i => f.add acc (v i)) (.fin 0)

/-- How many slots below i sound, each of which takes a noise value before slot i does (R292). -/
def soundingBelow (sounds : Fin 12 → Bool) (i : Fin 12) : Nat :=
  ((List.finRange 12).filter fun j => decide (j < i) && sounds j).length

/-- How many slots sound, cnt of R294. -/
def soundingIn (sounds : Fin 12 → Bool) : Nat := ((List.finRange 12).filter sounds).length

/-- sub_tick of R372, in the words of the rule: the path after it, and yL and yR. -/
def subTickOf (c : Config) (p : Params) (draws : Nat) (x : SubPath) : SubPath × Sys2Proof.Num × Sys2Proof.Num :=
  let (theta, raw) := lfoTick c p x.lfoTheta
  let taps := lfoTaps c p raw
  let sounds (i : Fin 12) : Bool := decide (x.pool[i].vstate ≠ .idle)
  let voice (i : Fin 12) : SubVoice × Sys2Proof.Num :=
    if sounds i then x.pool[i].tick c p taps (c.noise (draws + soundingBelow sounds i)) else (x.pool[i], .fin 0)
  let sum := sumOfSlots c.f fun i => (voice i).2
  let g := agStep c x.ag (soundingIn sounds)
  let m := sat08 c (c.f.mul g sum)
  let (cs, a, b) := x.chorus.tick c m (p.u .chorusSMode)
  let (ts, gt) := x.trem.tick c p
  let (ds, a, b) := x.delay.tick c p (c.f.mul gt a) (c.f.mul gt b)
  let (rs, a, b) := x.reverb.tick c p a b
  let (bs, a, b) := x.shelf.tick c a b
  ({ x with
      pool := Vector.ofFn fun i => (voice i).1, lfoTheta := theta, ag := g, chorus := cs, trem := ts, delay := ds,
      reverb := rs, shelf := bs },
   c.f.mul (p.num .masterVol) a, c.f.mul (p.num .masterVol) b)

/-- ep_tick_path of R373, in the words of the rule: the path after it, and yL and yR. -/
def epTickOf (c : Config) (p : Params) (draws : Nat) (x : EpPath) : EpPath × Sys2Proof.Num × Sys2Proof.Num :=
  let sounds (i : Fin 12) : Bool := decide (x.pool[i].vstate ≠ .idle)
  let voice (i : Fin 12) : EpVoice × Sys2Proof.Num :=
    if sounds i then x.pool[i].tick c (c.noise (draws + soundingBelow sounds i)) else (x.pool[i], .fin 0)
  let sum := sumOfSlots c.f fun i => (voice i).2
  let g := agStep c x.ag (soundingIn sounds)
  let (ts, gt) := x.trem.tick c p
  let (cs, a, b) := x.chorus.tick c (c.f.mul gt (c.f.mul g sum)) (p.u .chorusEMode)
  let (ds, a, b) := x.delay.tick c p a b
  let (rs, a, b) := x.reverb.tick c p a b
  ({ x with
      pool := Vector.ofFn fun i => (voice i).1, ag := g, trem := ts, chorus := cs, delay := ds, reverb := rs },
   c.f.mul (p.num .epVol) a, c.f.mul (p.num .epVol) b)

/-- The output stage of R371 and R376 on a path output (yL, yR): SYN_OUT is the pair, and each written word is that of
clip(OUT_GAIN * y + e) for the external input e of this tick. -/
structure OutputStage (s : State) (yL yR : Sys2Proof.Num) : Prop where
  synOut : (s.tick Config.chip).st.io.synOut = some (yL, yR)
  left   : WordOf
    (clip (Config.chip.f.add (Config.chip.f.mul (.fin Config.chip.k.outGain) yL) (Config.chip.extIn s.tickCount).1))
    (s.tick Config.chip).l
  right  : WordOf
    (clip (Config.chip.f.add (Config.chip.f.mul (.fin Config.chip.k.outGain) yR) (Config.chip.extIn s.tickCount).2))
    (s.tick Config.chip).r

/-- The audio port is about to give a RENDER of n > 0 frames with a valid buffer, no render is in progress, and the
next n turns are the audio port's. -/
structure AboutToRender (s : State) (n : Nat) (b : OutBuf) (rest : List AudioWord) (turns : List Port) : Prop where
  frames  : 0 < n
  turns   : s.io.turns = List.replicate n .audio ++ turns
  idle    : s.io.job = none
  word    : ∃ w v, s.io.audioIn = { word := w, buf := b } :: rest ∧ decode .audio w = .ok (.render v) ∧ v.toNat = n
  aligned : b.base % 4 = 0
  room    : 8 * n ≤ b.room

/-- What one frame, with its words at base + 8*n, does to everything but the path it runs. -/
structure FrameAt (s t : State) (base n : Nat) : Prop where
  left     : Memory.read32 t.mem (base + 8 * n) = some (s.tick Config.chip).l
  right    : Memory.read32 t.mem (base + 8 * n + 4) = some (s.tick Config.chip).r
  others   : ∀ a, a < base + 8 * n ∨ base + 8 * n + 8 ≤ a → Memory.read t.mem a = Memory.read s.mem a
  params   : t.params = s.params
  flag     : t.restartInFlight = s.restartInFlight
  sub      : t.sub = (s.tick Config.chip).st.sub
  ep       : t.ep = (s.tick Config.chip).st.ep
  counters : t.sub.gS = s.sub.gS ∧ t.ep.gE = s.ep.gE
  draws    : t.noiseCount = (s.tick Config.chip).st.noiseCount
  ticks    : t.tickCount = s.tickCount + 1
  synOut   : t.io.synOut = (s.tick Config.chip).st.io.synOut
  ports    : t.io.ctrlIn = s.io.ctrlIn ∧ t.io.audioIn = s.io.audioIn ∧ t.io.platIn = s.io.platIn ∧
    t.io.turns = s.io.turns ∧ t.io.buf = s.io.buf

/-! Ideal semantics, from 00_scope.md R10. -/

/-- A number stands for a real, which for 0 either zero does. -/
abbrev Is (a : Sys2Proof.Num) (q : ℚ) : Prop := a.unsigned = .fin q

/-- A format with the ideal semantics of R10, as far as rationals carry it: the four operations and the decimal
constants are exact, the two zeros are one, and each transcendental function gives some number within the range the real
function has (log 13). -/
structure Ideal (f : Format) : Prop where
  lit  : ∀ q, f.lit q = .fin q
  add  : ∀ (x y : Sys2Proof.Num) (a b : ℚ), Is x a → Is y b → f.add x y = .fin (a + b)
  sub  : ∀ (x y : Sys2Proof.Num) (a b : ℚ), Is x a → Is y b → f.sub x y = .fin (a - b)
  mul  : ∀ (x y : Sys2Proof.Num) (a b : ℚ), Is x a → Is y b → f.mul x y = .fin (a * b)
  div  : ∀ (x y : Sys2Proof.Num) (a b : ℚ), Is x a → Is y b → b ≠ 0 → f.div x y = .fin (a / b)
  pi   : ∃ y : ℚ, f.pi = .fin y ∧ 3 < y ∧ y < 4
  sqrt : ∀ (x : Sys2Proof.Num) (a : ℚ), Is x a → 0 < a → ∃ y : ℚ, f.sqrt x = .fin y ∧ 0 < y
  sin  : ∀ (x : Sys2Proof.Num) (a : ℚ), Is x a → ∃ y : ℚ, f.sin x = .fin y ∧ |y| ≤ 1
  cos  : ∀ (x : Sys2Proof.Num) (a : ℚ), Is x a → ∃ y : ℚ, f.cos x = .fin y ∧ |y| ≤ 1
  tanh : ∀ (x : Sys2Proof.Num) (a : ℚ), Is x a → 0 < a → ∃ y : ℚ, f.tanh x = .fin y ∧ 0 < y ∧ y < 1
  exp  : ∀ (x : Sys2Proof.Num) (a : ℚ), Is x a → a < 0 → ∃ y : ℚ, f.exp x = .fin y ∧ 0 < y ∧ y < 1
  pow  : ∀ (x z : Sys2Proof.Num) (u p : ℚ), Is x u → Is z p → 0 ≤ u → u ≤ 1 → 1 ≤ p →
    ∃ y : ℚ, f.pow x z = .fin y ∧ 0 ≤ y ∧ y ≤ 1

/-- n ticks of an envelope. -/
def envTicks (c : Config) (x : EnvSettings) : Nat → Env → Env
  | 0, e => e
  | n + 1, e => Env.tick c x (envTicks c x n e)

/-- The length in ticks of a stage of time t seconds, max(t, 0.001) * SR (R171). -/
def stageTicks (c : Config) (t : ℚ) : ℚ := max (1 / 1000) t * c.k.sr

end Sys2Proof.Claims

open Sys2Proof Sys2Proof.Machine Sys2Proof.Claims

/-! Encoding. -/

/-- R115: the five worked encodings, each way. -/
def Obligations.WorkedEncodingsDecode : Prop :=
  (decode .ctrl 0x0100456443DC0000 = .ok (.noteOn 69 100 0x43DC0000) ∧
    encode (.noteOn 69 100 0x43DC0000) = 0x0100456443DC0000 ∧ F32.ofRat 440 = 0x43DC0000) ∧
  (decode .ctrl 0x0200450000000000 = .ok (.noteOff 69) ∧ encode (.noteOff 69) = 0x0200450000000000) ∧
  (decode .ctrl 0x10040000447A0000 = .ok (.setFltCutoff 0x447A0000) ∧
    encode (.setFltCutoff 0x447A0000) = 0x10040000447A0000 ∧ F32.ofRat 1000 = 0x447A0000) ∧
  (decode .ctrl 0x1000000000000004 = .ok (.setOscWaves 4) ∧ encode (.setOscWaves 4) = 0x1000000000000004) ∧
  (decode .audio 0x2000000000000100 = .ok (.render 256) ∧ encode (.render 256) = 0x2000000000000100)

/-- R100 to R112: on every port that accepts it, every instruction's word decodes to it, as a word and as the first
eight bytes of a stream. -/
def Obligations.DecodeInvertsEncode : Prop :=
  ∀ (i : Instr) (p : Port), i.onPort p = true →
    decode p (encode i) = .ok i ∧
    ∀ rest, decodeBytes p (cmdBytes (encode i) ++ rest) = .ok (i, rest)

/-- R102, R112: a word that decodes is its instruction's word on the bits its format uses. -/
def Obligations.EncodeInvertsDecode : Prop :=
  ∀ (p : Port) (w : Cmd) (i : Instr), decode p w = .ok i → encode i = w &&& usedBits (opField w).toNat

/-- R110: two words that differ only in don't-care bits decode alike, and the encoder writes those bits as 0. -/
def Obligations.UnusedBitsDoNotMatter : Prop :=
  (∀ (p : Port) (w w' : Cmd), w &&& usedBits (opField w).toNat = w' &&& usedBits (opField w).toNat →
    decode p w = decode p w') ∧
  ∀ i : Instr, encode i &&& ~~~ usedBits (opField (encode i)).toNat = 0

/-- R109, R111: a word is an instruction on a port exactly where the port accepts its opcode and, for a SET, its PID is
assigned. -/
def Obligations.WordsDecodeExactlyWhereAssigned : Prop :=
  ∀ (p : Port) (w : Cmd),
    (∃ i, decode p w = .ok i) ↔
      (opField w).toNat ∈ portOpcodes p ∧ ((opField w).toNat = 0x10 → AssignedPid (pidField w).toNat)

/-! The step. -/

/-- R80, R112: when the word a port gives on its turn decodes to i, the step is i's meaning on the state with the turn
and the word taken off, and on the audio port with the word's buffer latched. -/
def Obligations.StepRunsTheDecodedWord : Prop :=
  ∀ (s : State) (ps : List Port) (w : Cmd) (i : Instr),
    (∀ ws, s.io.turns = .ctrl :: ps → s.io.ctrlIn = w :: ws → decode .ctrl w = .ok i →
      step s = exec i { s with io := { s.io with turns := ps, ctrlIn := ws } }) ∧
    (∀ ws, s.io.turns = .plat :: ps → s.io.platIn = w :: ws → decode .plat w = .ok i →
      step s = exec i { s with io := { s.io with turns := ps, platIn := ws } }) ∧
    (∀ ws b, s.io.turns = .audio :: ps → s.io.job = none → s.io.audioIn = { word := w, buf := b } :: ws →
      decode .audio w = .ok i →
      step s = exec i { s with io := { s.io with turns := ps, audioIn := ws, buf := b } })

/-- A table word placed as the next one a port gives is the one the next step runs (log 8: the model's placing). -/
def Obligations.PlacedWordRunsNext : Prop :=
  ∀ (s : State) (nbits w : Nat) (i : Instr), decodeTableWord nbits w = some i →
    ∃ t : State, step (s.withFetchWord nbits w) = exec i t ∧
      t = { s with io := { s.io with buf := t.io.buf, job := t.io.job } } ∧
      (homePort (tableCmd nbits w) = .audio → t.io.job = none ∧ t.io.buf = roomyBuf) ∧
      (homePort (tableCmd nbits w) ≠ .audio → t.io.job = s.io.job ∧ t.io.buf = s.io.buf)

/-- R109: the model refuses a stream that gives a word that is no instruction on its port (log 6: the model follows the
advice of R109 and R401, where the block itself ignores the word). -/
def Obligations.WordsThatDoNotDecodeAreRefused : Prop :=
  ∀ (s : State) (ps : List Port) (w : Cmd) (e : DecodeError),
    (∀ ws, s.io.turns = .ctrl :: ps → s.io.ctrlIn = w :: ws → decode .ctrl w = .error e →
      step s = .refused (.undecodable e)) ∧
    (∀ ws, s.io.turns = .plat :: ps → s.io.platIn = w :: ws → decode .plat w = .error e →
      step s = .refused (.undecodable e)) ∧
    (∀ ws b, s.io.turns = .audio :: ps → s.io.job = none → s.io.audioIn = { word := w, buf := b } :: ws →
      decode .audio w = .error e → step s = .refused (.undecodable e))

/-- R414: with no turn left the block does nothing, and a turn of a port with no word changes only whose turn it is
(log 7: the turns are the model's form of the total order of R80). -/
def Obligations.TurnsWithNothingToDoRest : Prop :=
  ∀ (s : State) (ps : List Port),
    (s.io.turns = [] → step s = .next s) ∧
    (s.io.turns = .ctrl :: ps → s.io.ctrlIn = [] → step s = .next { s with io := { s.io with turns := ps } }) ∧
    (s.io.turns = .plat :: ps → s.io.platIn = [] → step s = .next { s with io := { s.io with turns := ps } }) ∧
    (s.io.turns = .audio :: ps → s.io.job = none → s.io.audioIn = [] →
      step s = .next { s with io := { s.io with turns := ps } })

/-- R400, R412: every instruction on every state with legal registers completes, but for the two undefined cases: a
NOTE_ON whose stamps would wrap the selected pool's counter (R281), and a RENDER into an invalid buffer (R77). That a
NaN or a note above 127 completes by being ignored is the model's choice (log 9), and so is that a RENDER of no frames
asks for an aligned base (log 11). -/
def Obligations.EveryInstructionCompletesButTwoUndefinedCases : Prop :=
  ∀ (i : Instr) (s : State), s.params.Legal →
    (∃ t, exec i s = .next t) ∨
    (exec i s = .fault .ageCounterWrap ∧ (∃ note vel val, i = .noteOn note vel val) ∧
      ((s.P .mode = 0 ∧ 2 ^ 64 ≤ s.sub.gS.toNat + (if s.P .unisonEn = 1 then (s.P .unisonN).toNat else 1)) ∨
       (s.P .mode ≠ 0 ∧ 2 ^ 64 ≤ s.ep.gE.toNat + 1))) ∨
    (exec i s = .fault .renderBufferInvalid ∧
      ∃ n, i = .render n ∧ (s.io.buf.base % 4 ≠ 0 ∨ s.io.buf.room < 8 * n.toNat))

/-! Parameter writes. -/

/-- R23, R315, R403: every SET of an f32 register with a VAL that is no NaN completes, stores the value clamped to the
register's range, the infinities going to its ends, and changes nothing else. The value is the real one: the zero stored may have either sign (log 1).
The ends clamped to are the binary32 values nearest to the decimals of R23, which is the model's reading (log 23): R23
gives the decimals and R315 the clamp. The instructions are SET.OSC_PW, SUB_MIX,
NOISE_MIX, FLT_CUTOFF, FLT_RES, FLT_HPF, FLT_KEYTRACK, FLT_ENVAMT, AENV_A, AENV_D, AENV_S, AENV_R, FENV_A, FENV_D,
FENV_S, FENV_R, LFO_RATE, LFO_DEPTH, GLIDE_TIME, UNISON_SPREAD, TREM_RATE, TREM_DEPTH, DLY_TIME, DLY_FB, DLY_MIX,
REV_SIZE, REV_DAMP, REV_MIX, EP_VOL and MASTER_VOL. -/
def Obligations.SetStoresTheClampedNumber : Prop :=
  ∀ (r : Reg) (lo hi : ℚ), f32Range r = some (lo, hi) → ∀ (val : Word) (s : State), F32.isNaN val = false →
    ∃ t, exec (setInstr r val) s = .next t ∧ OnlyRegister r s t ∧ F32.isNaN (t.P r) = false ∧
      (F32.toNum (t.P r)).unsigned =
        ((F32.toNum val).clamp (F32.toNum (F32.ofRat lo)) (F32.toNum (F32.ofRat hi))).unsigned

/-- R23 to R27, R315: every SET of a u32 register completes, stores the value masked or clamped as the register's row
says, and changes nothing else. The instructions are SET.OSC_WAVES, LFO_ROUTE, CHORUS_S_MODE, GLIDE_EN, UNISON_EN,
UNISON_N, CHORUS_E_MODE and MODE. -/
def Obligations.SetStoresTheMaskedInteger : Prop :=
  ∀ (r : Reg), f32Range r = none → ∀ (val : Word) (s : State),
    ∃ t, exec (setInstr r val) s = .next t ∧ OnlyRegister r s t ∧ (t.P r).toNat = u32Stored r val.toNat

/-- R402 row 6: a SET of an f32 register with a NaN VAL is ignored (log 9: the model's choice, where R401 and D5 would have
a model refuse it). -/
def Obligations.SetIgnoresNaN : Prop :=
  ∀ (r : Reg) (val : Word) (s : State), f32Range r ≠ none → F32.isNaN val = true →
    exec (setInstr r val) s = .next s

/-- R79: a parameter write is idempotent. -/
def Obligations.SetTwiceIsSetOnce : Prop :=
  ∀ (r : Reg) (val : Word) (s t : State), exec (setInstr r val) s = .next t → exec (setInstr r val) t = .next t

/-- R431, R438: once every register has been written, in any order, with values that are no NaN where the register is
f32, nothing is left of the values the registers had at reset. -/
def Obligations.BootForgetsTheResetRegisters : Prop :=
  ∀ vals : Reg → Word, (∀ r, f32Range r ≠ none → F32.isNaN (vals r) = false) →
    ∃ t, ∀ (order : List Reg) (p : Params), (∀ r, r ∈ order) → setAll vals order (State.resetWith p) = .next t

/-! Note commands. -/

/-- R311: NOP changes nothing, every word with OP 0 is a NOP on every port, and NOP is the all-zero word. -/
def Obligations.NopChangesNothing : Prop :=
  (∀ s : State, exec .nop s = .next s) ∧
  (∀ (p : Port) (w : Cmd), w &&& 0xFF00000000000000 = 0x0000000000000000 → decode p w = .ok .nop) ∧
  encode .nop = 0x0000000000000000

/-- R248, R281 to R285, R312: in SUB mode with unison off, a NOTE_ON of a note up to 127 and a VAL that is no NaN,
whose stamp does not wrap the counter, completes: it triggers the slot the rules pick, and changes nothing else. -/
def Obligations.NoteOnTakesOneSubtractiveSlot : Prop :=
  ∀ (note vel : Byte) (val : Word) (s : State) (n : Fin 128), note.toNat = n.val → F32.isNaN val = false →
    s.P .mode = 0 → s.P .unisonEn ≠ 1 → s.sub.gS.toNat + 1 < 2 ^ 64 →
    ∃ i : Fin 12, TakesSlot s.sub.pool (fun _ => False) n 0 i ∧
      exec (.noteOn note vel val) s = .next
        { s with sub := { s.sub with
            pool := s.sub.pool.set i
              (triggered s.sub.pool[i] n (noteFreq val) (unisonRatio 1 (.fin 0) 0) 0 s.sub.gS),
            gS := s.sub.gS + 1 } }

/-- R248, R281 to R285, R312: in SUB mode with unison on, a NOTE_ON completes: for each of the UNISON_N voices in turn it
takes the slot the rules pick in the pool as the voices before it left it, and triggers that slot with the voice's stamp
and detune. No two voices take the same slot, each slot taken is triggered from what it held before the command, and
nothing else changes. -/
def Obligations.NoteOnTakesASlotForEachUnisonVoice : Prop :=
  ∀ (note vel : Byte) (val : Word) (s : State) (n : Fin 128), note.toNat = n.val → F32.isNaN val = false →
    s.params.Legal → s.P .mode = 0 → s.P .unisonEn = 1 → s.sub.gS.toNat + (s.P .unisonN).toNat < 2 ^ 64 →
    let count := (s.P .unisonN).toNat
    let trig (v : SubVoice) (k : Fin 8) : SubVoice :=
      triggered v n (noteFreq val) (unisonRatio count (F32.toNum (s.P .unisonSpread)) k.val) k
        (s.sub.gS + BitVec.ofNat 64 k.val)
    ∃ (f : Fin 8 → Fin 12) (pools : Nat → Vector SubVoice 12),
      pools 0 = s.sub.pool ∧
      (∀ k : Fin 8, k.val < count →
        TakesSlot (pools k) (fun i => ∃ k' : Fin 8, k' < k ∧ f k' = i) n k (f k) ∧
        pools (k + 1) = (pools k).set (f k) (trig (pools k)[f k] k)) ∧
      exec (.noteOn note vel val) s = .next
        { s with sub := { s.sub with pool := pools count, gS := s.sub.gS + BitVec.ofNat 64 count } } ∧
      (∀ k k' : Fin 8, k.val < count → k'.val < count → f k = f k' → k = k') ∧
      (∀ k : Fin 8, k.val < count → (pools count)[f k] = trig s.sub.pool[f k] k) ∧
      ∀ i : Fin 12, (∀ k : Fin 8, k.val < count → f k ≠ i) → (pools count)[i] = s.sub.pool[i]

/-- R262, R270, R281, R289, R312: in EP mode a NOTE_ON completes: it triggers the slot the rules pick with the note's
velocity, and changes nothing else. -/
def Obligations.NoteOnTakesOneElectricPianoSlot : Prop :=
  ∀ (note vel : Byte) (val : Word) (s : State) (n : Fin 128), note.toNat = n.val → F32.isNaN val = false →
    s.P .mode ≠ 0 → s.ep.gE.toNat + 1 < 2 ^ 64 →
    ∃ i : Fin 12, TakesEpSlot s.ep.pool n i ∧
      exec (.noteOn note vel val) s = .next
        { s with ep := { s.ep with
            pool := s.ep.pool.set i (epTriggered s.ep.pool[i] n (noteFreq val) (noteVel vel) s.ep.gE),
            gE := s.ep.gE + 1 } }

/-- R104, R402 rows 4 and 5: a NOTE_ON or NOTE_OFF of a note above 127, and a NOTE_ON of a NaN frequency, are ignored
(log 9: the model's choice, where R401 and D5 would have a model refuse them). -/
def Obligations.NotesOutOfRangeAreIgnored : Prop :=
  (∀ (note vel : Byte) (val : Word) (s : State), 127 < note.toNat ∨ F32.isNaN val = true →
    exec (.noteOn note vel val) s = .next s) ∧
  ∀ (note : Byte) (s : State), 127 < note.toNat → exec (.noteOff note) s = .next s

/-- R281: a NOTE_ON whose stamps would wrap the selected pool's counter is stuck, before any of its voices is triggered
(log 21). -/
def Obligations.NoteOnStopsAtTheEndOfTheCounter : Prop :=
  ∀ (note vel : Byte) (val : Word) (s : State), note.toNat ≤ 127 → F32.isNaN val = false → s.params.Legal →
    (s.P .mode = 0 → s.P .unisonEn ≠ 1 → 2 ^ 64 ≤ s.sub.gS.toNat + 1 →
      exec (.noteOn note vel val) s = .fault .ageCounterWrap) ∧
    (s.P .mode = 0 → s.P .unisonEn = 1 → 2 ^ 64 ≤ s.sub.gS.toNat + (s.P .unisonN).toNat →
      exec (.noteOn note vel val) s = .fault .ageCounterWrap) ∧
    (s.P .mode ≠ 0 → 2 ^ 64 ≤ s.ep.gE.toNat + 1 → exec (.noteOn note vel val) s = .fault .ageCounterWrap)

/-- R249, R271, R287, R289, R313: a NOTE_OFF of a note up to 127 completes: it releases every ACTIVE slot of the
selected pool that has the note, and changes nothing else. -/
def Obligations.NoteOffReleasesItsNote : Prop :=
  ∀ (note : Byte) (s : State) (n : Fin 128), note.toNat = n.val →
    (s.P .mode = 0 → ∃ t, exec (.noteOff note) s = .next t ∧
      t = { s with sub := { s.sub with pool := t.sub.pool } } ∧
      ∀ i : Fin 12, t.sub.pool[i] =
        if s.sub.pool[i].note = some n ∧ s.sub.pool[i].vstate = .active then released s.sub.pool[i]
        else s.sub.pool[i]) ∧
    (s.P .mode ≠ 0 → ∃ t, exec (.noteOff note) s = .next t ∧
      t = { s with ep := { s.ep with pool := t.ep.pool } } ∧
      ∀ i : Fin 12, t.ep.pool[i] =
        if s.ep.pool[i].note = some n ∧ s.ep.pool[i].vstate = .active then epReleased s.ep.pool[i]
        else s.ep.pool[i])

/-- R288, R314: ALL_NOTES_OFF completes: it releases every ACTIVE slot of both pools, whatever the mode, and changes
nothing else. -/
def Obligations.AllNotesOffReleasesBothPools : Prop :=
  ∀ s : State, ∃ t, exec .allNotesOff s = .next t ∧
    t = { s with sub := { s.sub with pool := t.sub.pool }, ep := { s.ep with pool := t.ep.pool } } ∧
    ∀ i : Fin 12,
      (t.sub.pool[i] = if s.sub.pool[i].vstate = .active then released s.sub.pool[i] else s.sub.pool[i]) ∧
      (t.ep.pool[i] = if s.ep.pool[i].vstate = .active then epReleased s.ep.pool[i] else s.ep.pool[i])

/-- R284, R289: in a sound state whose selected pool is full and does not sound the note, a NOTE_ON gives the note to
the one slot with the smallest stamp, and leaves the other eleven. -/
def Obligations.FullPoolStealsTheOldestSlot : Prop :=
  ∀ (note vel : Byte) (val : Word) (s : State) (n : Fin 128), note.toNat = n.val → F32.isNaN val = false →
    s.Sound Config.chip.k →
    (s.P .mode = 0 → s.P .unisonEn ≠ 1 → s.sub.gS.toNat + 1 < 2 ^ 64 → (∀ i : Fin 12, s.sub.pool[i].Sounds) →
      (∀ i : Fin 12, s.sub.pool[i].note ≠ some n) →
      ∃ (t : State) (i : Fin 12), exec (.noteOn note vel val) s = .next t ∧
        (∀ j : Fin 12, j ≠ i → s.sub.pool[i].age < s.sub.pool[j].age ∧ t.sub.pool[j] = s.sub.pool[j]) ∧
        t.sub.pool[i].note = some n ∧ t.sub.pool[i].age = s.sub.gS) ∧
    (s.P .mode ≠ 0 → s.ep.gE.toNat + 1 < 2 ^ 64 → (∀ i : Fin 12, s.ep.pool[i].Sounds) →
      (∀ i : Fin 12, s.ep.pool[i].note ≠ some n) →
      ∃ (t : State) (i : Fin 12), exec (.noteOn note vel val) s = .next t ∧
        (∀ j : Fin 12, j ≠ i → s.ep.pool[i].age < s.ep.pool[j].age ∧ t.ep.pool[j] = s.ep.pool[j]) ∧
        t.ep.pool[i].note = some n ∧ t.ep.pool[i].age = s.ep.gE)

/-- R105, R248: velocity does not reach the subtractive path. -/
def Obligations.SubtractiveNoteOnIgnoresVelocity : Prop :=
  ∀ (note vel vel' : Byte) (val : Word) (s : State), s.P .mode = 0 →
    exec (.noteOn note vel val) s = exec (.noteOn note vel' val) s

/-! Platform commands. -/

/-- R407: DEVICE_CHANGED completes: with no restart in flight it sets the flag and changes nothing else, and with one in
flight it is ignored. Every word with OP 0x30 on the platform port is one. -/
def Obligations.DeviceChangedSetsTheFlag : Prop :=
  (∀ s : State,
    (s.restartInFlight = false → exec .deviceChanged s = .next { s with restartInFlight := true }) ∧
    (s.restartInFlight = true → exec .deviceChanged s = .next s)) ∧
  (∀ w : Cmd, w &&& 0xFF00000000000000 = 0x3000000000000000 → decode .plat w = .ok .deviceChanged) ∧
  encode .deviceChanged = 0x3000000000000000

/-- R408: RESTART_DONE completes: it clears the flag and changes nothing else, a DEVICE_CHANGED after it sets the flag
again, and RENDER runs the same whether the flag is set or not. Every word with OP 0x31 on the platform port is one. -/
def Obligations.RestartDoneClearsTheFlag : Prop :=
  (∀ s : State, exec .restartDone s = .next { s with restartInFlight := false } ∧
    exec .deviceChanged { s with restartInFlight := false } = .next { s with restartInFlight := true }) ∧
  (∀ w : Cmd, w &&& 0xFF00000000000000 = 0x3100000000000000 → decode .plat w = .ok .restartDone) ∧
  encode .restartDone = 0x3100000000000000 ∧
  ∀ (n : Word) (s t : State) (b : Bool), exec (.render n) s = .next t →
    exec (.render n) { s with restartInFlight := b } = .next { t with restartInFlight := b }

/-! Render. -/

/-- R75, R370, R377, R380: a RENDER of at least one frame with a valid buffer completes: its first step runs one tick,
stores the frame's two words at the buffer's base, gives the tick's SYN_OUT, and touches nothing else but the path the
tick runs and the counts that index the free values. What is left of the render is the frames from 1 on; after a single
frame nothing is left and CONTINUE is returned. That the step which takes the word runs the first tick is the model's
choice (log 11). What the tick computes is said by TickRunsThePathThroughTheOutputStage. -/
def Obligations.RenderRunsItsFirstFrame : Prop :=
  ∀ (n : Word) (s : State), 0 < n.toNat → s.io.buf.base % 4 = 0 → 8 * n.toNat ≤ s.io.buf.room →
    ∃ t, exec (.render n) s = .next t ∧ FrameAt s t s.io.buf.base 0 ∧
      (1 < n.toNat → t.io.job = some { base := s.io.buf.base, frames := n.toNat, next := 1 } ∧
        t.io.result = s.io.result) ∧
      (n.toNat = 1 → t.io.job = none ∧ t.io.result = some .continue)

/-- R80, R370, R377: while a render is in progress, the audio port's turn runs its next frame, stores the frame's two words
at base + 8 * next, gives the tick's SYN_OUT, and touches nothing else but the path the tick runs and the counts that
index the free values; the last frame returns CONTINUE. That each tick takes a turn of the audio port is the model's
choice (log 7, log 11). What the tick computes is said by TickRunsThePathThroughTheOutputStage. -/
def Obligations.AudioTurnRunsTheNextFrame : Prop :=
  ∀ (s : State) (j : Job) (ps : List Port), s.io.turns = .audio :: ps → s.io.job = some j →
    ∃ t, step s = .next t ∧ FrameAt { s with io := { s.io with turns := ps } } t j.base j.next ∧
      (j.next + 1 < j.frames → t.io.job = some { j with next := j.next + 1 } ∧ t.io.result = s.io.result) ∧
      (j.frames ≤ j.next + 1 → t.io.job = none ∧ t.io.result = some .continue)

/-- R380: RENDER 0 runs no tick, writes no word, changes no state and returns CONTINUE. -/
def Obligations.RenderOfNoFramesChangesNothing : Prop :=
  ∀ s : State, s.io.buf.base % 4 = 0 →
    exec (.render 0) s = .next { s with io := { s.io with result := some .continue } }

/-- R77: a RENDER whose base is no multiple of 4, or whose buffer is shorter than 8 * frameCount bytes, has no step. For a
RENDER of no frames with a base that is no multiple of 4 this is the model's reading (log 11): R380 gives RENDER 0 its
effect without a condition. -/
def Obligations.RenderIntoAnInvalidBufferIsStuck : Prop :=
  ∀ (n : Word) (s : State), s.io.buf.base % 4 ≠ 0 ∨ s.io.buf.room < 8 * n.toNat →
    exec (.render n) s = .fault .renderBufferInvalid

/-- R75, R370, R379: a whole render. n turns of the audio port run the n ticks in frame order; frame k's left word ends
at base + 8 * k and its right word at base + 8 * k + 4; no byte outside the 8 * n of the buffer changes; and CONTINUE
is returned. That n turns of the audio port run the n ticks, the first in the step that takes the word, is the model's
choice (log 7, log 11). What a tick computes is said by TickRunsThePathThroughTheOutputStage. -/
def Obligations.RenderWritesItsFramesInOrder : Prop :=
  ∀ (s : State) (n : Nat) (b : OutBuf) (rest : List AudioWord) (turns : List Port),
    AboutToRender s n b rest turns →
    ∃ t, run n s = .next t ∧
      t = { ticksInto b.base n s with
              io := { (ticksInto b.base n s).io with
                turns := turns, audioIn := rest, buf := b, job := none, result := some .continue } } ∧
      (∀ k, k < n →
        Memory.read32 t.mem (b.base + 8 * k) = some ((ticksInto b.base k s).tick Config.chip).l ∧
        Memory.read32 t.mem (b.base + 8 * k + 4) = some ((ticksInto b.base k s).tick Config.chip).r) ∧
      ∀ a, a < b.base ∨ b.base + 8 * n ≤ a → Memory.read t.mem a = Memory.read s.mem a

/-- R376, R378: every word a render leaves in its buffer is a binary32 number in [-1, 1], whatever the number format,
the noise and the external input are. That n turns of the audio port run the whole render, the first tick in the step
that takes the word, is the model's choice (log 7, log 11). -/
def Obligations.EveryRenderedWordIsInUnitRange : Prop :=
  ∀ (s : State) (n : Nat) (b : OutBuf) (rest : List AudioWord) (turns : List Port),
    AboutToRender s n b rest turns →
    ∃ t, run n s = .next t ∧
      ∀ k, k < n → ∃ l r, Memory.read32 t.mem (b.base + 8 * k) = some l ∧
        Memory.read32 t.mem (b.base + 8 * k + 4) = some r ∧ InUnit l ∧ InUnit r

/-- R375: a tick changes nothing of the path that MODE does not select and takes no noise value for it, and a write of
MODE changes neither path. -/
def Obligations.InactivePathIsFrozen : Prop :=
  (∀ s : State, s.P .mode = 0 → (s.tick Config.chip).st.ep = s.ep ∧
    (s.tick Config.chip).st.noiseCount = s.noiseCount + subCount s.sub.pool) ∧
  (∀ s : State, s.P .mode ≠ 0 → (s.tick Config.chip).st.sub = s.sub ∧
    (s.tick Config.chip).st.noiseCount = s.noiseCount + epCount s.ep.pool) ∧
  ∀ (val : Word) (s t : State), exec (.setMode val) s = .next t → t.sub = s.sub ∧ t.ep = s.ep

/-- R246, R268, R292: a tick leaves every IDLE slot of both pools as it is. -/
def Obligations.IdleSlotsAreNotTicked : Prop :=
  ∀ (s : State) (i : Fin 12),
    (¬ s.sub.pool[i].Sounds → (s.tick Config.chip).st.sub.pool[i] = s.sub.pool[i]) ∧
    (¬ s.ep.pool[i].Sounds → (s.tick Config.chip).st.ep.pool[i] = s.ep.pool[i])

/-- R247, R269: a tick of a path retires exactly those sounding slots whose amplitude envelope it leaves IDLE, and moves
no slot's stamp. -/
def Obligations.SlotsRetireWhenTheirEnvelopeEnds : Prop :=
  ∀ (s : State) (i : Fin 12),
    (s.P .mode = 0 → s.sub.pool[i].Sounds →
      let v := (s.tick Config.chip).st.sub.pool[i]
      v.age = s.sub.pool[i].age ∧ v.uidx = s.sub.pool[i].uidx ∧
      (v.aenv.stage = .idle → v.vstate = .idle ∧ v.note = none) ∧
      (v.aenv.stage ≠ .idle → v.vstate = s.sub.pool[i].vstate ∧ v.note = s.sub.pool[i].note)) ∧
    (s.P .mode ≠ 0 → s.ep.pool[i].Sounds →
      let w := (s.tick Config.chip).st.ep.pool[i]
      w.age = s.ep.pool[i].age ∧
      (w.amp.env.stage = .idle → w.vstate = .idle ∧ w.note = none) ∧
      (w.amp.env.stage ≠ .idle → w.vstate = s.ep.pool[i].vstate ∧ w.note = s.ep.pool[i].note))

/-! The whole machine. -/

/-- R432 to R435: with any legal registers, the state after reset is sound. -/
def Obligations.ResetStateIsSound : Prop :=
  (∀ p : Params, p.Legal → (State.resetWith p).Sound Config.chip.k) ∧ State.reset.Sound Config.chip.k

/-- R22, R29, R73, R78, R281, R293: every step keeps the state sound: memory canonical, registers legal, slots IDLE
exactly where FREE, no note (or note and unison index) sounding twice, stamps distinct and below the counter, and
every delay line inside its length. -/
def Obligations.EveryStepKeepsTheStateSound : Prop :=
  ∀ s t : State, s.Sound Config.chip.k → step s = .next t → t.Sound Config.chip.k

/-- R293 (d): while unison is off and no slot is left from a unison note-on, a step keeps it so, and no two subtractive
slots sound the same note. -/
def Obligations.UnisonOffSoundsEachNoteOnce : Prop :=
  ∀ s t : State, s.Sound Config.chip.k → s.NoUnison → s.P .unisonEn ≠ 1 → step s = .next t →
    t.NoUnison ∧ ∀ i j : Fin 12, t.sub.pool[i].Sounds → t.sub.pool[j].Sounds →
      t.sub.pool[i].note = t.sub.pool[j].note → i = j

/-- R410: each port's turn reaches only its own state. The control port reaches the registers and the two pools with
their counters; the platform port the restart flag; the audio port everything but the registers, the flag, the
counters and the other ports' words. -/
def Obligations.EachPortKeepsToItsState : Prop :=
  ∀ (s t : State) (ps : List Port), step s = .next t →
    (s.io.turns = .ctrl :: ps →
      t = { s with
        params := t.params,
        sub := { s.sub with pool := t.sub.pool, gS := t.sub.gS },
        ep := { s.ep with pool := t.ep.pool, gE := t.ep.gE },
        io := { s.io with turns := ps, ctrlIn := s.io.ctrlIn.tail } }) ∧
    (s.io.turns = .plat :: ps →
      t = { s with
        restartInFlight := t.restartInFlight,
        io := { s.io with turns := ps, platIn := s.io.platIn.tail } }) ∧
    (s.io.turns = .audio :: ps →
      t.params = s.params ∧ t.restartInFlight = s.restartInFlight ∧ t.sub.gS = s.sub.gS ∧ t.ep.gE = s.ep.gE ∧
      t.io.ctrlIn = s.io.ctrlIn ∧ t.io.platIn = s.io.platIn ∧ t.io.turns = ps)

/-- R22: only the SET of a register writes it. -/
def Obligations.OnlyItsSetWritesARegister : Prop :=
  ∀ (s t : State) (r : Reg), step s = .next t → t.P r ≠ s.P r →
    ∃ ps w ws, s.io.turns = .ctrl :: ps ∧ s.io.ctrlIn = w :: ws ∧
      decode .ctrl w = .ok (setInstr r (valField w))

/-- R408, R446: the restart flag reaches no turn but the platform port's. -/
def Obligations.RestartFlagReachesNoOtherPort : Prop :=
  ∀ (s t : State) (b : Bool), (∀ ps, s.io.turns ≠ .plat :: ps) → step s = .next t →
    step { s with restartInFlight := b } = .next { t with restartInFlight := b }

/-- R432 to R436: what reset leaves, whatever values the registers have. -/
def Obligations.ResetLeavesTheBlockSilent : Prop :=
  ∀ p : Params,
    (∀ i : Fin 12, (State.resetWith p).sub.pool[i] =
      { vstate := .idle, note := none, uidx := 0, age := 0, fTarget := .fin 0, fCur := .fin 0, detune := .fin 1,
        ph := .fin 0, phSub := .fin 0, aenv := { stage := .idle, level := .fin 0 },
        fenv := { stage := .idle, level := .fin 0 },
        flt :=
          { init := false, sc := .fin 0, sr := .fin 0, cu := .fin 0, ru := .fin 0, b0 := .fin 0, b1 := .fin 0,
            b2 := .fin 0, a1 := .fin 0, a2 := .fin 0, x1 := .fin 0, x2 := .fin 0, y1 := .fin 0, y2 := .fin 0,
            hx1 := .fin 0, hy1 := .fin 0 } }) ∧
    (∀ i : Fin 12, (State.resetWith p).ep.pool[i] =
      let e : EpEnv :=
        { env := { stage := .idle, level := .fin 0 }, tA := .fin (1 / 1000), tD := .fin (1 / 1000),
          tR := .fin (1 / 1000), sus := .fin 0 }
      { vstate := .idle, note := none, age := 0, freq := .fin 0, vel := .fin 0, amp := e, bark := e, harm := e,
        tine := e, ph := #v[.fin 0, .fin 0, .fin 0, .fin 0, .fin 0], yprev := .fin 0, dcx1 := .fin 0,
        dcy1 := .fin 0 }) ∧
    ((State.resetWith p).sub.gS = 0 ∧ (State.resetWith p).ep.gE = 0 ∧ (State.resetWith p).sub.lfoTheta = .fin 0 ∧
      (State.resetWith p).sub.ag = .fin 1 ∧ (State.resetWith p).ep.ag = .fin 1) ∧
    (∀ u ∈ [(State.resetWith p).sub.chorus, (State.resetWith p).ep.chorus],
      (∀ k, Line.get u.buf k = .fin 0) ∧ u.w = 0 ∧ u.psi = .fin 0) ∧
    (∀ u ∈ [(State.resetWith p).sub.trem, (State.resetWith p).ep.trem], u.theta = .fin 0 ∧ u.g = .fin 1) ∧
    (∀ u ∈ [(State.resetWith p).sub.delay, (State.resetWith p).ep.delay],
      (∀ k, Line.get u.bufL k = .fin 0 ∧ Line.get u.bufR k = .fin 0) ∧ u.w = 0 ∧ u.lpL = .fin 0 ∧ u.lpR = .fin 0) ∧
    (∀ u ∈ [(State.resetWith p).sub.reverb, (State.resetWith p).ep.reverb], ∀ x ∈ [u.left, u.right],
      (∀ j : Fin 4, (∀ k, Line.get x.comb[j].buf k = .fin 0) ∧ x.comb[j].ci = 0 ∧ x.comb[j].cf = .fin 0) ∧
      ∀ j : Fin 2, (∀ k, Line.get x.ap[j].buf k = .fin 0) ∧ x.ap[j].ai = 0) ∧
    ((State.resetWith p).sub.shelf.lpL = .fin 0 ∧ (State.resetWith p).sub.shelf.lpR = .fin 0) ∧
    (State.resetWith p).restartInFlight = false

/-! Memory and delay lines. -/

/-- R76: an output word is stored least significant byte first, and a command word is carried least significant byte
first. -/
def Obligations.WordsAreCarriedLittleEndian : Prop :=
  (∀ (m : Memory) (a : Nat) (v : Word) (k : Fin 4),
    Memory.read (Memory.write32 m a v) (a + k) = some (v.extractLsb' (8 * k) 8)) ∧
  ∀ (w : Cmd) (rest : List Byte),
    (∀ k : Fin 8, (cmdBytes w)[k.val]? = some (w.extractLsb' (8 * k) 8)) ∧
    cmdOfBytes (cmdBytes w ++ rest) = some (w, rest)

/-- R78: after a write, rd(0) is the value written and every other element is as before, and after the index advances
each element is one further back. -/
def Obligations.DelayLineGivesBackWhatWasWritten : Prop :=
  ∀ (l : Line) (n w : Nat) (v : Sys2Proof.Num), Line.Fits n w l →
    Line.rd (Line.put l w v) n w 0 = v ∧
    (∀ k : Int, 0 < k → k < n → Line.rd (Line.put l w v) n w k = Line.rd l n w k) ∧
    (∀ k : Int, 0 ≤ k → k + 1 < n → Line.rd (Line.put l w v) n (Line.adv n w) (k + 1) = Line.rd (Line.put l w v) n w k)

/-! Signals, in ideal semantics. -/

/-- R32, R170, R174: in ideal semantics an envelope's level stays in [0, 1] over a tick and over a gate, whatever the
times are. -/
def Obligations.EnvelopeLevelsStayInUnitRange : Prop :=
  ∀ (c : Config) (x : EnvSettings) (a d r s l : ℚ) (e : Env), Ideal c.f → c.k.Valid → Is x.a a → Is x.d d → Is x.r r →
    Is x.s s → 0 ≤ s → s ≤ 1 → Is e.level l → 0 ≤ l → l ≤ 1 →
    (∃ l' : ℚ, Is (e.tick c x).level l' ∧ 0 ≤ l' ∧ l' ≤ 1) ∧
    e.gateOn = { stage := .attack, level := e.level } ∧
    e.gateOff = { stage := if e.stage = .idle then .idle else .release, level := e.level }

/-- R175: in ideal semantics an attack rises by 1 / (max(A, 0.001) * SR) a tick, is set to 1 and moves to DECAY on the
tick where it reaches 1, and takes ceil(max(A, 0.001) * SR) ticks from level 0. -/
def Obligations.AttackTakesItsTime : Prop :=
  ∀ (c : Config) (x : EnvSettings) (a : ℚ), Ideal c.f → c.k.Valid → Is x.a a →
    (∀ (v : Sys2Proof.Num) (l : ℚ), Is v l → Env.tick c x { stage := .attack, level := v } =
      if 1 ≤ l + 1 / stageTicks c a then { stage := .decay, level := .fin 1 }
      else { stage := .attack, level := .fin (l + 1 / stageTicks c a) }) ∧
    ∀ v : Sys2Proof.Num, Is v 0 →
      (∀ k : Nat, k < ⌈stageTicks c a⌉₊ →
        (envTicks c x k { stage := .attack, level := v }).stage = .attack ∧
        Is (envTicks c x k { stage := .attack, level := v }).level (k / stageTicks c a)) ∧
      envTicks c x ⌈stageTicks c a⌉₊ { stage := .attack, level := v } = { stage := .decay, level := .fin 1 }

/-- R178: in ideal semantics a release from level l0 falls by 1 / (max(R, 0.001) * SR) a tick and ends, IDLE at level 0,
after max(1, ceil(l0 * max(R, 0.001) * SR)) ticks. -/
def Obligations.ReleaseTakesItsTime : Prop :=
  ∀ (c : Config) (x : EnvSettings) (v : Sys2Proof.Num) (r l0 : ℚ), Ideal c.f → c.k.Valid → Is x.r r → Is v l0 →
    0 ≤ l0 → l0 ≤ 1 →
    (∀ k : Nat, k < max 1 ⌈l0 * stageTicks c r⌉₊ →
      (envTicks c x k { stage := .release, level := v }).stage = .release ∧
      Is (envTicks c x k { stage := .release, level := v }).level (l0 - k / stageTicks c r)) ∧
    envTicks c x (max 1 ⌈l0 * stageTicks c r⌉₊) { stage := .release, level := v } =
      { stage := .idle, level := .fin 0 }

/-- R200, R201: in ideal semantics sat08 is the identity up to 0.8, odd, and below 1 in magnitude, and maps the
infinities to 1 and -1; cub is at most 2/3 in magnitude, and exactly that from 1 on. -/
def Obligations.SaturatorsKeepTheirRange : Prop :=
  ∀ (c : Config) (v w : Sys2Proof.Num) (x : ℚ), Ideal c.f → Is v x → Is w (-x) →
    (∃ y : ℚ, Is (sat08 c v) y ∧ |y| < 1 ∧ (|x| ≤ 4 / 5 → y = x) ∧ (4 / 5 < |x| → 4 / 5 < |y|) ∧
      Is (sat08 c w) (-y)) ∧
    sat08 c (.inf false) = .fin 1 ∧ sat08 c (.inf true) = .fin (-1) ∧
    ∃ y : ℚ, cub c v = .fin y ∧ |y| ≤ 2 / 3 ∧ (1 ≤ |x| → |y| = 2 / 3)

/-- R156, R157, R163: in ideal semantics the low-pass output, and with it the feedback history, is below 1 in magnitude
for every input and every coefficient set, before and after the resonance compensation. -/
def Obligations.FilterFeedbackIsBounded : Prop :=
  ∀ (c : Config) (f : Flt) (v : Sys2Proof.Num) (x b0 b1 b2 a1 a2 x1 x2 y1 y2 r : ℚ), Ideal c.f → Is v x →
    Is f.b0 b0 → Is f.b1 b1 → Is f.b2 b2 → Is f.a1 a1 → Is f.a2 a2 → Is f.x1 x1 → Is f.x2 x2 → Is f.y1 y1 →
    Is f.y2 y2 → Is f.ru r → 0 ≤ r →
    ∃ y lp : ℚ, f.biquad c v = ({ f with x1 := v, x2 := f.x1, y1 := .fin y, y2 := f.y1 }, .fin y) ∧
      |y| < 1 ∧ f.compensate c (.fin y) = .fin lp ∧ lp = y / (1 + 2 * r) ∧ |lp| < 1

/-- R154: in ideal semantics resonance maps to Q by the rule's two lines, from 0.707 through 15 at 0.95 to 50. -/
def Obligations.ResonanceMapsIntoTheQRange : Prop :=
  ∀ (c : Config) (v : Sys2Proof.Num) (r : ℚ), Ideal c.f → Is v r → 0 ≤ r → r ≤ 1 →
    (r ≤ 95 / 100 → ∃ q : ℚ, qmap c v = .fin q ∧ q = 707 / 1000 + (15 - 707 / 1000) * r / (95 / 100) ∧
      707 / 1000 ≤ q ∧ q ≤ 15) ∧
    (95 / 100 < r → ∃ q : ℚ, qmap c v = .fin q ∧ q = 15 + (50 - 15) * (r - 95 / 100) / (5 / 100) ∧
      15 < q ∧ q ≤ 50)

/-- R221: in ideal semantics the tremolo's gain, once in [0.3, 1], stays there. -/
def Obligations.TremoloGainStaysInRange : Prop :=
  ∀ (c : Config) (p : Params) (t : Tremolo) (d h g θ : ℚ), Ideal c.f → c.k.Valid → Is (p.num .tremDepth) d →
    0 ≤ d → d ≤ 1 → Is (p.num .tremRate) h → Is t.theta θ → Is t.g g → 3 / 10 ≤ g → g ≤ 1 →
    ∃ g' : ℚ, (t.tick c p).2 = .fin g' ∧ (t.tick c p).1.g = .fin g' ∧ 3 / 10 ≤ g' ∧ g' ≤ 1

/-- R87, R204: in ideal semantics both elements each chorus tap interpolates between lie inside the line, for every
value of the LFO. -/
def Obligations.ChorusReadsStayInTheLine : Prop :=
  ∀ (c : Config) (md : Word) (m : ChorusMode) (lfo : Sys2Proof.Num) (σ : ℚ), Ideal c.f → c.k.Valid →
    chorusMode c md = some m → Is lfo σ → |σ| ≤ 1 →
    ∀ ms ∈ [c.f.add m.d0 (c.f.mul m.dep lfo), c.f.sub m.d0 (c.f.mul m.dep lfo)],
      ∃ d : ℚ, chorusOffset c ms = .fin d ∧ 0 ≤ d ∧ d ≤ (c.k.chN : ℚ) - 2 ∧
        tapOffset c c.k.chN (.fin d) = ⌊d⌋ ∧ 0 ≤ ⌊d⌋ ∧ ⌊d⌋ + 1 < c.k.chN

/-- R87, R210, R211: in ideal semantics the delay is DLY_TIME in samples, rounded half up, and lies inside the line
without the clamp. -/
def Obligations.DelayReadStaysInTheLine : Prop :=
  ∀ (c : Config) (p : Params) (t : ℚ), Ideal c.f → c.k.Valid → Is (p.num .dlyTime) t → 1 / 20 ≤ t → t ≤ 1 / 2 →
    delaySamples c p = ⌊t * c.k.sr + 1 / 2⌋ ∧ 1 ≤ delaySamples c p ∧ delaySamples c p ≤ (c.k.dlN : Int) - 1

/-- R285: in ideal semantics voice k of n has offset -dc + 2 * dc * k / (n - 1) cents, 0 for one voice, and ratio
2^(ck / 1200). R286: the offsets of two to eight voices are symmetric about 0, increasing where dc > 0, and reach from
-dc to dc. -/
def Obligations.UnisonOffsetsSpreadLinearly : Prop :=
  ∀ (c : Config) (n : Nat) (spread : Sys2Proof.Num) (dc : ℚ), Ideal c.f → 1 ≤ n → n ≤ 8 → Is spread dc → 0 ≤ dc →
    (∀ k : Fin 8, unisonCents c 1 spread k = .fin 0) ∧
    (∀ (v : Sys2Proof.Num) (x : ℚ), Is v x → detuneRatio c v = c.f.pow (.fin 2) (.fin (x / 1200))) ∧
    (1 < n → ∃ cents : Nat → ℚ,
      (∀ k : Fin 8, k.val < n → unisonCents c n spread k = .fin (cents k.val) ∧
        cents k.val = -dc + 2 * dc * k.val / (n - 1 : Nat)) ∧
      cents 0 = -dc ∧ cents (n - 1) = dc ∧
      (∀ k, k < n → cents k = -cents (n - 1 - k)) ∧
      (0 < dc → ∀ k k', k < k' → k' < n → cents k < cents k'))

/-- R30, R130: in ideal semantics an advanced phase is in [0, 1) and is the sum modulo 1. -/
def Obligations.PhasesStayBelowOne : Prop :=
  ∀ (c : Config) (ph step : Sys2Proof.Num) (a dt : ℚ), Ideal c.f → Is ph a → Is step dt →
    ∃ p : ℚ, advance c ph step = .fin p ∧ 0 ≤ p ∧ p < 1 ∧ ∃ z : ℤ, a + dt = p + z

/-- R241: in ideal semantics, with glide on and a glide time gt of at least 1 ms, every voice's frequency moves by the
part 1 - exp(-5 / (gt * SR)) of the way to its target, which is more than none and less than all of it and the same for
every voice and frequency; otherwise the frequency is the target. -/
def Obligations.GlideMovesTowardItsTarget : Prop :=
  ∀ (c : Config) (p : Params) (gt : ℚ), Ideal c.f → c.k.Valid → Is (p.num .glideTime) gt →
    (p.u .glideEn = 1 → 1 / 1000 ≤ gt →
      ∃ e k : ℚ, c.f.exp (.fin (-5 / (gt * c.k.sr))) = .fin e ∧ k = 1 - e ∧ 0 < k ∧ k < 1 ∧
        ∀ (v : SubVoice) (a b : ℚ), Is v.fCur a → Is v.fTarget b → glideStep c p v = .fin (a + k * (b - a))) ∧
    (p.u .glideEn ≠ 1 ∨ gt < 1 / 1000 → ∀ v : SubVoice, glideStep c p v = v.fTarget)

/-- R372, R373, R434, R435: in ideal semantics the first tick after reset, on either path and with any legal registers,
gives silence before the output stage. -/
def Obligations.ResetStateTicksSilent : Prop :=
  ∀ (c : Config) (p : Params), Ideal c.f → c.k.Valid → p.Legal →
    ((State.resetWith p).tick c).st.io.synOut = some (.fin 0, .fin 0)

/-- R193: a tap whose LFO_ROUTE bit is 0 is 0. -/
def Obligations.UnroutedTapsAreZero : Prop :=
  ∀ (c : Config) (p : Params) (raw : Sys2Proof.Num),
    ((p.u .lfoRoute).getLsbD 0 = false → (lfoTaps c p raw).pitch = .fin 0) ∧
    ((p.u .lfoRoute).getLsbD 1 = false → (lfoTaps c p raw).filter = .fin 0) ∧
    ((p.u .lfoRoute).getLsbD 2 = false → (lfoTaps c p raw).pw = .fin 0)

/-! The tick. -/

/-- R371 to R374, R376, R377, R378: a tick runs the chain of the selected path, in the order of the rule's pseudocode and
with that path's volume, over the path's slots in slot order, of which an IDLE one adds 0 and draws no noise; it adds
the external input to OUT_GAIN times the path's output, clips, and writes the words; and SYN_OUT is the path's output
before OUT_GAIN. Two things about a word are the model's reading and not these rules': that it is the clipped value
rounded to the nearest binary32 value, ties to even, whatever the number format is (log 19), and that a zero of negative
sign is written as 0x80000000 (log 1). -/
def Obligations.TickRunsThePathThroughTheOutputStage : Prop :=
  ∀ s : State,
    (s.P .mode = 0 →
      let o := subTickOf Config.chip s.params s.noiseCount s.sub
      (s.tick Config.chip).st.sub = o.1 ∧ OutputStage s o.2.1 o.2.2) ∧
    (s.P .mode ≠ 0 →
      let o := epTickOf Config.chip s.params s.noiseCount s.ep
      (s.tick Config.chip).st.ep = o.1 ∧ OutputStage s o.2.1 o.2.2)
end

