-- ==== Sys2Proof/Laws/Signal.lean ====
section
/-! SUPPORT. The operations on numbers: on finite operands, on zeros of either sign, and at the infinities. -/

namespace Sys2Proof.Laws

theorem rat_floor_eq (q : ℚ) : q.floor = ⌊q⌋ := by
  rw [eq_comm, Int.floor_eq_iff]
  exact ⟨Rat.floor_le q, by have := Rat.lt_floor_add_one q; push_cast at this; exact this⟩

theorem rat_ceil_eq (q : ℚ) : q.ceil = ⌈q⌉ := by
  rw [eq_comm, Int.ceil_eq_iff]
  exact ⟨by have := Rat.ceil_lt (x := q); linarith, Rat.le_ceil⟩

@[simp] theorem unsigned_fin (q : ℚ) : (Num.fin q).unsigned = .fin q := rfl

@[simp] theorem unsigned_negZero : Num.negZero.unsigned = .fin 0 := rfl

@[simp] theorem unsigned_inf (n : Bool) : (Num.inf n).unsigned = .inf n := rfl

@[simp] theorem unsigned_nan : Num.nan.unsigned = .nan := rfl

@[simp] theorem unsigned_unsigned (a : Num) : a.unsigned.unsigned = a.unsigned := by cases a <;> rfl

/-- Comparing does not see the sign of a zero. -/
theorem num_lt_unsigned (a b : Num) : Num.lt a.unsigned b.unsigned = Num.lt a b := by
  unfold Num.lt
  rw [unsigned_unsigned, unsigned_unsigned]

theorem num_le_unsigned (a b : Num) : Num.le a.unsigned b.unsigned = Num.le a b := by
  unfold Num.le
  rw [unsigned_unsigned, unsigned_unsigned]

@[simp] theorem num_lt_inf_fin (n : Bool) (b : ℚ) : Num.lt (.inf n) (.fin b) = n := rfl

@[simp] theorem num_lt_fin_inf (a : ℚ) (n : Bool) : Num.lt (.fin a) (.inf n) = !n := rfl

@[simp] theorem num_lt_inf_inf (m n : Bool) : Num.lt (.inf m) (.inf n) = (m && !n) := rfl

@[simp] theorem num_lt_nan_fin (b : ℚ) : Num.lt .nan (.fin b) = false := rfl

@[simp] theorem num_lt_fin_nan (a : ℚ) : Num.lt (.fin a) .nan = false := rfl

@[simp] theorem num_lt_negZero_fin (b : ℚ) : Num.lt .negZero (.fin b) = decide (0 < b) := rfl

@[simp] theorem num_lt_fin_negZero (a : ℚ) : Num.lt (.fin a) .negZero = decide (a < 0) := rfl

@[simp] theorem num_le_negZero_fin (b : ℚ) : Num.le .negZero (.fin b) = decide (0 ≤ b) := rfl

@[simp] theorem num_le_fin_negZero (a : ℚ) : Num.le (.fin a) .negZero = decide (a ≤ 0) := rfl

theorem isZero_iff (a : Num) : a.isZero = true ↔ a = .fin 0 ∨ a = .negZero := by
  unfold Num.isZero
  cases a <;> simp

@[simp] theorem num_lt_fin (a b : ℚ) : Num.lt (.fin a) (.fin b) = decide (a < b) := rfl

@[simp] theorem num_le_fin (a b : ℚ) : Num.le (.fin a) (.fin b) = decide (a ≤ b) := rfl

theorem num_max_fin (a b : ℚ) : Num.max (.fin a) (.fin b) = .fin (max a b) := by
  unfold Num.max
  by_cases h : b < a
  · simp [h, max_eq_left h.le]
  · simp [h, max_eq_right (not_lt.1 h)]

theorem num_min_fin (a b : ℚ) : Num.min (.fin a) (.fin b) = .fin (min a b) := by
  unfold Num.min
  by_cases h : a < b
  · simp [h, min_eq_left h.le]
  · simp [h, min_eq_right (not_lt.1 h)]

theorem num_clamp_fin (x lo hi : ℚ) : Num.clamp (.fin x) (.fin lo) (.fin hi) = .fin (min hi (max lo x)) := by
  rw [Num.clamp, num_max_fin, num_min_fin]

@[simp] theorem num_abs_fin (a : ℚ) : Num.abs (.fin a) = .fin |a| := rfl

/-- The negative, as a real. -/
theorem num_neg_unsigned {a : Num} {q : ℚ} (h : a.unsigned = .fin q) : (Num.neg a).unsigned = .fin (-q) := by
  cases a with
  | fin x =>
    obtain rfl : x = q := by simpa using h
    change (if x = 0 then Num.negZero else .fin (-x)).unsigned = _
    split
    · rename_i hx; simp [hx]
    · rfl
  | negZero =>
    obtain rfl : (0 : ℚ) = q := by simpa using h
    simp [Num.neg]
  | inf _ => cases h
  | nan => cases h

theorem num_floor_fin (a : ℚ) : Num.floor (.fin a) = .fin ⌊a⌋ := by
  rw [Num.floor, rat_floor_eq]

end Sys2Proof.Laws
end

