-- ==== Sys2Proof/Laws/F32.lean ====
section
/-! SUPPORT. Binary32 words and the numbers they stand for: the order of patterns is the order of values, clamping
patterns is clamping values, and rounding keeps [-1, 1]. -/

namespace Sys2Proof.Laws

open Sys2Proof.Machine

/-- A magnitude pattern's value in units of 2^-150. -/
def units (m : Nat) : Nat := if m < 2 ^ 23 then 2 * m else (2 ^ 23 + m % 2 ^ 23) * 2 ^ (m / 2 ^ 23)

theorem magValue_eq (m : Nat) : F32.magValue m = (units m : ℚ) / 2 ^ 150 := by
  unfold F32.magValue units
  split
  · push_cast; norm_num; ring
  · push_cast; ring

theorem units_strictMono : StrictMono units := by
  apply strictMono_nat_of_lt_succ
  intro m
  unfold units
  by_cases h : m + 1 < 2 ^ 23
  · rw [if_pos (by omega), if_pos h]; omega
  · by_cases h' : m < 2 ^ 23
    · have : m = 2 ^ 23 - 1 := by omega
      subst this
      norm_num
    · rw [if_neg h', if_neg h]
      by_cases hr : m % 2 ^ 23 = 2 ^ 23 - 1
      · have h1 : (m + 1) % 2 ^ 23 = 0 := by omega
        have h2 : (m + 1) / 2 ^ 23 = m / 2 ^ 23 + 1 := by omega
        rw [h1, h2, hr, pow_succ]
        generalize m / 2 ^ 23 = e
        have : 0 < 2 ^ e := by positivity
        omega
      · have h1 : (m + 1) % 2 ^ 23 = m % 2 ^ 23 + 1 := by omega
        have h2 : (m + 1) / 2 ^ 23 = m / 2 ^ 23 := by omega
        rw [h1, h2]
        exact Nat.mul_lt_mul_of_pos_right (by omega) (by positivity)

theorem magValue_lt_iff {a b : Nat} : F32.magValue a < F32.magValue b ↔ a < b := by
  rw [magValue_eq, magValue_eq, div_lt_div_iff_of_pos_right (by positivity), Nat.cast_lt]
  exact units_strictMono.lt_iff_lt

theorem magValue_nonneg (m : Nat) : 0 ≤ F32.magValue m := by rw [magValue_eq]; positivity

theorem magValue_zero : F32.magValue 0 = 0 := by simp [F32.magValue]

theorem magValue_pos {m : Nat} (h : 0 < m) : 0 < F32.magValue m := by
  have := magValue_lt_iff.2 h
  rwa [magValue_zero] at this

/-- The value of an integer key. -/
def keyValue (k : Int) : ℚ := if 0 ≤ k then F32.magValue k.toNat else -F32.magValue (-k).toNat

theorem keyValue_strictMono : StrictMono keyValue := by
  intro a b h
  unfold keyValue
  split <;> split
  · exact magValue_lt_iff.2 (by omega)
  · omega
  · have h1 : 0 < F32.magValue (-a).toNat := magValue_pos (by omega)
    have h2 := magValue_nonneg b.toNat
    linarith
  · have := magValue_lt_iff.2 (show (-b).toNat < (-a).toNat by omega)
    linarith

/-- A pattern that is no NaN, by its key, as a real. -/
theorem toNum_eq {w : Word} (h : F32.isNaN w = false) :
    (F32.toNum w).unsigned =
      if F32.key w = 0x7F800000 then .inf false
      else if F32.key w = -0x7F800000 then .inf true else .fin (keyValue (F32.key w)) := by
  have hm : F32.mag w ≤ 0x7F800000 := by simpa [F32.isNaN] using h
  unfold F32.toNum
  rw [h, if_neg (by simp)]
  unfold F32.key
  cases F32.isNeg w
  · by_cases h1 : F32.mag w = 0x7F800000
    · simp [h1]
    · have h2 : (F32.mag w : Int) ≠ 0x7F800000 := by omega
      have h3 : (F32.mag w : Int) ≠ -0x7F800000 := by omega
      simp [h1, h2, h3, keyValue]
  · by_cases h1 : F32.mag w = 0x7F800000
    · simp [h1]
    · have h2 : -(F32.mag w : Int) ≠ 0x7F800000 := by omega
      have h3 : -(F32.mag w : Int) ≠ -0x7F800000 := by omega
      by_cases h4 : F32.mag w = 0
      · simp [h4, keyValue, magValue_zero]
      · rw [if_neg h1, if_pos rfl, if_neg h4]
        have h5 : ¬ (0 : Int) ≤ -(F32.mag w : Int) := by omega
        simp only [h2, h3, keyValue, h5, if_true, if_false, neg_neg, Int.toNat_natCast, unsigned_fin]

theorem key_bounds {w : Word} (h : F32.isNaN w = false) :
    -0x7F800000 ≤ F32.key w ∧ F32.key w ≤ 0x7F800000 := by
  have hm : F32.mag w ≤ 0x7F800000 := by simpa [F32.isNaN] using h
  unfold F32.key
  split <;> omega

/-- On patterns that are no NaN, the integer key orders as the values do. -/
theorem toNum_lt {a b : Word} (ha : F32.isNaN a = false) (hb : F32.isNaN b = false) :
    Num.lt (F32.toNum a) (F32.toNum b) = decide (F32.key a < F32.key b) := by
  rw [← num_lt_unsigned, toNum_eq ha, toNum_eq hb]
  have ba := key_bounds ha
  have bb := key_bounds hb
  have hl := @StrictMono.lt_iff_lt _ _ _ _ _ keyValue_strictMono (F32.key a) (F32.key b)
  generalize F32.key a = m at *
  generalize F32.key b = n at *
  by_cases h1 : m = 0x7F800000
  · rw [if_pos h1]
    by_cases h2 : n = 0x7F800000
    · simp [h2, h1]
    · rw [if_neg h2]
      by_cases h3 : n = -0x7F800000 <;> simp [h3] <;> omega
  · rw [if_neg h1]
    by_cases h2 : m = -0x7F800000
    · rw [if_pos h2]
      by_cases h3 : n = 0x7F800000
      · simp [h3]; omega
      · rw [if_neg h3]
        by_cases h4 : n = -0x7F800000 <;> simp [h4] <;> omega
    · rw [if_neg h2]
      by_cases h3 : n = 0x7F800000
      · simp [h3]; omega
      · rw [if_neg h3]
        by_cases h4 : n = -0x7F800000
        · simp [h4]; omega
        · simp [h4, hl]

/-- Clamping a pattern clamps its value. -/
theorem toNum_clamp {lo hi w : Word} (hlo : F32.isNaN lo = false) (hhi : F32.isNaN hi = false)
    (hw : F32.isNaN w = false) (h : F32.key lo ≤ F32.key hi) :
    F32.toNum (F32.clamp lo hi w) = Num.clamp (F32.toNum w) (F32.toNum lo) (F32.toNum hi) := by
  unfold F32.clamp Num.clamp Num.max Num.min
  rw [toNum_lt hw hlo]
  by_cases h1 : F32.key w < F32.key lo
  · have h2 : ¬ F32.key hi < F32.key lo := by omega
    simp [h1, toNum_lt hhi hlo, h2]
  · by_cases h2 : F32.key hi < F32.key w <;> simp [h1, toNum_lt hhi hw, h2]

theorem isNaN_clamp {lo hi w : Word} (hlo : F32.isNaN lo = false) (hhi : F32.isNaN hi = false)
    (hw : F32.isNaN w = false) : F32.isNaN (F32.clamp lo hi w) = false := by
  unfold F32.clamp
  split
  · exact hlo
  · split
    · exact hhi
    · exact hw

theorem key_clamp {lo hi w : Word} (h : F32.key lo ≤ F32.key hi) :
    F32.key lo ≤ F32.key (F32.clamp lo hi w) ∧ F32.key (F32.clamp lo hi w) ≤ F32.key hi := by
  unfold F32.clamp
  split
  · omega
  · split <;> omega

/-! The zero a register keeps. -/

/-- The zero kept is the zero given, as a real. -/
theorem keptZero_unsigned (keep : Bool) (w : Word) :
    (F32.toNum (F32.keptZero keep w)).unsigned = (F32.toNum w).unsigned := by
  unfold F32.keptZero
  split
  · rename_i h
    subst h
    cases keep <;> decide +kernel
  · rfl

@[simp] theorem isNaN_keptZero (keep : Bool) (w : Word) : F32.isNaN (F32.keptZero keep w) = F32.isNaN w := by
  unfold F32.keptZero
  split
  · rename_i h
    subst h
    cases keep <;> decide
  · rfl

@[simp] theorem key_keptZero (keep : Bool) (w : Word) : F32.key (F32.keptZero keep w) = F32.key w := by
  unfold F32.keptZero
  split
  · rename_i h
    subst h
    cases keep <;> decide
  · rfl

/-! Rounding. -/

theorem roundHalfEven_le {n d b : Nat} (hd : 0 < d) (h : n ≤ b * d) : F32.roundHalfEven n d ≤ b := by
  have hle : n / d ≤ b := Nat.div_le_of_le_mul (by rwa [Nat.mul_comm] at h)
  unfold F32.roundHalfEven
  by_cases hb : n / d = b
  · have hmod : n % d = 0 := by
      have := Nat.div_add_mod n d
      rw [hb] at this
      have : d * b = b * d := Nat.mul_comm _ _
      omega
    rw [if_pos (by omega)]
    exact hle
  · split
    · exact hle
    · split
      · omega
      · omega

theorem powLe_iff (e : Int) (n d : Nat) (hd : 0 < d) : F32.powLe e n d = true ↔ (2 : ℚ) ^ e ≤ (n : ℚ) / d := by
  have hd' : (0 : ℚ) < d := by exact_mod_cast hd
  unfold F32.powLe
  rw [le_div_iff₀ hd']
  split
  · rename_i h
    obtain ⟨k, rfl⟩ := Int.eq_ofNat_of_zero_le h
    simp only [decide_eq_true_eq, Int.toNat_natCast, zpow_natCast]
    rw [mul_comm]
    norm_cast
  · rename_i h
    obtain ⟨k, hk⟩ : ∃ k : Nat, e = -(k : Int) := ⟨(-e).toNat, by omega⟩
    subst hk
    simp only [decide_eq_true_eq, neg_neg, Int.toNat_natCast, zpow_neg, zpow_natCast]
    rw [inv_mul_le_iff₀ (by positivity), mul_comm]
    norm_cast

/-- The exponent is large enough. -/
theorem lt_pow_expo {n d : Nat} (hn : 0 < n) (hd : 0 < d) : (n : ℚ) / d < 2 ^ (F32.expo n d + 1) := by
  have hd' : (0 : ℚ) < d := by exact_mod_cast hd
  unfold F32.expo
  simp only
  split
  · have h1 : n < 2 ^ (Nat.log2 n + 1) := Nat.lt_log2_self
    have h2 : 2 ^ Nat.log2 d ≤ d := Nat.log2_self_le (by omega)
    have h1' : (n : ℚ) < 2 ^ (Nat.log2 n + 1) := by exact_mod_cast h1
    have h2' : (2 : ℚ) ^ Nat.log2 d ≤ d := by exact_mod_cast h2
    have h3 : ((Nat.log2 n : Int) - (Nat.log2 d : Int)) + 1 = ((Nat.log2 n + 1 : Nat) : Int) - (Nat.log2 d : Int) := by
      push_cast; ring
    rw [h3, zpow_sub₀ (by norm_num), zpow_natCast, zpow_natCast]
    have h4 : (0 : ℚ) < 2 ^ Nat.log2 d := by positivity
    rw [div_lt_div_iff₀ hd' h4]
    calc (n : ℚ) * 2 ^ Nat.log2 d ≤ n * d := by gcongr
      _ < 2 ^ (Nat.log2 n + 1) * d := by gcongr
  · rename_i h
    rw [powLe_iff _ _ _ hd] at h
    rw [sub_add_cancel]
    exact not_le.1 h

/-- A ratio of at most 1 rounds to a magnitude of at most 1. -/
theorem magOf_le_one {n d : Nat} (hd : 0 < d) (h : n ≤ d) : F32.magOf n d ≤ 0x3F800000 := by
  unfold F32.magOf
  split
  · omega
  · rename_i hn
    have hn : 0 < n := by omega
    have hd' : (0 : ℚ) < d := by exact_mod_cast hd
    have hle : (n : ℚ) / d ≤ 1 := by rw [div_le_one hd']; exact_mod_cast h
    have hup := lt_pow_expo hn hd
    have he : F32.expo n d ≤ 0 := by
      by_contra hc
      have h2 : F32.powLe 1 n d = false := by
        rw [Bool.eq_false_iff]
        intro h3
        rw [powLe_iff _ _ _ hd] at h3
        norm_num at h3
        linarith
      have h4 : F32.powLe (F32.expo n d) n d = true := by
        unfold F32.expo at hc ⊢
        simp only at hc ⊢
        split
        · assumption
        · rename_i h5
          rw [if_neg h5] at hc
          exact absurd hle (not_le.2 (by
            have h6 : (2 : ℚ) ^ (1 : Int) ≤ 2 ^ ((Nat.log2 n : Int) - (Nat.log2 d : Int) - 1) :=
              zpow_le_zpow_right₀ (by norm_num) (by omega)
            have h7 : (Nat.log2 d : Int) + 2 ≤ Nat.log2 n := by omega
            have h8 : d < 2 ^ (Nat.log2 d + 1) := Nat.lt_log2_self
            have h9 : 2 ^ Nat.log2 n ≤ n := Nat.log2_self_le (by omega)
            have h10 : 2 ^ (Nat.log2 d + 1) ≤ 2 ^ Nat.log2 n := Nat.pow_le_pow_right (by omega) (by omega)
            omega))
      rw [powLe_iff _ _ _ hd] at h4
      have h6 : (2 : ℚ) ^ (1 : Int) ≤ 2 ^ F32.expo n d := zpow_le_zpow_right₀ (by norm_num) (by omega)
      norm_num at h6
      linarith
    have hE : max (F32.expo n d) (-126) ≤ 0 := by omega
    have hE2 : F32.expo n d ≤ max (F32.expo n d) (-126) := le_max_left _ _
    have hE3 : -126 ≤ max (F32.expo n d) (-126) := le_max_right _ _
    generalize max (F32.expo n d) (-126) = e at *
    have hr : F32.roundScaled n d (23 - e) ≤ if e = 0 then 2 ^ 23 else 2 ^ 24 := by
      unfold F32.roundScaled
      rw [if_pos (by omega)]
      apply roundHalfEven_le hd
      split
      · rename_i h0
        subst h0
        have h1 : ((23 : Int) - 0).toNat = 23 := rfl
        rw [h1]
        omega
      · have h1 : (n : ℚ) / d < 2 ^ (e + 1) :=
          lt_of_lt_of_le hup (zpow_le_zpow_right₀ (by norm_num) (by omega))
        rw [div_lt_iff₀ hd'] at h1
        have h2 : ((n * 2 ^ (23 - e).toNat : Nat) : ℚ) < ((2 ^ 24 * d : Nat) : ℚ) := by
          push_cast
          have h3 : (2 : ℚ) ^ (23 - e).toNat = 2 ^ (23 - e) := by
            rw [← zpow_natCast]; congr 1; omega
          rw [h3]
          calc (n : ℚ) * 2 ^ (23 - e) < 2 ^ (e + 1) * d * 2 ^ (23 - e) := by
                have : (0 : ℚ) < 2 ^ (23 - e) := by positivity
                gcongr
            _ = 2 ^ ((e + 1) + (23 - e)) * d := by
                rw [zpow_add₀ (by norm_num) (e + 1)]; ring
            _ = 2 ^ 24 * d := by
                have : (e + 1) + (23 - e) = ((24 : Nat) : Int) := by push_cast; ring
                rw [this, zpow_natCast]
        exact le_of_lt (by exact_mod_cast h2)
    refine le_trans (min_le_right _ _) ?_
    split at hr
    · rename_i h0
      subst h0
      norm_num
      norm_num at hr
      omega
    · have : (e + 126).toNat ≤ 125 := by omega
      calc (e + 126).toNat * 2 ^ 23 + F32.roundScaled n d (23 - e) ≤ 125 * 2 ^ 23 + 2 ^ 24 := by gcongr
        _ = 0x3F800000 := by norm_num

/-- A word is a binary32 value in [-1, 1]: no NaN, and a magnitude of at most 1. -/
theorem heldToUnit_range (w : Word) :
    F32.isNaN (F32.heldToUnit w) = false ∧ F32.mag (F32.heldToUnit w) ≤ 0x3F800000 := by
  unfold F32.heldToUnit
  split
  · decide
  · rename_i h
    have hw : F32.isNaN w = false := by simpa using h
    refine ⟨isNaN_clamp (by decide) (by decide) hw, ?_⟩
    have := @key_clamp 0xBF800000 0x3F800000 w (by decide)
    have k1 : F32.key 0xBF800000 = -0x3F800000 := by decide
    have k2 : F32.key 0x3F800000 = 0x3F800000 := by decide
    rw [k1, k2] at this
    unfold F32.key at this
    split at this <;> omega

theorem ofRat_range {q : ℚ} (h1 : -1 ≤ q) (h2 : q ≤ 1) :
    F32.isNaN (F32.ofRat q) = false ∧ F32.mag (F32.ofRat q) ≤ 0x3F800000 := by
  have hn : q.num.natAbs ≤ q.den := by
    have h3 : |q| ≤ 1 := abs_le.2 ⟨h1, h2⟩
    have h4 : |q| = (q.num.natAbs : ℚ) / q.den := by
      conv_lhs => rw [← Rat.num_div_den q, abs_div]
      rw [Nat.abs_cast, Nat.cast_natAbs, Int.cast_abs]
    rw [h4, div_le_one (by exact_mod_cast q.den_pos)] at h3
    exact_mod_cast h3
  have hm := magOf_le_one q.den_pos hn
  have hw : F32.mag (F32.ofRat q) = F32.magOf q.num.natAbs q.den := by
    unfold F32.mag F32.ofRat
    rw [BitVec.toNat_ofNat]
    split <;> omega
  refine ⟨?_, by rw [hw]; exact hm⟩
  unfold F32.isNaN
  rw [hw]
  simp
  omega

end Sys2Proof.Laws
end

