-- ==== Sys2Proof/Laws/State.lean ====
section
/-! SUPPORT. What each update of the state leaves in each field, so that no later proof unfolds a record update. -/

namespace Sys2Proof.Laws

open Sys2Proof.Machine

/-! The register file. -/

theorem regIdx_injective : Function.Injective regIdx := by
  intro a b h
  cases a <;> cases b <;> first | rfl | (exact absurd h (by decide))

@[simp] theorem u_put_same (p : Params) (r : Reg) (v : Word) : (p.put r v).u r = v := by
  simp [Params.put, Params.u]

theorem u_put_other (p : Params) {r r' : Reg} (v : Word) (h : r' ≠ r) : (p.put r v).u r' = p.u r' := by
  have : (regIdx r : Nat) ≠ regIdx r' := fun e => h (regIdx_injective (Fin.ext e)).symm
  simp [Params.put, Params.u, this]

theorem put_put_same (p : Params) (r : Reg) (v w : Word) : (p.put r v).put r w = p.put r w := by
  simp [Params.put]

theorem put_comm (p : Params) {r r' : Reg} (v w : Word) (h : r ≠ r') :
    (p.put r v).put r' w = (p.put r' w).put r v := by
  have : (regIdx r : Nat) ≠ regIdx r' := fun e => h (regIdx_injective (Fin.ext e))
  simp only [Params.put]
  exact Vector.set_comm _ _ this

/-- Two register files with the same registers are the same. -/
theorem params_ext {p q : Params} (h : ∀ r, p.u r = q.u r) : p = q := by
  apply Vector.ext
  intro i hi
  have key : ∀ i : Fin 38, ∃ r, regIdx r = i := by
    intro i
    fin_cases i
    exacts [⟨.oscWaves, rfl⟩, ⟨.oscPw, rfl⟩, ⟨.subMix, rfl⟩, ⟨.noiseMix, rfl⟩, ⟨.fltCutoff, rfl⟩,
      ⟨.fltRes, rfl⟩, ⟨.fltHpf, rfl⟩, ⟨.fltKeytrack, rfl⟩, ⟨.fltEnvamt, rfl⟩, ⟨.aenvA, rfl⟩, ⟨.aenvD, rfl⟩,
      ⟨.aenvS, rfl⟩, ⟨.aenvR, rfl⟩, ⟨.fenvA, rfl⟩, ⟨.fenvD, rfl⟩, ⟨.fenvS, rfl⟩, ⟨.fenvR, rfl⟩,
      ⟨.lfoRate, rfl⟩, ⟨.lfoDepth, rfl⟩, ⟨.lfoRoute, rfl⟩, ⟨.chorusSMode, rfl⟩, ⟨.glideEn, rfl⟩,
      ⟨.glideTime, rfl⟩, ⟨.unisonEn, rfl⟩, ⟨.unisonN, rfl⟩, ⟨.unisonSpread, rfl⟩, ⟨.tremRate, rfl⟩,
      ⟨.tremDepth, rfl⟩, ⟨.chorusEMode, rfl⟩, ⟨.dlyTime, rfl⟩, ⟨.dlyFb, rfl⟩, ⟨.dlyMix, rfl⟩,
      ⟨.revSize, rfl⟩, ⟨.revDamp, rfl⟩, ⟨.revMix, rfl⟩, ⟨.epVol, rfl⟩, ⟨.mode, rfl⟩, ⟨.masterVol, rfl⟩]
  obtain ⟨r, hr⟩ := key ⟨i, hi⟩
  have := h r
  simp only [Params.u, hr] at this
  exact this

/-! A register write on the state. -/

variable (s : State) (r : Reg) (v : Word)

@[simp] theorem setP_params : (s.setP r v).params = s.params.put r v := rfl
@[simp] theorem setP_sub : (s.setP r v).sub = s.sub := rfl
@[simp] theorem setP_ep : (s.setP r v).ep = s.ep := rfl
@[simp] theorem setP_restartInFlight : (s.setP r v).restartInFlight = s.restartInFlight := rfl
@[simp] theorem setP_mem : (s.setP r v).mem = s.mem := rfl
@[simp] theorem setP_io : (s.setP r v).io = s.io := rfl
@[simp] theorem setP_noiseCount : (s.setP r v).noiseCount = s.noiseCount := rfl
@[simp] theorem setP_tickCount : (s.setP r v).tickCount = s.tickCount := rfl
@[simp] theorem setP_P_same : (s.setP r v).P r = v := u_put_same s.params r v
theorem setP_P_other {r' : Reg} (h : r' ≠ r) : (s.setP r v).P r' = s.P r' := u_put_other s.params v h

/-! The two paths' ticks. -/

variable (c : Config)

@[simp] theorem subPathTick_gS (p : Params) (n : Nat) (x : SubPath) : (x.tick c p n).path.gS = x.gS := by
  simp only [SubPath.tick]
@[simp] theorem epPathTick_gE (p : Params) (n : Nat) (x : EpPath) : (x.tick c p n).path.gE = x.gE := by
  simp only [EpPath.tick]

@[simp] theorem subTick_params : (s.subTick c).st.params = s.params := by simp only [State.subTick]
@[simp] theorem subTick_sub : (s.subTick c).st.sub = (s.sub.tick c s.params s.noiseCount).path := by
  simp only [State.subTick]
@[simp] theorem subTick_ep : (s.subTick c).st.ep = s.ep := by simp only [State.subTick]
@[simp] theorem subTick_restartInFlight : (s.subTick c).st.restartInFlight = s.restartInFlight := by
  simp only [State.subTick]
@[simp] theorem subTick_mem : (s.subTick c).st.mem = s.mem := by simp only [State.subTick]
@[simp] theorem subTick_io : (s.subTick c).st.io = s.io := by simp only [State.subTick]
@[simp] theorem subTick_tickCount : (s.subTick c).st.tickCount = s.tickCount := by simp only [State.subTick]
@[simp] theorem epTick_params : (s.epTick c).st.params = s.params := by simp only [State.epTick]
@[simp] theorem epTick_sub : (s.epTick c).st.sub = s.sub := by simp only [State.epTick]
@[simp] theorem epTick_ep : (s.epTick c).st.ep = (s.ep.tick c s.params s.noiseCount).path := by
  simp only [State.epTick]
@[simp] theorem epTick_restartInFlight : (s.epTick c).st.restartInFlight = s.restartInFlight := by
  simp only [State.epTick]
@[simp] theorem epTick_mem : (s.epTick c).st.mem = s.mem := by simp only [State.epTick]
@[simp] theorem epTick_io : (s.epTick c).st.io = s.io := by simp only [State.epTick]
@[simp] theorem epTick_tickCount : (s.epTick c).st.tickCount = s.tickCount := by simp only [State.epTick]

@[simp] theorem pathTick_params : (s.pathTick c).st.params = s.params := by cases h : s.params.isSub <;> simp [State.pathTick, h]
@[simp] theorem pathTick_gS : (s.pathTick c).st.sub.gS = s.sub.gS := by cases h : s.params.isSub <;> simp [State.pathTick, h]
@[simp] theorem pathTick_gE : (s.pathTick c).st.ep.gE = s.ep.gE := by cases h : s.params.isSub <;> simp [State.pathTick, h]
@[simp] theorem pathTick_restartInFlight : (s.pathTick c).st.restartInFlight = s.restartInFlight := by
  cases h : s.params.isSub <;> simp [State.pathTick, h]
@[simp] theorem pathTick_mem : (s.pathTick c).st.mem = s.mem := by cases h : s.params.isSub <;> simp [State.pathTick, h]
@[simp] theorem pathTick_io : (s.pathTick c).st.io = s.io := by cases h : s.params.isSub <;> simp [State.pathTick, h]
@[simp] theorem pathTick_tickCount : (s.pathTick c).st.tickCount = s.tickCount := by
  cases h : s.params.isSub <;> simp [State.pathTick, h]

/-! A tick. -/

@[simp] theorem tick_params : (s.tick c).st.params = s.params := by simp [State.tick]
@[simp] theorem tick_sub : (s.tick c).st.sub = (s.pathTick c).st.sub := by simp only [State.tick]
@[simp] theorem tick_ep : (s.tick c).st.ep = (s.pathTick c).st.ep := by simp only [State.tick]
@[simp] theorem tick_restartInFlight : (s.tick c).st.restartInFlight = s.restartInFlight := by
  simp [State.tick]
@[simp] theorem tick_mem : (s.tick c).st.mem = s.mem := by simp [State.tick]
@[simp] theorem tick_noiseCount : (s.tick c).st.noiseCount = (s.pathTick c).st.noiseCount := by simp only [State.tick]
@[simp] theorem tick_tickCount : (s.tick c).st.tickCount = s.tickCount + 1 := by simp only [State.tick]
theorem tick_io : (s.tick c).st.io = { s.io with synOut := some ((s.pathTick c).yL, (s.pathTick c).yR) } := by
  simp [State.tick]

/-! A frame. -/

variable (j : Job)

@[simp] theorem frame_params : (s.renderFrame c j).params = s.params := by simp [State.renderFrame]
@[simp] theorem frame_sub : (s.renderFrame c j).sub = (s.pathTick c).st.sub := by
  simp only [State.renderFrame, State.tick]
@[simp] theorem frame_ep : (s.renderFrame c j).ep = (s.pathTick c).st.ep := by
  simp only [State.renderFrame, State.tick]
@[simp] theorem frame_restartInFlight : (s.renderFrame c j).restartInFlight = s.restartInFlight := by
  simp [State.renderFrame]
@[simp] theorem frame_noiseCount : (s.renderFrame c j).noiseCount = (s.pathTick c).st.noiseCount := by
  simp only [State.renderFrame, State.tick]
@[simp] theorem frame_tickCount : (s.renderFrame c j).tickCount = s.tickCount + 1 := by
  simp only [State.renderFrame, State.tick]
theorem frame_mem : (s.renderFrame c j).mem = Memory.writeFrame s.mem j.base j.next (s.tick c).l (s.tick c).r := by
  simp [State.renderFrame]
theorem frame_io : (s.renderFrame c j).io = (s.tick c).st.io.afterFrame j := by simp only [State.renderFrame]

@[simp] theorem afterFrame_ctrlIn (x : Ports) : (x.afterFrame j).ctrlIn = x.ctrlIn := by
  unfold Ports.afterFrame; split <;> rfl
@[simp] theorem afterFrame_audioIn (x : Ports) : (x.afterFrame j).audioIn = x.audioIn := by
  unfold Ports.afterFrame; split <;> rfl
@[simp] theorem afterFrame_platIn (x : Ports) : (x.afterFrame j).platIn = x.platIn := by
  unfold Ports.afterFrame; split <;> rfl
@[simp] theorem afterFrame_turns (x : Ports) : (x.afterFrame j).turns = x.turns := by
  unfold Ports.afterFrame; split <;> rfl
@[simp] theorem afterFrame_buf (x : Ports) : (x.afterFrame j).buf = x.buf := by
  unfold Ports.afterFrame; split <;> rfl
@[simp] theorem afterFrame_synOut (x : Ports) : (x.afterFrame j).synOut = x.synOut := by
  unfold Ports.afterFrame; split <;> rfl

/-! The restart flag and a tick. -/

theorem subTick_restart (s : State) (b : Bool) (c : Config) : ({ s with restartInFlight := b } : State).subTick c =
    { s.subTick c with st := { (s.subTick c).st with restartInFlight := b } } := by
  simp only [State.subTick]

theorem epTick_restart (s : State) (b : Bool) (c : Config) : ({ s with restartInFlight := b } : State).epTick c =
    { s.epTick c with st := { (s.epTick c).st with restartInFlight := b } } := by
  simp only [State.epTick]

theorem pathTick_restart (s : State) (b : Bool) (c : Config) : ({ s with restartInFlight := b } : State).pathTick c =
    { s.pathTick c with st := { (s.pathTick c).st with restartInFlight := b } } := by
  unfold State.pathTick
  rw [subTick_restart, epTick_restart]
  cases s.params.isSub
  · simp only [Bool.false_eq_true, if_false]
  · simp only [if_true]

/-- A frame of a render neither reads nor writes the restart flag. -/
theorem renderFrame_restart (s : State) (b : Bool) (c : Config) (j : Job) :
    ({ s with restartInFlight := b } : State).renderFrame c j =
      { s.renderFrame c j with restartInFlight := b } := by
  simp only [State.renderFrame, State.tick, pathTick_restart]

end Sys2Proof.Laws
end

