-- ==== Sys2Proof/Laws/Store.lean ====
section
/-! SUPPORT. The laws of lists of cells, of memory and of delay lines: what a write leaves to a read, and that each
operation keeps the canonical form. -/

namespace Sys2Proof.Laws

open Sys2Proof.Machine

variable {α : Type}

theorem rising_cons {k : Nat} {v : α} {l : List (Nat × α)} :
    rising ((k, v) :: l) = true ↔ (∀ e ∈ l, k < e.1) ∧ rising l = true := by
  simp [rising]

/-- In a rising list whose keys all lie above a, a has no entry. -/
theorem cellAt_eq_none_of_lt {l : List (Nat × α)} {a : Nat} (h : ∀ e ∈ l, a < e.1) : cellAt l a = none := by
  induction l with
  | nil => rfl
  | cons e l ih =>
    obtain ⟨k, v⟩ := e
    have hk : k ≠ a := by have := h (k, v) (by simp); simp at this; omega
    simp [cellAt, hk, ih fun e he => h e (by simp [he])]

theorem cellAt_putCell_same (l : List (Nat × α)) (a : Nat) (x : α) : cellAt (putCell l a x) a = some x := by
  induction l with
  | nil => simp [putCell, cellAt]
  | cons e l ih =>
    obtain ⟨k, v⟩ := e
    simp only [putCell]
    split
    · simp [cellAt]
    · split
      · simp [cellAt]
      · simp [cellAt, *]

theorem cellAt_putCell_other (l : List (Nat × α)) {a b : Nat} (x : α) (h : b ≠ a) :
    cellAt (putCell l a x) b = cellAt l b := by
  induction l with
  | nil => simp [putCell, cellAt, Ne.symm h]
  | cons e l ih =>
    obtain ⟨k, v⟩ := e
    simp only [putCell]
    split
    · simp [cellAt, Ne.symm h]
    · split
      · rename_i hk
        subst hk
        simp [cellAt, Ne.symm h]
      · simp [cellAt, ih]

theorem mem_putCell {l : List (Nat × α)} {a : Nat} {x : α} {e : Nat × α} (h : e ∈ putCell l a x) :
    e = (a, x) ∨ e ∈ l := by
  induction l with
  | nil => simpa [putCell] using h
  | cons f l ih =>
    obtain ⟨k, v⟩ := f
    simp only [putCell] at h
    split at h
    · simpa using h
    · split at h
      · simp only [List.mem_cons] at h ⊢; tauto
      · simp only [List.mem_cons] at h ⊢; tauto

theorem rising_putCell {l : List (Nat × α)} (a : Nat) (x : α) (h : rising l = true) :
    rising (putCell l a x) = true := by
  induction l with
  | nil => simp [putCell, rising]
  | cons e l ih =>
    obtain ⟨k, v⟩ := e
    obtain ⟨hk, hl⟩ := rising_cons.1 h
    simp only [putCell]
    split
    · rename_i hlt
      refine rising_cons.2 ⟨?_, h⟩
      intro e he
      rcases List.mem_cons.1 he with rfl | he
      · exact hlt
      · exact lt_trans hlt (hk e he)
    · split
      · rename_i hka
        subst hka
        exact rising_cons.2 ⟨hk, hl⟩
      · refine rising_cons.2 ⟨?_, ih hl⟩
        intro e he
        rcases mem_putCell he with rfl | he
        · simp; omega
        · exact hk e he

theorem mem_of_mem_dropCell {l : List (Nat × α)} {a : Nat} {e : Nat × α} (h : e ∈ dropCell l a) : e ∈ l := by
  induction l with
  | nil => simp [dropCell] at h
  | cons f l ih =>
    obtain ⟨k, v⟩ := f
    simp only [dropCell] at h
    split at h
    · exact List.mem_cons_of_mem _ h
    · rcases List.mem_cons.1 h with rfl | h
      · simp
      · exact List.mem_cons_of_mem _ (ih h)

theorem rising_dropCell {l : List (Nat × α)} (a : Nat) (h : rising l = true) : rising (dropCell l a) = true := by
  induction l with
  | nil => simp [dropCell, rising]
  | cons e l ih =>
    obtain ⟨k, v⟩ := e
    obtain ⟨hk, hl⟩ := rising_cons.1 h
    simp only [dropCell]
    split
    · exact hl
    · exact rising_cons.2 ⟨fun e he => hk e (mem_of_mem_dropCell he), ih hl⟩

theorem cellAt_dropCell_same {l : List (Nat × α)} (a : Nat) (h : rising l = true) :
    cellAt (dropCell l a) a = none := by
  induction l with
  | nil => rfl
  | cons e l ih =>
    obtain ⟨k, v⟩ := e
    obtain ⟨hk, hl⟩ := rising_cons.1 h
    simp only [dropCell]
    split
    · rename_i hka
      subst hka
      exact cellAt_eq_none_of_lt hk
    · rename_i hka
      simp [cellAt, hka, ih hl]

theorem cellAt_dropCell_other (l : List (Nat × α)) {a b : Nat} (h : b ≠ a) :
    cellAt (dropCell l a) b = cellAt l b := by
  induction l with
  | nil => rfl
  | cons e l ih =>
    obtain ⟨k, v⟩ := e
    simp only [dropCell]
    split
    · rename_i hka
      subst hka
      simp [cellAt, Ne.symm h]
    · simp [cellAt, ih]

/-! Memory. -/

theorem read_write_same (m : Memory) (a : Nat) (b : Byte) : Memory.read (Memory.write m a b) a = some b :=
  cellAt_putCell_same m a b

theorem read_write_other (m : Memory) {a a' : Nat} (b : Byte) (h : a' ≠ a) :
    Memory.read (Memory.write m a b) a' = Memory.read m a' :=
  cellAt_putCell_other m b h

theorem wf_write {m : Memory} (a : Nat) (b : Byte) (h : Memory.wf m = true) :
    Memory.wf (Memory.write m a b) = true :=
  rising_putCell a b h

theorem wf_write32 {m : Memory} (a : Nat) (v : Word) (h : Memory.wf m = true) :
    Memory.wf (Memory.write32 m a v) = true :=
  wf_write _ _ (wf_write _ _ (wf_write _ _ (wf_write _ _ h)))

theorem read_write32_other (m : Memory) {a a' : Nat} (v : Word) (h : a' < a ∨ a + 4 ≤ a') :
    Memory.read (Memory.write32 m a v) a' = Memory.read m a' := by
  unfold Memory.write32
  rw [read_write_other, read_write_other, read_write_other, read_write_other] <;> omega

/-- The four bytes of a word written, lowest address first. -/
theorem read_write32_byte (m : Memory) (a : Nat) (v : Word) (k : Nat) (h : k < 4) :
    Memory.read (Memory.write32 m a v) (a + k) = some (v.extractLsb' (8 * k) 8) := by
  have : k = 0 ∨ k = 1 ∨ k = 2 ∨ k = 3 := by omega
  unfold Memory.write32
  rcases this with rfl | rfl | rfl | rfl
  · rw [read_write_other _ _ (by omega), read_write_other _ _ (by omega), read_write_other _ _ (by omega)]
    exact read_write_same _ _ _
  · rw [read_write_other _ _ (by omega), read_write_other _ _ (by omega)]
    exact read_write_same _ _ _
  · rw [read_write_other _ _ (by omega)]
    exact read_write_same _ _ _
  · exact read_write_same _ _ _

theorem joinBytes (v : Word) :
    v.extractLsb' 24 8 ++ (v.extractLsb' 16 8 ++ (v.extractLsb' 8 8 ++ v.extractLsb' 0 8)) = v := by
  apply BitVec.eq_of_getLsbD_eq
  intro i hi
  simp only [BitVec.getLsbD_append, BitVec.getLsbD_extractLsb']
  interval_cases i <;> simp

theorem read32_write32_same (m : Memory) (a : Nat) (v : Word) :
    Memory.read32 (Memory.write32 m a v) a = some v := by
  have h0 := read_write32_byte m a v 0 (by omega)
  have h1 := read_write32_byte m a v 1 (by omega)
  have h2 := read_write32_byte m a v 2 (by omega)
  have h3 := read_write32_byte m a v 3 (by omega)
  simp only [Nat.add_zero] at h0
  simp only [Memory.read32, h0, h1, h2, h3]
  exact congrArg some (joinBytes v)

theorem read32_write32_other (m : Memory) {a a' : Nat} (v : Word) (h : a' + 4 ≤ a ∨ a + 4 ≤ a') :
    Memory.read32 (Memory.write32 m a v) a' = Memory.read32 m a' := by
  simp only [Memory.read32]
  rw [read_write32_other _ _ (by omega), read_write32_other _ _ (by omega), read_write32_other _ _ (by omega),
    read_write32_other _ _ (by omega)]

theorem wf_writeFrame {m : Memory} (base n : Nat) (l r : Word) (h : Memory.wf m = true) :
    Memory.wf (Memory.writeFrame m base n l r) = true :=
  wf_write32 _ _ (wf_write32 _ _ h)

theorem read_writeFrame_other (m : Memory) {base n a : Nat} (l r : Word)
    (h : a < base + 8 * n ∨ base + 8 * n + 8 ≤ a) :
    Memory.read (Memory.writeFrame m base n l r) a = Memory.read m a := by
  unfold Memory.writeFrame
  rw [read_write32_other _ _ (by omega), read_write32_other _ _ (by omega)]

theorem read32_writeFrame_left (m : Memory) (base n : Nat) (l r : Word) :
    Memory.read32 (Memory.writeFrame m base n l r) (base + 8 * n) = some l := by
  unfold Memory.writeFrame
  rw [read32_write32_other _ _ (by omega), read32_write32_same]

theorem read32_writeFrame_right (m : Memory) (base n : Nat) (l r : Word) :
    Memory.read32 (Memory.writeFrame m base n l r) (base + 8 * n + 4) = some r :=
  read32_write32_same _ _ _

/-! Delay lines. -/

theorem line_wf_iff {l : Line} : Line.wf l = true ↔ rising l = true ∧ ∀ e ∈ l, e.2 ≠ .zero := by
  simp [Line.wf]

theorem line_wf_put {l : Line} (i : Nat) (v : Num) (h : Line.wf l = true) : Line.wf (Line.put l i v) = true := by
  obtain ⟨hr, hz⟩ := line_wf_iff.1 h
  unfold Line.put
  split
  · exact line_wf_iff.2 ⟨rising_dropCell i hr, fun e he => hz e (mem_of_mem_dropCell he)⟩
  · rename_i hv
    refine line_wf_iff.2 ⟨rising_putCell i v hr, fun e he => ?_⟩
    rcases mem_putCell he with rfl | he
    · exact hv
    · exact hz e he

theorem line_get_put_same {l : Line} (i : Nat) (v : Num) (h : Line.wf l = true) :
    Line.get (Line.put l i v) i = v := by
  unfold Line.put Line.get
  split
  · rename_i hv
    rw [cellAt_dropCell_same i (line_wf_iff.1 h).1, hv]
    rfl
  · rw [cellAt_putCell_same]
    rfl

theorem line_get_put_other (l : Line) {i j : Nat} (v : Num) (h : j ≠ i) :
    Line.get (Line.put l i v) j = Line.get l j := by
  unfold Line.put Line.get
  split
  · rw [cellAt_dropCell_other l h]
  · rw [cellAt_putCell_other l v h]

theorem line_adv_lt {n : Nat} (w : Nat) (h : 0 < n) : Line.adv n w < n := Nat.mod_lt _ h

theorem line_slot_lt {n : Nat} (w : Nat) (k : Int) (h : 0 < n) : Line.slot n w k < n := by
  unfold Line.slot
  have h1 := Int.emod_nonneg ((w : Int) - k) (by omega : (n : Int) ≠ 0)
  have h2 := Int.emod_lt_of_pos ((w : Int) - k) (by omega : (0 : Int) < n)
  omega

/-- Writing the element at the index and advancing keeps a line fitting. -/
theorem line_fits_put {n w : Nat} {l : Line} (v : Num) (h : Line.Fits n w l) :
    Line.Fits n (Line.adv n w) (Line.put l w v) where
  canonical := line_wf_put w v h.canonical
  inside := by
    intro e he
    unfold Line.put at he
    split at he
    · exact h.inside e (mem_of_mem_dropCell he)
    · rcases mem_putCell he with rfl | he
      · exact h.index
      · exact h.inside e he
  index := line_adv_lt w (lt_of_le_of_lt (Nat.zero_le _) h.index)

theorem line_fits_nil {n : Nat} (h : 0 < n) : Line.Fits n 0 [] where
  canonical := rfl
  inside := by simp
  index := h

end Sys2Proof.Laws
end

