-- ==== Sys2Proof/Laws/Pool.lean ====
section
/-! SUPPORT. What the pool operations do to each slot: picking, releasing, triggering and mixing. -/

namespace Sys2Proof.Laws

open Sys2Proof.Machine

/-! Slots. -/

theorem mem_slots (i : Fin 12) : i ∈ slots := by revert i; decide

theorem slots_nodup : slots.Nodup := by decide

theorem slots_sorted : slots.Pairwise (· < ·) := by decide

@[simp] theorem getElem_set_same {α : Type} (v : Vector α 12) (i : Fin 12) (x : α) : (v.set i x)[i] = x := by simp

theorem getElem_set_other {α : Type} (v : Vector α 12) {i j : Fin 12} (x : α) (h : j ≠ i) :
    (v.set i x)[j] = v[j] := by
  have : (i : Nat) ≠ j := fun e => h (Fin.ext e).symm
  simp [this]

/-- The first slot that passes a test. -/
theorem find_slot_some {p : Fin 12 → Bool} {i : Fin 12} (h : slots.find? p = some i) :
    p i = true ∧ ∀ j, j < i → p j = false := by
  obtain ⟨hp, as, bs, hs, has⟩ := List.find?_eq_some_iff_append.1 h
  refine ⟨hp, fun j hj => ?_⟩
  have hsort := slots_sorted
  rw [hs, List.pairwise_append] at hsort
  have hm : j ∈ as ++ i :: bs := hs ▸ mem_slots j
  rcases List.mem_append.1 hm with hm | hm
  · simpa using has j hm
  · rcases List.mem_cons.1 hm with rfl | hm
    · exact absurd hj (lt_irrefl _)
    · have := (List.pairwise_cons.1 hsort.2.1).1 j hm
      exact absurd hj (not_lt.2 (le_of_lt this))

theorem find_slot_none {p : Fin 12 → Bool} (h : slots.find? p = none) (i : Fin 12) : p i = false := by
  simpa using List.find?_eq_none.1 h i (mem_slots i)

theorem oldestFrom_spec (age : Fin 12 → Age) (i : Fin 12) (l : List (Fin 12)) :
    oldestFrom age i l ∈ i :: l ∧ ∀ j ∈ i :: l, age (oldestFrom age i l) ≤ age j := by
  induction l generalizing i with
  | nil => simp [oldestFrom]
  | cons a l ih =>
    simp only [oldestFrom]
    by_cases hlt : age a < age i
    · rw [if_pos hlt]
      obtain ⟨h1, h2⟩ := ih a
      refine ⟨List.mem_cons_of_mem _ h1, fun j hj => ?_⟩
      rcases List.mem_cons.1 hj with rfl | hj
      · exact BitVec.le_trans (h2 a (by simp)) (BitVec.le_of_lt hlt)
      · exact h2 j hj
    · rw [if_neg hlt]
      obtain ⟨h1, h2⟩ := ih i
      constructor
      · rcases List.mem_cons.1 h1 with h1 | h1
        · simp [h1]
        · simp [h1]
      · intro j hj
        rcases List.mem_cons.1 hj with rfl | hj
        · exact h2 _ (by simp)
        · rcases List.mem_cons.1 hj with rfl | hj
          · exact BitVec.le_trans (h2 i (by simp)) (BitVec.not_lt.1 hlt)
          · exact h2 j (by simp [hj])

/-- The slot with the smallest age. -/
theorem oldest_spec (age : Fin 12 → Age) {l : List (Fin 12)} (h : l ≠ []) :
    oldest age l ∈ l ∧ ∀ j ∈ l, age (oldest age l) ≤ age j := by
  cases l with
  | nil => exact absurd rfl h
  | cons i l => exact oldestFrom_spec age i l

/-! Releasing. -/

theorem releaseSub_spec (cond : SubVoice → Bool) (pool : Vector SubVoice 12) (l : List (Fin 12)) (hl : l.Nodup)
    (i : Fin 12) :
    (releaseSub cond pool l)[i] = if i ∈ l ∧ cond pool[i] = true then pool[i].release else pool[i] := by
  induction l generalizing pool with
  | nil => simp [releaseSub]
  | cons a l ih =>
    obtain ⟨ha, hl⟩ := List.nodup_cons.1 hl
    rw [releaseSub, ih _ hl]
    by_cases hi : i = a
    · subst hi
      rw [if_neg fun h => ha h.1]
      by_cases hc : cond pool[i] = true
      · rw [if_pos hc, getElem_set_same, if_pos ⟨by simp, hc⟩]
      · rw [if_neg hc, if_neg fun h => hc h.2]
    · have hs : (if cond pool[a] = true then pool.set a pool[a].release else pool)[i] = pool[i] := by
        split
        · exact getElem_set_other _ _ hi
        · rfl
      rw [hs]
      simp [hi]

theorem releaseEp_spec (cond : EpVoice → Bool) (pool : Vector EpVoice 12) (l : List (Fin 12)) (hl : l.Nodup)
    (i : Fin 12) :
    (releaseEp cond pool l)[i] = if i ∈ l ∧ cond pool[i] = true then pool[i].release else pool[i] := by
  induction l generalizing pool with
  | nil => simp [releaseEp]
  | cons a l ih =>
    obtain ⟨ha, hl⟩ := List.nodup_cons.1 hl
    rw [releaseEp, ih _ hl]
    by_cases hi : i = a
    · subst hi
      rw [if_neg fun h => ha h.1]
      by_cases hc : cond pool[i] = true
      · rw [if_pos hc, getElem_set_same, if_pos ⟨by simp, hc⟩]
      · rw [if_neg hc, if_neg fun h => hc h.2]
    · have hs : (if cond pool[a] = true then pool.set a pool[a].release else pool)[i] = pool[i] := by
        split
        · exact getElem_set_other _ _ hi
        · rfl
      rw [hs]
      simp [hi]

theorem subRelease_note (v : SubVoice) : v.release.note = v.note := by unfold SubVoice.release; split <;> rfl
theorem subRelease_uidx (v : SubVoice) : v.release.uidx = v.uidx := by unfold SubVoice.release; split <;> rfl
theorem subRelease_age (v : SubVoice) : v.release.age = v.age := by unfold SubVoice.release; split <;> rfl
theorem subRelease_idle (v : SubVoice) : v.release.vstate = .idle ↔ v.vstate = .idle := by
  unfold SubVoice.release; split <;> simp_all
theorem epRelease_note (w : EpVoice) : w.release.note = w.note := by unfold EpVoice.release; split <;> rfl
theorem epRelease_age (w : EpVoice) : w.release.age = w.age := by unfold EpVoice.release; split <;> rfl
theorem epRelease_idle (w : EpVoice) : w.release.vstate = .idle ↔ w.vstate = .idle := by
  unfold EpVoice.release; split <;> simp_all

/-! Ticking a slot. -/

/-- What a tick may do to a subtractive slot's lifecycle: it keeps note, index, age and state, or retires the slot. -/
theorem subVoiceTick_life (c : Config) (p : Params) (t : Taps) (n : Num) (v : SubVoice) :
    (v.tick c p t n).1.uidx = v.uidx ∧ (v.tick c p t n).1.age = v.age ∧
    (((v.tick c p t n).1.vstate = v.vstate ∧ (v.tick c p t n).1.note = v.note) ∨
     ((v.tick c p t n).1.vstate = .idle ∧ (v.tick c p t n).1.note = none)) := by
  simp only [SubVoice.tick, SubVoice.settle]
  split
  · exact ⟨rfl, rfl, .inl ⟨rfl, rfl⟩⟩
  · exact ⟨rfl, rfl, .inr ⟨rfl, rfl⟩⟩

/-- What a tick may do to an electric-piano slot's lifecycle. -/
theorem epVoiceTick_life (c : Config) (n : Num) (w : EpVoice) :
    (w.tick c n).1.age = w.age ∧
    (((w.tick c n).1.vstate = w.vstate ∧ (w.tick c n).1.note = w.note) ∨
     ((w.tick c n).1.vstate = .idle ∧ (w.tick c n).1.note = none)) := by
  simp only [EpVoice.tick, EpVoice.settle]
  split
  · exact ⟨rfl, .inl ⟨rfl, rfl⟩⟩
  · exact ⟨rfl, .inr ⟨rfl, rfl⟩⟩

/-! Mixing. -/

/-- Mixing a list of slots: each sounding one is ticked once, every other one is left, and one noise value is drawn
for each sounding one. -/
theorem mixSub_spec (c : Config) (p : Params) (t : Taps) (l : List (Fin 12)) (hl : l.Nodup) (a : SubMix) :
    (∀ i : Fin 12, (i ∈ l ∧ a.pool[i].vstate ≠ .idle →
        ∃ k, a.draws ≤ k ∧ (l.foldl (mixSubSlot c p t) a).pool[i] = (a.pool[i].tick c p t (c.noise k)).1) ∧
      (¬ (i ∈ l ∧ a.pool[i].vstate ≠ .idle) → (l.foldl (mixSubSlot c p t) a).pool[i] = a.pool[i])) ∧
    (l.foldl (mixSubSlot c p t) a).draws = a.draws + (l.filter fun i => a.pool[i].vstate ≠ .idle).length := by
  induction l generalizing a with
  | nil => simp
  | cons b l ih =>
    obtain ⟨hb, hl⟩ := List.nodup_cons.1 hl
    rw [List.foldl_cons]
    by_cases hidle : a.pool[b].vstate = .idle
    · have h1 : mixSubSlot c p t a b = { a with sum := c.f.add a.sum .zero } := by
        unfold mixSubSlot; rw [if_pos hidle]
      obtain ⟨h2, h3⟩ := ih hl (mixSubSlot c p t a b)
      rw [h1] at h2 h3 ⊢
      refine ⟨fun i => ⟨fun hi => ?_, fun hi => ?_⟩, ?_⟩
      · have : i ≠ b := fun e => hi.2 (e ▸ hidle)
        exact (h2 i).1 ⟨(List.mem_cons.1 hi.1).resolve_left this, hi.2⟩
      · exact (h2 i).2 fun hc => hi ⟨List.mem_cons_of_mem _ hc.1, hc.2⟩
      · rw [h3, List.filter_cons_of_neg (by simpa using hidle)]
    · have h1 : mixSubSlot c p t a b =
          { pool := a.pool.set b (a.pool[b].tick c p t (c.noise a.draws)).1,
            sum := c.f.add a.sum (a.pool[b].tick c p t (c.noise a.draws)).2, draws := a.draws + 1 } := by
        unfold mixSubSlot; rw [if_neg hidle]
      obtain ⟨h2, h3⟩ := ih hl (mixSubSlot c p t a b)
      rw [h1] at h2 h3 ⊢
      simp only at h2 h3 ⊢
      have hset : ∀ i ∈ l, (a.pool.set b (a.pool[b].tick c p t (c.noise a.draws)).1)[i] = a.pool[i] :=
        fun i hi => getElem_set_other _ _ fun e => hb (e ▸ hi)
      refine ⟨fun i => ⟨fun hi => ?_, fun hi => ?_⟩, ?_⟩
      · by_cases hib : i = b
        · subst hib
          refine ⟨a.draws, le_refl _, ?_⟩
          rw [(h2 i).2 fun hc => hb hc.1, getElem_set_same]
        · have hil := (List.mem_cons.1 hi.1).resolve_left hib
          obtain ⟨k, hk, he⟩ := (h2 i).1 ⟨hil, by rw [hset i hil]; exact hi.2⟩
          exact ⟨k, by omega, by rw [he, hset i hil]⟩
      · have hib : i ≠ b := fun e => hi ⟨by simp [e], e ▸ hidle⟩
        rw [(h2 i).2, getElem_set_other _ _ hib]
        intro hc
        rw [getElem_set_other _ _ hib] at hc
        exact hi ⟨List.mem_cons_of_mem _ hc.1, hc.2⟩
      · rw [h3, List.filter_cons_of_pos (by simpa using hidle)]
        have : (l.filter fun i => decide ((a.pool.set b
            (a.pool[b].tick c p t (c.noise a.draws)).1)[i].vstate ≠ .idle)) =
            l.filter fun i => decide (a.pool[i].vstate ≠ .idle) :=
          List.filter_congr fun i hi => by rw [hset i hi]
        rw [this]
        simp
        omega

/-- Mixing a list of electric-piano slots. -/
theorem mixEp_spec (c : Config) (l : List (Fin 12)) (hl : l.Nodup) (a : EpMix) :
    (∀ i : Fin 12, (i ∈ l ∧ a.pool[i].vstate ≠ .idle →
        ∃ k, a.draws ≤ k ∧ (l.foldl (mixEpSlot c) a).pool[i] = (a.pool[i].tick c (c.noise k)).1) ∧
      (¬ (i ∈ l ∧ a.pool[i].vstate ≠ .idle) → (l.foldl (mixEpSlot c) a).pool[i] = a.pool[i])) ∧
    (l.foldl (mixEpSlot c) a).draws = a.draws + (l.filter fun i => a.pool[i].vstate ≠ .idle).length := by
  induction l generalizing a with
  | nil => simp
  | cons b l ih =>
    obtain ⟨hb, hl⟩ := List.nodup_cons.1 hl
    rw [List.foldl_cons]
    by_cases hidle : a.pool[b].vstate = .idle
    · have h1 : mixEpSlot c a b = { a with sum := c.f.add a.sum .zero } := by
        unfold mixEpSlot; rw [if_pos hidle]
      obtain ⟨h2, h3⟩ := ih hl (mixEpSlot c a b)
      rw [h1] at h2 h3 ⊢
      refine ⟨fun i => ⟨fun hi => ?_, fun hi => ?_⟩, ?_⟩
      · have : i ≠ b := fun e => hi.2 (e ▸ hidle)
        exact (h2 i).1 ⟨(List.mem_cons.1 hi.1).resolve_left this, hi.2⟩
      · exact (h2 i).2 fun hc => hi ⟨List.mem_cons_of_mem _ hc.1, hc.2⟩
      · rw [h3, List.filter_cons_of_neg (by simpa using hidle)]
    · have h1 : mixEpSlot c a b =
          { pool := a.pool.set b (a.pool[b].tick c (c.noise a.draws)).1,
            sum := c.f.add a.sum (a.pool[b].tick c (c.noise a.draws)).2, draws := a.draws + 1 } := by
        unfold mixEpSlot; rw [if_neg hidle]
      obtain ⟨h2, h3⟩ := ih hl (mixEpSlot c a b)
      rw [h1] at h2 h3 ⊢
      simp only at h2 h3 ⊢
      have hset : ∀ i ∈ l, (a.pool.set b (a.pool[b].tick c (c.noise a.draws)).1)[i] = a.pool[i] :=
        fun i hi => getElem_set_other _ _ fun e => hb (e ▸ hi)
      refine ⟨fun i => ⟨fun hi => ?_, fun hi => ?_⟩, ?_⟩
      · by_cases hib : i = b
        · subst hib
          refine ⟨a.draws, le_refl _, ?_⟩
          rw [(h2 i).2 fun hc => hb hc.1, getElem_set_same]
        · have hil := (List.mem_cons.1 hi.1).resolve_left hib
          obtain ⟨k, hk, he⟩ := (h2 i).1 ⟨hil, by rw [hset i hil]; exact hi.2⟩
          exact ⟨k, by omega, by rw [he, hset i hil]⟩
      · have hib : i ≠ b := fun e => hi ⟨by simp [e], e ▸ hidle⟩
        rw [(h2 i).2, getElem_set_other _ _ hib]
        intro hc
        rw [getElem_set_other _ _ hib] at hc
        exact hi ⟨List.mem_cons_of_mem _ hc.1, hc.2⟩
      · rw [h3, List.filter_cons_of_pos (by simpa using hidle)]
        have : (l.filter fun i => decide ((a.pool.set b
            (a.pool[b].tick c (c.noise a.draws)).1)[i].vstate ≠ .idle)) =
            l.filter fun i => decide (a.pool[i].vstate ≠ .idle) :=
          List.filter_congr fun i hi => by rw [hset i hi]
        rw [this]
        simp
        omega

/-! Note-on. -/

/-- How a subtractive note-on picks its slot (R282 to R284). -/
theorem subSlotFor_spec {pool : Vector SubVoice 12} {taken : List (Fin 12)} {n : Fin 128} {k : Fin 8} {i : Fin 12}
    (h : subSlotFor pool taken n k = i) :
    (pool[i].vstate ≠ .idle ∧ pool[i].note = some n ∧ pool[i].uidx = k) ∨
    ((∀ j : Fin 12, ¬ (pool[j].vstate ≠ .idle ∧ pool[j].note = some n ∧ pool[j].uidx = k)) ∧
      ((pool[i].vstate = .idle ∧ ∀ j : Fin 12, j < i → pool[j].vstate ≠ .idle) ∨
       ((∀ j : Fin 12, pool[j].vstate ≠ .idle) ∧ i = stealSlot pool taken))) := by
  unfold subSlotFor at h
  cases h1 : subSounding pool n k with
  | some a =>
    rw [h1] at h
    subst h
    have := (find_slot_some h1).1
    simp only [ne_eq, decide_not, Bool.and_eq_true, Bool.not_eq_true', decide_eq_false_iff_not,
      decide_eq_true_eq] at this
    exact .inl ⟨this.1.1, this.1.2, this.2⟩
  | none =>
    rw [h1] at h
    refine .inr ⟨fun j hj => ?_, ?_⟩
    · have := find_slot_none h1 j
      simp at this
      exact this hj.1 hj.2.1 hj.2.2
    · cases h2 : subFree pool with
      | some a =>
        rw [h2] at h
        subst h
        obtain ⟨h3, h4⟩ := find_slot_some h2
        exact .inl ⟨by simpa using h3, fun j hj => by simpa using h4 j hj⟩
      | none =>
        rw [h2] at h
        exact .inr ⟨fun j => by simpa using find_slot_none h2 j, h.symm⟩

theorem stealSlot_spec (pool : Vector SubVoice 12) {taken : List (Fin 12)} (h : ∃ j, j ∉ taken) :
    stealSlot pool taken ∉ taken ∧ ∀ j, j ∉ taken → pool[stealSlot pool taken].age ≤ pool[j].age := by
  have hne : (slots.filter fun i => !taken.contains i) ≠ [] := by
    obtain ⟨j, hj⟩ := h
    exact List.ne_nil_of_mem (List.mem_filter.2 ⟨mem_slots j, by simpa using hj⟩)
  obtain ⟨h1, h2⟩ := oldest_spec (fun i => pool[i].age) hne
  refine ⟨fun hc => ?_, fun j hj => ?_⟩
  · have h3 := (List.mem_filter.1 h1).2
    change (!taken.contains (stealSlot pool taken)) = true at h3
    rw [show taken.contains (stealSlot pool taken) = true by simpa using hc] at h3
    cases h3
  · exact h2 j (List.mem_filter.2 ⟨mem_slots j, by simpa using hj⟩)

/-- How an electric-piano note-on picks its slot (R289). -/
theorem epSlotFor_spec {pool : Vector EpVoice 12} {n : Fin 128} {i : Fin 12} (h : epSlotFor pool n = i) :
    (pool[i].vstate ≠ .idle ∧ pool[i].note = some n) ∨
    ((∀ j : Fin 12, ¬ (pool[j].vstate ≠ .idle ∧ pool[j].note = some n)) ∧
      ((pool[i].vstate = .idle ∧ ∀ j : Fin 12, j < i → pool[j].vstate ≠ .idle) ∨
       ((∀ j : Fin 12, pool[j].vstate ≠ .idle) ∧ ∀ j : Fin 12, pool[i].age ≤ pool[j].age))) := by
  unfold epSlotFor at h
  cases h1 : epSounding pool n with
  | some a =>
    rw [h1] at h
    subst h
    have := (find_slot_some h1).1
    simp only [ne_eq, decide_not, Bool.and_eq_true, Bool.not_eq_true', decide_eq_false_iff_not,
      decide_eq_true_eq] at this
    exact .inl this
  | none =>
    rw [h1] at h
    refine .inr ⟨fun j hj => ?_, ?_⟩
    · have := find_slot_none h1 j
      simp at this
      exact this hj.1 hj.2
    · cases h2 : epFree pool with
      | some a =>
        rw [h2] at h
        subst h
        obtain ⟨h3, h4⟩ := find_slot_some h2
        exact .inl ⟨by simpa using h3, fun j hj => by simpa using h4 j hj⟩
      | none =>
        rw [h2] at h
        subst h
        exact .inr ⟨fun j => by simpa using find_slot_none h2 j,
          fun j => (oldest_spec (fun i => pool[i].age) (by decide : slots ≠ [])).2 j (mem_slots j)⟩

@[simp] theorem trigger_note (v : SubVoice) (n : Fin 128) (fr d : Num) (k : Fin 8) (g : Age) :
    (v.trigger n fr d k g).note = some n := rfl
@[simp] theorem trigger_uidx (v : SubVoice) (n : Fin 128) (fr d : Num) (k : Fin 8) (g : Age) :
    (v.trigger n fr d k g).uidx = k := rfl
@[simp] theorem trigger_age (v : SubVoice) (n : Fin 128) (fr d : Num) (k : Fin 8) (g : Age) :
    (v.trigger n fr d k g).age = g := rfl
@[simp] theorem trigger_vstate (v : SubVoice) (n : Fin 128) (fr d : Num) (k : Fin 8) (g : Age) :
    (v.trigger n fr d k g).vstate = .active := rfl
@[simp] theorem epTrigger_note (c : Config) (w : EpVoice) (n : Fin 128) (fr v : Num) (g : Age) :
    (w.trigger c n fr v g).note = some n := rfl
@[simp] theorem epTrigger_age (c : Config) (w : EpVoice) (n : Fin 128) (fr v : Num) (g : Age) :
    (w.trigger c n fr v g).age = g := rfl
@[simp] theorem epTrigger_vstate (c : Config) (w : EpVoice) (n : Fin 128) (fr v : Num) (g : Age) :
    (w.trigger c n fr v g).vstate = .active := rfl

end Sys2Proof.Laws
end

