-- ==== Sys2Proof/Laws/NoteOn.lean ====
section
/-! SUPPORT. What a subtractive note-on does, whatever its number of unison voices, and that triggering keeps a pool
sound. -/

namespace Sys2Proof.Laws

open Sys2Proof.Machine

theorem unisonIdxs_succ (m : Fin 8) : unisonIdxs (m + 1) = unisonIdxs m ++ [m] := by revert m; decide

theorem unisonIdxs_length {n : Nat} (h : n ≤ 8) : (unisonIdxs n).length = n := by
  simp [unisonIdxs, h]

/-- The detune ratio of unison voice k (R285). -/
def ratioOf (c : Config) (p : Params) (k : Fin 8) : Num :=
  detuneRatio c (unisonCents c (unisonCount p) (unisonSpread p) k)

/-- The state of a note-on after its first m voices: voice k sits in slot f k, triggered with stamp g + k. -/
structure Took (c : Config) (p : Params) (n : Fin 128) (fr : Num) (pool : Vector SubVoice 12) (g : Age) (m : Nat)
    (f : Fin 8 → Fin 12) (a : NoteOn) : Prop where
  counter : a.g = g + BitVec.ofNat 64 m
  taken   : ∀ i, i ∈ a.taken ↔ ∃ k : Fin 8, k.val < m ∧ f k = i
  length  : a.taken.length = m
  apart   : ∀ k k' : Fin 8, k.val < m → k'.val < m → f k = f k' → k = k'
  placed  : ∀ k : Fin 8, k.val < m →
    a.pool[f k] = pool[f k].trigger n fr (ratioOf c p k) k (g + BitVec.ofNat 64 k.val)
  others  : ∀ i : Fin 12, (∀ k : Fin 8, k.val < m → f k ≠ i) → a.pool[i] = pool[i]

theorem exists_not_taken {taken : List (Fin 12)} (h : taken.length < 12) : ∃ j, j ∉ taken := by
  by_contra hc
  have hc : ∀ j, j ∈ taken := by simpa using hc
  have h1 : (Finset.univ : Finset (Fin 12)) ⊆ taken.toFinset := fun j _ => by simpa using hc j
  have h2 := Finset.card_le_card h1
  have h3 := List.toFinset_card_le taken
  simp at h2
  omega

theorem took_step {c : Config} {p : Params} {n : Fin 128} {fr : Num} {pool : Vector SubVoice 12} {g : Age}
    {m : Fin 8} {f : Fin 8 → Fin 12} {a : NoteOn} (h : Took c p n fr pool g m f a) :
    Took c p n fr pool g (m + 1) (fun k => if k = m then subSlotFor a.pool a.taken n m else f k)
      (noteOnVoice c p n fr a m) := by
  generalize hi : subSlotFor a.pool a.taken n m = i
  have fresh : ∀ k : Fin 8, k.val < m.val → f k ≠ i := by
    intro k hk hki
    have hp := h.placed k hk
    subst hki
    rcases subSlotFor_spec hi with ⟨_, _, h3⟩ | ⟨_, ⟨h3, _⟩ | ⟨_, h3⟩⟩
    · rw [hp, trigger_uidx] at h3
      subst h3
      exact absurd hk (lt_irrefl _)
    · rw [hp, trigger_vstate] at h3
      cases h3
    · have := (stealSlot_spec a.pool (exists_not_taken (taken := a.taken) (by rw [h.length]; omega))).1
      rw [← h3] at this
      exact this ((h.taken _).2 ⟨k, hk, rfl⟩)
  have hpool : (noteOnVoice c p n fr a m).pool = a.pool.set i (a.pool[i].trigger n fr (ratioOf c p m) m a.g) := by
    simp only [noteOnVoice, hi, ratioOf]
  have hold : a.pool[i] = pool[i] := h.others i fresh
  constructor
  · simp only [noteOnVoice]
    rw [h.counter, BitVec.add_assoc]
    congr 1
    apply BitVec.eq_of_toNat_eq
    simp
  · intro j
    simp only [noteOnVoice, hi, List.mem_cons, h.taken j]
    constructor
    · rintro (rfl | ⟨k, hk, rfl⟩)
      · exact ⟨m, by omega, by simp⟩
      · exact ⟨k, by omega, by rw [if_neg (by rintro rfl; omega)]⟩
    · rintro ⟨k, hk, hkj⟩
      by_cases hkm : k = m
      · rw [if_pos hkm] at hkj
        exact .inl hkj.symm
      · rw [if_neg hkm] at hkj
        exact .inr ⟨k, by have : k.val ≠ m.val := fun e => hkm (Fin.ext e); omega, hkj⟩
  · simp [noteOnVoice, h.length]
  · intro k k' hk hk' hkk
    have val_ne : ∀ {x : Fin 8}, x ≠ m → x.val < m.val + 1 → x.val < m.val := by
      intro x hx hx'
      have : x.val ≠ m.val := fun e => hx (Fin.ext e)
      omega
    by_cases h1 : k = m <;> by_cases h2 : k' = m
    · rw [h1, h2]
    · rw [if_pos h1, if_neg h2] at hkk
      exact absurd hkk.symm (fresh k' (val_ne h2 hk'))
    · rw [if_neg h1, if_pos h2] at hkk
      exact absurd hkk (fresh k (val_ne h1 hk))
    · rw [if_neg h1, if_neg h2] at hkk
      exact h.apart k k' (val_ne h1 hk) (val_ne h2 hk') hkk
  · intro k hk
    suffices hs : ∀ x, (if k = m then i else f k) = x → (noteOnVoice c p n fr a m).pool[x] =
        pool[x].trigger n fr (ratioOf c p k) k (g + BitVec.ofNat 64 k.val) from hs _ rfl
    intro x hx
    by_cases h1 : k = m
    · rw [if_pos h1] at hx
      subst hx h1
      rw [hpool, getElem_set_same, hold, h.counter]
    · have hk' : k.val < m.val := by have : k.val ≠ m.val := fun e => h1 (Fin.ext e); omega
      rw [if_neg h1] at hx
      subst hx
      rw [hpool, getElem_set_other _ _ (fresh k hk'), h.placed k hk']
  · intro j hj
    have h1 : j ≠ i := by
      intro e
      exact hj m (by omega) (by simp [e])
    rw [hpool, getElem_set_other _ _ h1]
    apply h.others
    intro k hk hkj
    exact hj k (by omega) (by rw [if_neg (by rintro rfl; omega)]; exact hkj)

/-- A note-on after its first m voices. -/
def noteOnAt (c : Config) (p : Params) (n : Fin 128) (fr : Num) (x : SubPath) (m : Nat) : NoteOn :=
  (unisonIdxs m).foldl (noteOnVoice c p n fr) { pool := x.pool, g := x.gS, taken := [] }

/-- The slot voice k of a note-on takes. -/
def slotAt (c : Config) (p : Params) (n : Fin 128) (fr : Num) (x : SubPath) (k : Fin 8) : Fin 12 :=
  subSlotFor (noteOnAt c p n fr x k).pool (noteOnAt c p n fr x k).taken n k

theorem noteOnAt_succ (c : Config) (p : Params) (n : Fin 128) (fr : Num) (x : SubPath) (k : Fin 8) :
    noteOnAt c p n fr x (k + 1) = noteOnVoice c p n fr (noteOnAt c p n fr x k) k := by
  unfold noteOnAt
  rw [unisonIdxs_succ, List.foldl_append, List.foldl_cons, List.foldl_nil]

theorem took_congr {c : Config} {p : Params} {n : Fin 128} {fr : Num} {pool : Vector SubVoice 12} {g : Age} {m : Nat}
    {f f' : Fin 8 → Fin 12} {a : NoteOn} (h : Took c p n fr pool g m f a) (hf : ∀ k : Fin 8, k.val < m → f k = f' k) :
    Took c p n fr pool g m f' a where
  counter := h.counter
  taken i := (h.taken i).trans ⟨fun ⟨k, hk, e⟩ => ⟨k, hk, (hf k hk).symm.trans e⟩,
    fun ⟨k, hk, e⟩ => ⟨k, hk, (hf k hk).trans e⟩⟩
  length := h.length
  apart k k' hk hk' e := h.apart k k' hk hk' ((hf k hk).trans (e.trans (hf k' hk').symm))
  placed k hk := by
    suffices hs : ∀ i, f k = i → a.pool[i] = pool[i].trigger n fr (ratioOf c p k) k (g + BitVec.ofNat 64 k.val) from
      hs _ (hf k hk)
    rintro i rfl
    exact h.placed k hk
  others i hi := h.others i fun k hk e => hi k hk ((hf k hk).symm.trans e)

/-- Each voice takes the slot of R282 in the pool the voices before it left. -/
theorem took_slotAt (c : Config) (p : Params) (n : Fin 128) (fr : Num) (x : SubPath) (m : Nat) (hm : m ≤ 8) :
    Took c p n fr x.pool x.gS m (slotAt c p n fr x) (noteOnAt c p n fr x m) := by
  induction m with
  | zero => constructor <;> simp [noteOnAt, unisonIdxs]
  | succ m ih =>
    have h1 := took_step (m := ⟨m, by omega⟩) (ih (by omega))
    rw [← noteOnAt_succ c p n fr x ⟨m, by omega⟩] at h1
    refine took_congr h1 fun k _ => ?_
    split
    · rename_i hk; subst hk; rfl
    · rfl

/-- A subtractive note-on of N voices (R282). -/
theorem subNoteOn_spec (c : Config) (p : Params) (n : Fin 128) (fr : Num) (x : SubPath) (h : unisonCount p ≤ 8) :
    ∃ f : Fin 8 → Fin 12,
      (∀ k k' : Fin 8, k.val < unisonCount p → k'.val < unisonCount p → f k = f k' → k = k') ∧
      (∀ k : Fin 8, k.val < unisonCount p → (subNoteOn c p n fr x).pool[f k] =
        x.pool[f k].trigger n fr (ratioOf c p k) k (x.gS + BitVec.ofNat 64 k.val)) ∧
      (∀ i : Fin 12, (∀ k : Fin 8, k.val < unisonCount p → f k ≠ i) → (subNoteOn c p n fr x).pool[i] = x.pool[i]) ∧
      subNoteOn c p n fr x =
        { x with pool := (subNoteOn c p n fr x).pool, gS := x.gS + BitVec.ofNat 64 (unisonCount p) } := by
  have hf := took_slotAt c p n fr x (unisonCount p) h
  refine ⟨slotAt c p n fr x, hf.apart, hf.placed, hf.others, ?_⟩
  have hc : (subNoteOn c p n fr x).gS = _ := hf.counter
  rw [← hc]
  rfl

/-- A note-on of one voice takes the slot of R282. -/
theorem subNoteOn_one (c : Config) (p : Params) (n : Fin 128) (fr : Num) (x : SubPath) (h : unisonCount p = 1) :
    subNoteOn c p n fr x =
      { x with
        pool := x.pool.set (subSlotFor x.pool [] n 0)
          (x.pool[subSlotFor x.pool [] n 0].trigger n fr (ratioOf c p 0) 0 x.gS),
        gS := x.gS + 1 } := by
  have h1 : unisonIdxs 1 = [0] := rfl
  simp only [subNoteOn, h, ratioOf, h1, List.foldl_cons, List.foldl_nil, noteOnVoice]

/-! Triggering keeps a pool sound. -/

theorem lt_succ_age {a g : Age} (h : a < g) (hg : g.toNat + 1 < 2 ^ 64) : a < g + 1 := by
  simp only [BitVec.lt_def, BitVec.toNat_add] at *
  simp
  omega

theorem age_lt_succ {g : Age} (hg : g.toNat + 1 < 2 ^ 64) : g < g + 1 := by
  simp only [BitVec.lt_def, BitVec.toNat_add]
  simp
  omega

theorem age_ne_of_lt {a g : Age} (h : a < g) : a ≠ g := by
  intro e
  subst e
  simp at h

/-- A trigger of a slot that holds the pair, or of any slot when none holds it, keeps the pool sound. -/
theorem subSound_trigger {pool : Vector SubVoice 12} {g : Age} (h : SubPool.Sound pool g) (i : Fin 12) (n : Fin 128)
    (fr d : Num) (k : Fin 8) (hg : g.toNat + 1 < 2 ^ 64)
    (hi : (pool[i].Sounds ∧ pool[i].note = some n ∧ pool[i].uidx = k) ∨
      ∀ j : Fin 12, ¬ (pool[j].Sounds ∧ pool[j].note = some n ∧ pool[j].uidx = k)) :
    SubPool.Sound (pool.set i (pool[i].trigger n fr d k g)) (g + 1) := by
  have clash : ∀ j : Fin 12, j ≠ i → pool[j].Sounds → pool[j].note = some n → pool[j].uidx = k → False := by
    intro j hj h1 h2 h3
    rcases hi with ⟨h4, h5, h6⟩ | h4
    · exact hj (h.pairs j i h1 h4 (h2.trans h5.symm) (h3.trans h6.symm))
    · exact h4 j ⟨h1, h2, h3⟩
  constructor
  · intro j
    by_cases hj : j = i
    · subst hj; simp
    · rw [getElem_set_other _ _ hj]; exact h.free j
  · intro j j' h1 h2 h3 h4
    by_cases hj : j = i <;> by_cases hj' : j' = i
    · rw [hj, hj']
    · subst hj
      rw [getElem_set_other _ _ hj'] at h2 h3 h4
      rw [getElem_set_same] at h3 h4
      exact absurd (clash j' hj' h2 h3.symm h4.symm) id
    · subst hj'
      rw [getElem_set_other _ _ hj] at h1 h3 h4
      rw [getElem_set_same] at h3 h4
      exact absurd (clash j hj h1 h3 h4) id
    · rw [getElem_set_other _ _ hj] at h1 h3 h4
      rw [getElem_set_other _ _ hj'] at h2 h3 h4
      exact h.pairs j j' h1 h2 h3 h4
  · intro j h1
    by_cases hj : j = i
    · subst hj
      rw [getElem_set_same]
      exact age_lt_succ hg
    · rw [getElem_set_other _ _ hj] at h1 ⊢
      exact lt_succ_age (h.below j h1) hg
  · intro j j' h1 h2 h3
    by_cases hj : j = i <;> by_cases hj' : j' = i
    · rw [hj, hj']
    · subst hj
      rw [getElem_set_other _ _ hj'] at h2 h3
      rw [getElem_set_same] at h3
      exact absurd h3.symm (age_ne_of_lt (h.below j' h2))
    · subst hj'
      rw [getElem_set_other _ _ hj] at h1 h3
      rw [getElem_set_same] at h3
      exact absurd h3 (age_ne_of_lt (h.below j h1))
    · rw [getElem_set_other _ _ hj] at h1 h3
      rw [getElem_set_other _ _ hj'] at h2 h3
      exact h.ages j j' h1 h2 h3

theorem epSound_trigger {pool : Vector EpVoice 12} {g : Age} (h : EpPool.Sound pool g) (c : Config) (i : Fin 12)
    (n : Fin 128) (fr v : Num) (hg : g.toNat + 1 < 2 ^ 64)
    (hi : (pool[i].Sounds ∧ pool[i].note = some n) ∨ ∀ j : Fin 12, ¬ (pool[j].Sounds ∧ pool[j].note = some n)) :
    EpPool.Sound (pool.set i (pool[i].trigger c n fr v g)) (g + 1) := by
  have clash : ∀ j : Fin 12, j ≠ i → pool[j].Sounds → pool[j].note = some n → False := by
    intro j hj h1 h2
    rcases hi with ⟨h4, h5⟩ | h4
    · exact hj (h.notes j i h1 h4 (h2.trans h5.symm))
    · exact h4 j ⟨h1, h2⟩
  constructor
  · intro j
    by_cases hj : j = i
    · subst hj; simp
    · rw [getElem_set_other _ _ hj]; exact h.free j
  · intro j j' h1 h2 h3
    by_cases hj : j = i <;> by_cases hj' : j' = i
    · rw [hj, hj']
    · subst hj
      rw [getElem_set_other _ _ hj'] at h2 h3
      rw [getElem_set_same] at h3
      exact absurd (clash j' hj' h2 h3.symm) id
    · subst hj'
      rw [getElem_set_other _ _ hj] at h1 h3
      rw [getElem_set_same] at h3
      exact absurd (clash j hj h1 h3) id
    · rw [getElem_set_other _ _ hj] at h1 h3
      rw [getElem_set_other _ _ hj'] at h2 h3
      exact h.notes j j' h1 h2 h3
  · intro j h1
    by_cases hj : j = i
    · subst hj
      rw [getElem_set_same]
      exact age_lt_succ hg
    · rw [getElem_set_other _ _ hj] at h1 ⊢
      exact lt_succ_age (h.below j h1) hg
  · intro j j' h1 h2 h3
    by_cases hj : j = i <;> by_cases hj' : j' = i
    · rw [hj, hj']
    · subst hj
      rw [getElem_set_other _ _ hj'] at h2 h3
      rw [getElem_set_same] at h3
      exact absurd h3.symm (age_ne_of_lt (h.below j' h2))
    · subst hj'
      rw [getElem_set_other _ _ hj] at h1 h3
      rw [getElem_set_same] at h3
      exact absurd h3 (age_ne_of_lt (h.below j h1))
    · rw [getElem_set_other _ _ hj] at h1 h3
      rw [getElem_set_other _ _ hj'] at h2 h3
      exact h.ages j j' h1 h2 h3

/-- A note-on of any number of voices keeps the pool sound, if the counter does not wrap. -/
theorem subSound_fold (c : Config) (p : Params) (n : Fin 128) (fr : Num) (l : List (Fin 8)) (a : NoteOn)
    (h : SubPool.Sound a.pool a.g) (hg : a.g.toNat + l.length < 2 ^ 64) :
    SubPool.Sound (l.foldl (noteOnVoice c p n fr) a).pool (l.foldl (noteOnVoice c p n fr) a).g := by
  induction l generalizing a with
  | nil => exact h
  | cons k l ih =>
    rw [List.length_cons] at hg
    refine ih _ ?_ ?_
    · exact subSound_trigger h _ _ _ _ _ (by omega) (by
        rcases subSlotFor_spec (pool := a.pool) (taken := a.taken) (n := n) (k := k) rfl with h1 | ⟨h1, _⟩
        · exact .inl h1
        · exact .inr h1)
    · simp only [noteOnVoice, BitVec.toNat_add]
      simp
      omega

end Sys2Proof.Laws
end

