-- ==== Sys2Proof/Laws/Sound.lean ====
section
/-! SUPPORT. Each operation keeps the part of the invariant it touches: registers legal, pools sound, lines fitting. -/

namespace Sys2Proof.Laws

open Sys2Proof.Machine

/-! Registers. -/

/-- The ends of a register's range are numbers, in order. -/
def EndsOk : RegKind → Prop
  | .f32 lo hi => F32.isNaN lo = false ∧ F32.isNaN hi = false ∧ F32.key lo ≤ F32.key hi
  | .mask _ => True
  | .upTo _ => True
  | .range lo hi => lo ≤ hi

theorem endsOk (r : Reg) : EndsOk (regKind r) := by cases r <;> simp only [regKind, EndsOk] <;> decide

theorem storedWord_legal {keep : Bool} {k : RegKind} (hk : EndsOk k) {val w : Word}
    (h : storedWord keep k val = some w) :
    legalWord k w = true := by
  cases k with
  | f32 lo hi =>
    obtain ⟨h1, h2, h3⟩ := hk
    simp only [storedWord] at h
    split at h
    · cases h
    · rename_i hn
      cases h
      have hn : F32.isNaN val = false := by simpa using hn
      have h4 := isNaN_clamp h1 h2 hn
      have h5 := @key_clamp lo hi val h3
      simp [legalWord, h4, h5.1, h5.2]
  | mask m =>
    cases h
    simp only [legalWord, decide_eq_true_eq]
    rw [BitVec.and_assoc, BitVec.and_self]
  | upTo hi =>
    cases h
    simp only [legalWord, uMin]
    refine decide_eq_true ?_
    split
    · exact BitVec.le_refl _
    · rename_i hc; exact BitVec.not_lt.1 hc
  | range lo hi =>
    cases h
    have hk : lo ≤ hi := hk
    simp only [legalWord, Bool.and_eq_true, decide_eq_true_eq, uMin, uMax, BitVec.lt_def, BitVec.le_def] at hk ⊢
    constructor <;> split <;> split at * <;> omega

/-- A write leaves the registers legal. -/
theorem legal_put {p : Params} (h : p.Legal) {keep : Bool} {r : Reg} {val w : Word}
    (hw : storedWord keep (regKind r) val = some w) :
    (p.put r w).Legal := by
  intro r'
  by_cases hr : r' = r
  · subst hr
    rw [u_put_same]
    exact storedWord_legal (endsOk r') hw
  · rw [u_put_other p w hr]
    exact h r'

theorem reset_legal : Params.reset.Legal := by intro r; cases r <;> decide

/-- UNISON_N of a legal register file. -/
theorem unisonCount_le {p : Params} (h : p.Legal) : unisonCount p ≤ 8 := by
  have h1 := h .unisonN
  simp only [regKind, legalWord, Bool.and_eq_true, decide_eq_true_eq, BitVec.le_def] at h1
  unfold unisonCount
  split
  · exact h1.2
  · omega

/-! The chip's constants. -/

theorem someValid_valid : Constants.someValid.Valid := by decide +kernel

theorem held_valid (k : Constants) : k.held.Valid := by
  unfold Constants.held
  split
  · assumption
  · exact someValid_valid

theorem chN_pos (k : Constants) : 0 < k.chN := by unfold Constants.chN; omega

theorem dlN_pos (k : Constants) : 0 < k.dlN := by unfold Constants.dlN; omega

theorem combN_pos {k : Constants} (h : k.Valid) (ch : Nat) (j : Fin 4) : 0 < k.combN ch j := by
  have := h.2.2.2.2.2.2.2.2.2.1 j
  unfold Constants.combN
  omega

theorem apN_pos {k : Constants} (h : k.Valid) (ch : Nat) (j : Fin 2) : 0 < k.apN ch j := by
  have := h.2.2.2.2.2.2.2.2.2.2.2.1 j
  unfold Constants.apN
  omega

/-! Effect units. -/

variable (c : Config)

theorem chorus_fits {u : Chorus} (h : u.Fits c.k) (x : Num) (md : Word) : (u.tick c x md).1.Fits c.k := by
  simp only [Chorus.tick]
  split
  · exact ⟨line_fits_put x h.buf⟩
  · exact ⟨line_fits_put x h.buf⟩

theorem delay_fits {u : Delay} (h : u.Fits c.k) (p : Params) (xL xR : Num) : (u.tick c p xL xR).1.Fits c.k := by
  simp only [Delay.tick]
  exact ⟨line_fits_put _ h.bufL, line_fits_put _ h.bufR⟩

theorem comb_fits {n : Nat} {x : Comb} (h : Line.Fits n x.ci x.buf) (p : Params) (u : Num) :
    Line.Fits n (Comb.tick c p n u x).1.ci (Comb.tick c p n u x).1.buf := by
  simp only [Comb.tick]
  exact line_fits_put _ h

theorem allPass_fits {n : Nat} {x : AllPass} (h : Line.Fits n x.ai x.buf) (s : Num) :
    Line.Fits n (AllPass.tick c n s x).1.ai (AllPass.tick c n s x).1.buf := by
  simp only [AllPass.tick]
  exact line_fits_put _ h

theorem revChannel_fits {ch : Nat} {x : RevChannel} (h : x.Fits c.k ch) (p : Params) (u : Num) :
    (x.tick c p ch u).1.Fits c.k ch := by
  constructor
  · intro j
    simp only [RevChannel.tick]
    fin_cases j
    · exact comb_fits c (h.comb 0) p u
    · exact comb_fits c (h.comb 1) p u
    · exact comb_fits c (h.comb 2) p u
    · exact comb_fits c (h.comb 3) p u
  · intro j
    simp only [RevChannel.tick]
    fin_cases j
    · exact allPass_fits c (h.ap 0) _
    · exact allPass_fits c (h.ap 1) _

theorem reverb_fits {u : Reverb} (h : u.Fits c.k) (p : Params) (xL xR : Num) : (u.tick c p xL xR).1.Fits c.k := by
  simp only [Reverb.tick]
  exact ⟨revChannel_fits c h.left p _, revChannel_fits c h.right p _⟩

theorem chorusReset_fits (k : Constants) : Chorus.reset.Fits k := ⟨line_fits_nil (chN_pos k)⟩

theorem delayReset_fits (k : Constants) : Delay.reset.Fits k :=
  ⟨line_fits_nil (dlN_pos k), line_fits_nil (dlN_pos k)⟩

theorem revChannelReset_fits {k : Constants} (h : k.Valid) (ch : Nat) : RevChannel.reset.Fits k ch := by
  constructor
  · intro j
    simpa [RevChannel.reset] using line_fits_nil (combN_pos h ch j)
  · intro j
    simpa [RevChannel.reset] using line_fits_nil (apN_pos h ch j)

/-! Pools. -/

/-- An operation that keeps every slot's note, index, age and whether it sounds, or retires it, keeps a pool sound. -/
theorem subSound_keep {pool pool' : Vector SubVoice 12} {g : Age} (h : SubPool.Sound pool g)
    (hk : ∀ i : Fin 12, pool'[i].uidx = pool[i].uidx ∧ pool'[i].age = pool[i].age ∧
      (((pool'[i].vstate = .idle ↔ pool[i].vstate = .idle) ∧ pool'[i].note = pool[i].note) ∨
       (pool'[i].vstate = .idle ∧ pool'[i].note = none))) :
    SubPool.Sound pool' g := by
  have snd : ∀ i : Fin 12, pool'[i].Sounds → pool[i].Sounds ∧ pool'[i].note = pool[i].note := by
    intro i hi
    rcases (hk i).2.2 with ⟨h1, h2⟩ | ⟨h1, _⟩
    · exact ⟨fun e => hi (h1.2 e), h2⟩
    · exact absurd h1 hi
  constructor
  · intro i
    rcases (hk i).2.2 with ⟨h1, h2⟩ | ⟨h1, h2⟩
    · rw [h1, h2]; exact h.free i
    · simp only [h1, h2]
  · intro i j hi hj hn hu
    obtain ⟨hi, hni⟩ := snd i hi
    obtain ⟨hj, hnj⟩ := snd j hj
    exact h.pairs i j hi hj (by rw [← hni, ← hnj, hn]) (by rw [← (hk i).1, ← (hk j).1, hu])
  · intro i hi
    rw [(hk i).2.1]
    exact h.below i (snd i hi).1
  · intro i j hi hj ha
    exact h.ages i j (snd i hi).1 (snd j hj).1 (by rw [← (hk i).2.1, ← (hk j).2.1, ha])

theorem epSound_keep {pool pool' : Vector EpVoice 12} {g : Age} (h : EpPool.Sound pool g)
    (hk : ∀ i : Fin 12, pool'[i].age = pool[i].age ∧
      (((pool'[i].vstate = .idle ↔ pool[i].vstate = .idle) ∧ pool'[i].note = pool[i].note) ∨
       (pool'[i].vstate = .idle ∧ pool'[i].note = none))) :
    EpPool.Sound pool' g := by
  have snd : ∀ i : Fin 12, pool'[i].Sounds → pool[i].Sounds ∧ pool'[i].note = pool[i].note := by
    intro i hi
    rcases (hk i).2 with ⟨h1, h2⟩ | ⟨h1, _⟩
    · exact ⟨fun e => hi (h1.2 e), h2⟩
    · exact absurd h1 hi
  constructor
  · intro i
    rcases (hk i).2 with ⟨h1, h2⟩ | ⟨h1, h2⟩
    · rw [h1, h2]; exact h.free i
    · simp only [h1, h2]
  · intro i j hi hj hn
    obtain ⟨hi, hni⟩ := snd i hi
    obtain ⟨hj, hnj⟩ := snd j hj
    exact h.notes i j hi hj (by rw [← hni, ← hnj, hn])
  · intro i hi
    rw [(hk i).1]
    exact h.below i (snd i hi).1
  · intro i j hi hj ha
    exact h.ages i j (snd i hi).1 (snd j hj).1 (by rw [← (hk i).1, ← (hk j).1, ha])

theorem subSound_release (cond : SubVoice → Bool) {pool : Vector SubVoice 12} {g : Age} (h : SubPool.Sound pool g) :
    SubPool.Sound (releaseSub cond pool slots) g := by
  refine subSound_keep h fun i => ?_
  rw [releaseSub_spec cond pool slots slots_nodup i]
  split
  · exact ⟨subRelease_uidx _, subRelease_age _, .inl ⟨subRelease_idle _, subRelease_note _⟩⟩
  · exact ⟨rfl, rfl, .inl ⟨Iff.rfl, rfl⟩⟩

theorem epSound_release (cond : EpVoice → Bool) {pool : Vector EpVoice 12} {g : Age} (h : EpPool.Sound pool g) :
    EpPool.Sound (releaseEp cond pool slots) g := by
  refine epSound_keep h fun i => ?_
  rw [releaseEp_spec cond pool slots slots_nodup i]
  split
  · exact ⟨epRelease_age _, .inl ⟨epRelease_idle _, epRelease_note _⟩⟩
  · exact ⟨rfl, .inl ⟨Iff.rfl, rfl⟩⟩

theorem subSound_mix (p : Params) (t : Taps) (n : Nat) {pool : Vector SubVoice 12} {g : Age}
    (h : SubPool.Sound pool g) : SubPool.Sound (mixSub c p t pool n).pool g := by
  refine subSound_keep h fun i => ?_
  have hs := (mixSub_spec c p t slots slots_nodup { pool := pool, sum := .zero, draws := n }).1 i
  by_cases hi : pool[i].vstate = .idle
  · have := hs.2 fun hc => hc.2 hi
    rw [show (mixSub c p t pool n).pool[i] = pool[i] from this]
    exact ⟨rfl, rfl, .inl ⟨Iff.rfl, rfl⟩⟩
  · obtain ⟨k, _, hk⟩ := hs.1 ⟨mem_slots i, hi⟩
    rw [show (mixSub c p t pool n).pool[i] = _ from hk]
    obtain ⟨h1, h2, h3⟩ := subVoiceTick_life c p t (c.noise k) pool[i]
    exact ⟨h1, h2, h3.imp (fun h => ⟨by rw [h.1], h.2⟩) id⟩

theorem epSound_mix (n : Nat) {pool : Vector EpVoice 12} {g : Age} (h : EpPool.Sound pool g) :
    EpPool.Sound (mixEp c pool n).pool g := by
  refine epSound_keep h fun i => ?_
  have hs := (mixEp_spec c slots slots_nodup { pool := pool, sum := .zero, draws := n }).1 i
  by_cases hi : pool[i].vstate = .idle
  · have := hs.2 fun hc => hc.2 hi
    rw [show (mixEp c pool n).pool[i] = pool[i] from this]
    exact ⟨rfl, .inl ⟨Iff.rfl, rfl⟩⟩
  · obtain ⟨k, _, hk⟩ := hs.1 ⟨mem_slots i, hi⟩
    rw [show (mixEp c pool n).pool[i] = _ from hk]
    obtain ⟨h1, h2⟩ := epVoiceTick_life c (c.noise k) pool[i]
    exact ⟨h1, h2.imp (fun h => ⟨by rw [h.1], h.2⟩) id⟩

/-! Output words. -/

/-- An output sample is in [-1, 1], or a NaN. -/
theorem outSample_range (y e : Num) :
    outSample c y e = .nan ∨ outSample c y e = .negZero ∨ ∃ q : ℚ, outSample c y e = .fin q ∧ -1 ≤ q ∧ q ≤ 1 := by
  unfold outSample Num.clamp Num.min Num.max
  generalize c.f.add (c.f.mul (.fin c.k.outGain) y) e = x
  cases x with
  | nan => left; rfl
  | negZero => right; left; norm_num [Num.one]
  | inf neg =>
    right; right
    cases neg
    · exact ⟨1, by simp [Num.one], by norm_num, by norm_num⟩
    · exact ⟨-1, by simp [Num.one], by norm_num, by norm_num⟩
  | fin q =>
    right; right
    by_cases h1 : q < -1
    · exact ⟨-1, by simp [Num.one, h1], by norm_num, by norm_num⟩
    · by_cases h2 : 1 < q
      · exact ⟨1, by simp [Num.one, h1, h2], by norm_num, by norm_num⟩
      · exact ⟨q, by simp [Num.one, h1, h2], by linarith, by linarith⟩

/-- Every output word of the chip is a binary32 value in [-1, 1] (R376, R378). -/
theorem outWord_range (n : Nat) (y e : Num) :
    F32.isNaN (outWord Config.chip n (outSample Config.chip y e)) = false ∧
    F32.mag (outWord Config.chip n (outSample Config.chip y e)) ≤ 0x3F800000 := by
  rcases outSample_range Config.chip y e with h | h | ⟨q, h, h1, h2⟩
  · rw [h]
    exact heldToUnit_range _
  · rw [h]
    change F32.isNaN F32.negZeroWord = false ∧ F32.mag F32.negZeroWord ≤ 0x3F800000
    decide
  · rw [h]
    exact ofRat_range h1 h2

end Sys2Proof.Laws
end

