-- ==== Sys2Proof/Laws/Exec.lean ====
section
/-! SUPPORT. What an instruction can do when it goes on, port by port, and what a step can do. -/

namespace Sys2Proof.Laws

open Sys2Proof.Machine

/-- A SET is a write of its register. -/
theorem exec_set (r : Reg) (val : Word) (s : State) : exec (setInstr r val) s = writeReg r val s := by
  cases r <;> rfl

/-- The instructions, with the SETs taken together. -/
theorem instr_cases (i : Instr) :
    (i = .nop ∨ (∃ note vel val, i = .noteOn note vel val) ∨ (∃ note, i = .noteOff note) ∨ i = .allNotesOff) ∨
    (∃ r val, i = setInstr r val) ∨ (∃ n, i = .render n) ∨ i = .deviceChanged ∨ i = .restartDone := by
  cases i with
  | nop => exact .inl (.inl rfl)
  | noteOn note vel val => exact .inl (.inr (.inl ⟨note, vel, val, rfl⟩))
  | noteOff note => exact .inl (.inr (.inr (.inl ⟨note, rfl⟩)))
  | allNotesOff => exact .inl (.inr (.inr (.inr rfl)))
  | setOscWaves val => exact .inr (.inl ⟨.oscWaves, val, rfl⟩)
  | setOscPw val => exact .inr (.inl ⟨.oscPw, val, rfl⟩)
  | setSubMix val => exact .inr (.inl ⟨.subMix, val, rfl⟩)
  | setNoiseMix val => exact .inr (.inl ⟨.noiseMix, val, rfl⟩)
  | setFltCutoff val => exact .inr (.inl ⟨.fltCutoff, val, rfl⟩)
  | setFltRes val => exact .inr (.inl ⟨.fltRes, val, rfl⟩)
  | setFltHpf val => exact .inr (.inl ⟨.fltHpf, val, rfl⟩)
  | setFltKeytrack val => exact .inr (.inl ⟨.fltKeytrack, val, rfl⟩)
  | setFltEnvamt val => exact .inr (.inl ⟨.fltEnvamt, val, rfl⟩)
  | setAenvA val => exact .inr (.inl ⟨.aenvA, val, rfl⟩)
  | setAenvD val => exact .inr (.inl ⟨.aenvD, val, rfl⟩)
  | setAenvS val => exact .inr (.inl ⟨.aenvS, val, rfl⟩)
  | setAenvR val => exact .inr (.inl ⟨.aenvR, val, rfl⟩)
  | setFenvA val => exact .inr (.inl ⟨.fenvA, val, rfl⟩)
  | setFenvD val => exact .inr (.inl ⟨.fenvD, val, rfl⟩)
  | setFenvS val => exact .inr (.inl ⟨.fenvS, val, rfl⟩)
  | setFenvR val => exact .inr (.inl ⟨.fenvR, val, rfl⟩)
  | setLfoRate val => exact .inr (.inl ⟨.lfoRate, val, rfl⟩)
  | setLfoDepth val => exact .inr (.inl ⟨.lfoDepth, val, rfl⟩)
  | setLfoRoute val => exact .inr (.inl ⟨.lfoRoute, val, rfl⟩)
  | setChorusSMode val => exact .inr (.inl ⟨.chorusSMode, val, rfl⟩)
  | setGlideEn val => exact .inr (.inl ⟨.glideEn, val, rfl⟩)
  | setGlideTime val => exact .inr (.inl ⟨.glideTime, val, rfl⟩)
  | setUnisonEn val => exact .inr (.inl ⟨.unisonEn, val, rfl⟩)
  | setUnisonN val => exact .inr (.inl ⟨.unisonN, val, rfl⟩)
  | setUnisonSpread val => exact .inr (.inl ⟨.unisonSpread, val, rfl⟩)
  | setTremRate val => exact .inr (.inl ⟨.tremRate, val, rfl⟩)
  | setTremDepth val => exact .inr (.inl ⟨.tremDepth, val, rfl⟩)
  | setChorusEMode val => exact .inr (.inl ⟨.chorusEMode, val, rfl⟩)
  | setDlyTime val => exact .inr (.inl ⟨.dlyTime, val, rfl⟩)
  | setDlyFb val => exact .inr (.inl ⟨.dlyFb, val, rfl⟩)
  | setDlyMix val => exact .inr (.inl ⟨.dlyMix, val, rfl⟩)
  | setRevSize val => exact .inr (.inl ⟨.revSize, val, rfl⟩)
  | setRevDamp val => exact .inr (.inl ⟨.revDamp, val, rfl⟩)
  | setRevMix val => exact .inr (.inl ⟨.revMix, val, rfl⟩)
  | setEpVol val => exact .inr (.inl ⟨.epVol, val, rfl⟩)
  | setMode val => exact .inr (.inl ⟨.mode, val, rfl⟩)
  | setMasterVol val => exact .inr (.inl ⟨.masterVol, val, rfl⟩)
  | render n => exact .inr (.inr (.inl ⟨n, rfl⟩))
  | deviceChanged => exact .inr (.inr (.inr (.inl rfl)))
  | restartDone => exact .inr (.inr (.inr (.inr rfl)))

theorem writeReg_next {r : Reg} {val : Word} {s t : State} (h : writeReg r val s = .next t) :
    (∃ w, storedWord (Config.chip.keepsSign r) (regKind r) val = some w ∧ t = s.setP r w) ∨
      (storedWord (Config.chip.keepsSign r) (regKind r) val = none ∧ t = s) := by
  unfold writeReg at h
  split at h
  · rename_i w hw
    cases h
    exact .inl ⟨w, hw, rfl⟩
  · rename_i hw
    cases h
    exact .inr ⟨hw, rfl⟩

/-- A note-on that goes on triggers the selected path's pool, or is ignored. -/
theorem noteOn_next {note vel : Byte} {val : Word} {s t : State} (h : execNoteOn note vel val s = .next t) :
    t = s ∨ ∃ n fr, noteOperand note = some n ∧ freqOperand Config.chip val = some fr ∧
      ((s.params.isSub = true ∧ stampsFit s.sub.gS (unisonIdxs (unisonCount s.params)).length = true ∧
          t = { s with sub := subNoteOn Config.chip s.params n fr s.sub }) ∨
       (s.params.isSub = false ∧ stampsFit s.ep.gE 1 = true ∧
          t = { s with ep := epNoteOn Config.chip n fr (velOperand Config.chip vel) s.ep })) := by
  unfold execNoteOn at h
  split at h
  · rename_i n fr hn hf
    unfold noteOnPath at h
    split at h
    · split at h
      · cases h; exact .inr ⟨n, fr, hn, hf, .inl ⟨‹_›, ‹_›, rfl⟩⟩
      · cases h
    · rename_i hm
      split at h
      · cases h; exact .inr ⟨n, fr, hn, hf, .inr ⟨Bool.eq_false_iff.2 hm, ‹_›, rfl⟩⟩
      · cases h
  · cases h; exact .inl rfl

theorem noteOff_next {note : Byte} {s t : State} (h : execNoteOff note s = .next t) :
    t = s ∨ ∃ n, noteOperand note = some n ∧
      ((s.params.isSub = true ∧ t = { s with sub := subNoteOff n s.sub }) ∨
       (s.params.isSub = false ∧ t = { s with ep := epNoteOff n s.ep })) := by
  unfold execNoteOff at h
  split at h
  · rename_i n hn
    split at h
    · cases h; exact .inr ⟨n, hn, .inl ⟨‹_›, rfl⟩⟩
    · rename_i hm
      cases h; exact .inr ⟨n, hn, .inr ⟨Bool.eq_false_iff.2 hm, rfl⟩⟩
  · cases h; exact .inl rfl

theorem render_next {n : Word} {s t : State} (h : execRender n s = .next t) :
    s.io.buf.holds n.toNat = true ∧
    ((n.toNat = 0 ∧ t = { s with io := { s.io with result := some .continue } }) ∨
     (n.toNat ≠ 0 ∧
      t = s.renderFrame Config.chip { base := s.io.buf.base, frames := n.toNat, next := 0 })) := by
  unfold execRender at h
  split at h
  · cases h
  · rename_i hb
    refine ⟨by simpa using hb, ?_⟩
    split at h
    · cases h; exact .inl ⟨‹_›, rfl⟩
    · cases h; exact .inr ⟨‹_›, rfl⟩

/-- A SET word decodes to the SET of some register, or not at all. -/
theorem decodeSet_ok {pid : Byte} {val : Word} {i : Instr} (h : decodeSet pid val = .ok i) :
    ∃ r, i = setInstr r val := by
  unfold decodeSet at h
  split at h <;> first
    | (cases h; done)
    | (injection h with h
       subst h
       first
      | exact ⟨.oscWaves, rfl⟩
      | exact ⟨.oscPw, rfl⟩
      | exact ⟨.subMix, rfl⟩
      | exact ⟨.noiseMix, rfl⟩
      | exact ⟨.fltCutoff, rfl⟩
      | exact ⟨.fltRes, rfl⟩
      | exact ⟨.fltHpf, rfl⟩
      | exact ⟨.fltKeytrack, rfl⟩
      | exact ⟨.fltEnvamt, rfl⟩
      | exact ⟨.aenvA, rfl⟩
      | exact ⟨.aenvD, rfl⟩
      | exact ⟨.aenvS, rfl⟩
      | exact ⟨.aenvR, rfl⟩
      | exact ⟨.fenvA, rfl⟩
      | exact ⟨.fenvD, rfl⟩
      | exact ⟨.fenvS, rfl⟩
      | exact ⟨.fenvR, rfl⟩
      | exact ⟨.lfoRate, rfl⟩
      | exact ⟨.lfoDepth, rfl⟩
      | exact ⟨.lfoRoute, rfl⟩
      | exact ⟨.chorusSMode, rfl⟩
      | exact ⟨.glideEn, rfl⟩
      | exact ⟨.glideTime, rfl⟩
      | exact ⟨.unisonEn, rfl⟩
      | exact ⟨.unisonN, rfl⟩
      | exact ⟨.unisonSpread, rfl⟩
      | exact ⟨.tremRate, rfl⟩
      | exact ⟨.tremDepth, rfl⟩
      | exact ⟨.chorusEMode, rfl⟩
      | exact ⟨.dlyTime, rfl⟩
      | exact ⟨.dlyFb, rfl⟩
      | exact ⟨.dlyMix, rfl⟩
      | exact ⟨.revSize, rfl⟩
      | exact ⟨.revDamp, rfl⟩
      | exact ⟨.revMix, rfl⟩
      | exact ⟨.epVol, rfl⟩
      | exact ⟨.mode, rfl⟩
      | exact ⟨.masterVol, rfl⟩)

/-- A word the control port accepts (R111). -/
theorem decode_ctrl {w : Cmd} {i : Instr} (h : decode .ctrl w = .ok i) :
    i = .nop ∨ i = .noteOn (noteField w) (velField w) (valField w) ∨ i = .noteOff (noteField w) ∨ i = .allNotesOff ∨
    (decodeSet (pidField w) (valField w) = .ok i ∧ ∃ r, i = setInstr r (valField w)) := by
  unfold decode at h
  split at h
  · rename_i ha
    simp only [accepts, Bool.or_eq_true, decide_eq_true_eq] at ha
    unfold decodeOpcode at h
    rcases ha with (((ha | ha) | ha) | ha) | ha <;> rw [ha] at h
    · cases h; exact .inl rfl
    · cases h; exact .inr (.inl rfl)
    · cases h; exact .inr (.inr (.inl rfl))
    · cases h; exact .inr (.inr (.inr (.inl rfl)))
    · exact .inr (.inr (.inr (.inr ⟨h, decodeSet_ok h⟩)))
  · cases h

/-- A word the audio port accepts (R111). -/
theorem decode_audio {w : Cmd} {i : Instr} (h : decode .audio w = .ok i) :
    i = .nop ∨ i = .render (valField w) := by
  unfold decode at h
  split at h
  · rename_i ha
    simp only [accepts, Bool.or_eq_true, decide_eq_true_eq] at ha
    unfold decodeOpcode at h
    rcases ha with ha | ha <;> rw [ha] at h
    · cases h; exact .inl rfl
    · cases h; exact .inr rfl
  · cases h

/-- A word the platform port accepts (R111). -/
theorem decode_plat {w : Cmd} {i : Instr} (h : decode .plat w = .ok i) :
    i = .nop ∨ i = .deviceChanged ∨ i = .restartDone := by
  unfold decode at h
  split at h
  · rename_i ha
    simp only [accepts, Bool.or_eq_true, decide_eq_true_eq] at ha
    unfold decodeOpcode at h
    rcases ha with (ha | ha) | ha <;> rw [ha] at h
    · cases h; exact .inl rfl
    · cases h; exact .inr (.inl rfl)
    · cases h; exact .inr (.inr rfl)
  · cases h

/-- A step that goes on: rest, the next frame of a render, or a command that decodes. -/
theorem step_next {s t : State} (h : step s = .next t) :
    (∃ s0, nextAction s = .rest s0 ∧ t = s0) ∨
    (∃ j s0, nextAction s = .frame j s0 ∧ t = s0.renderFrame Config.chip j) ∨
    (∃ p w s0 i, nextAction s = .command p w s0 ∧ decode p w = .ok i ∧ exec i s0 = .next t) := by
  unfold step at h
  split at h
  · cases h; exact .inl ⟨_, ‹_›, rfl⟩
  · cases h; exact .inr (.inl ⟨_, _, ‹_›, rfl⟩)
  · split at h
    · exact .inr (.inr ⟨_, _, _, _, ‹_›, ‹_›, h⟩)
    · cases h

/-- What taking a turn does: it moves the ports' queues and, on the audio port, the buffer. -/
theorem nextAction_cases (s : State) :
    (s.io.turns = [] ∧ nextAction s = .rest s) ∨
    (∃ p ps, s.io.turns = p :: ps ∧ nextAction s = portTurn p { s with io := { s.io with turns := ps } }) := by
  unfold nextAction
  split
  · exact .inl ⟨‹_›, rfl⟩
  · exact .inr ⟨_, _, ‹_›, rfl⟩

/-! The invariant, one operation at a time. -/

/-- The invariant reads only the register file, the paths, memory and the render in progress. -/
theorem sound_of_same {k : Constants} {s t : State} (h : s.Sound k) (h1 : t.params = s.params) (h2 : t.sub = s.sub)
    (h3 : t.ep = s.ep) (h4 : t.mem = s.mem) (h5 : ∀ j, t.io.job = some j → j.Sound) : t.Sound k where
  memory := h4 ▸ h.memory
  registers := h1 ▸ h.registers
  subPool := h2 ▸ h.subPool
  epPool := h3 ▸ h.epPool
  subChorus := h2 ▸ h.subChorus
  subDelay := h2 ▸ h.subDelay
  subReverb := h2 ▸ h.subReverb
  epChorus := h3 ▸ h.epChorus
  epDelay := h3 ▸ h.epDelay
  epReverb := h3 ▸ h.epReverb
  job := h5

theorem setP_sound {k : Constants} {s : State} (h : s.Sound k) {keep : Bool} {r : Reg} {val w : Word}
    (hw : storedWord keep (regKind r) val = some w) : (s.setP r w).Sound k :=
  { h with registers := legal_put h.registers hw }

/-- The subtractive path replaced by one with a sound pool and fitting lines. -/
theorem sound_sub {k : Constants} {s t : State} (h : s.Sound k) (ht : t = { s with sub := t.sub })
    (h1 : SubPool.Sound t.sub.pool t.sub.gS) (h2 : t.sub.chorus.Fits k) (h3 : t.sub.delay.Fits k)
    (h4 : t.sub.reverb.Fits k) : t.Sound k := by
  rw [ht]
  exact { h with subPool := h1, subChorus := h2, subDelay := h3, subReverb := h4 }

/-- The electric-piano path replaced by one with a sound pool and fitting lines. -/
theorem sound_ep {k : Constants} {s t : State} (h : s.Sound k) (ht : t = { s with ep := t.ep })
    (h1 : EpPool.Sound t.ep.pool t.ep.gE) (h2 : t.ep.chorus.Fits k) (h3 : t.ep.delay.Fits k)
    (h4 : t.ep.reverb.Fits k) : t.Sound k := by
  rw [ht]
  exact { h with epPool := h1, epChorus := h2, epDelay := h3, epReverb := h4 }

theorem subNoteOn_sound {k : Constants} {s : State} (h : s.Sound k) (c : Config) (n : Fin 128) (fr : Num)
    (hf : stampsFit s.sub.gS (unisonIdxs (unisonCount s.params)).length = true) :
    State.Sound k { s with sub := subNoteOn c s.params n fr s.sub } := by
  have hp := subSound_fold c s.params n fr (unisonIdxs (unisonCount s.params))
    { pool := s.sub.pool, g := s.sub.gS, taken := [] } h.subPool (by simpa [stampsFit] using hf)
  refine sound_sub h (by simp only) ?_ ?_ ?_ ?_ <;> simp only [subNoteOn]
  exacts [hp, h.subChorus, h.subDelay, h.subReverb]

theorem epNoteOn_sound {k : Constants} {s : State} (h : s.Sound k) (c : Config) (n : Fin 128) (fr v : Num)
    (hf : stampsFit s.ep.gE 1 = true) : State.Sound k { s with ep := epNoteOn c n fr v s.ep } := by
  have hp := epSound_trigger h.epPool c (epSlotFor s.ep.pool n) n fr v (by simpa [stampsFit] using hf) (by
    rcases epSlotFor_spec (pool := s.ep.pool) (n := n) rfl with h1 | ⟨h1, _⟩
    · exact .inl h1
    · exact .inr h1)
  refine sound_ep h (by simp only) ?_ ?_ ?_ ?_ <;> simp only [epNoteOn]
  exacts [hp, h.epChorus, h.epDelay, h.epReverb]

theorem subNoteOff_sound {k : Constants} {s : State} (h : s.Sound k) (n : Fin 128) :
    State.Sound k { s with sub := subNoteOff n s.sub } := by
  refine sound_sub h (by simp only) ?_ ?_ ?_ ?_ <;> simp only [subNoteOff]
  exacts [subSound_release _ h.subPool, h.subChorus, h.subDelay, h.subReverb]

theorem epNoteOff_sound {k : Constants} {s : State} (h : s.Sound k) (n : Fin 128) :
    State.Sound k { s with ep := epNoteOff n s.ep } := by
  refine sound_ep h (by simp only) ?_ ?_ ?_ ?_ <;> simp only [epNoteOff]
  exacts [epSound_release _ h.epPool, h.epChorus, h.epDelay, h.epReverb]

theorem allOff_sound {k : Constants} {s : State} (h : s.Sound k) :
    State.Sound k { s with sub := subAllOff s.sub, ep := epAllOff s.ep } := by
  have h1 : State.Sound k { s with sub := subAllOff s.sub } := by
    refine sound_sub h (by simp only) ?_ ?_ ?_ ?_ <;> simp only [subAllOff]
    exacts [subSound_release _ h.subPool, h.subChorus, h.subDelay, h.subReverb]
  refine sound_ep h1 (by simp only) ?_ ?_ ?_ ?_ <;> simp only [epAllOff]
  exacts [epSound_release _ h.epPool, h.epChorus, h.epDelay, h.epReverb]

/-- One tick. -/
theorem pathTick_sound {c : Config} {s : State} (h : s.Sound c.k) : (s.pathTick c).st.Sound c.k := by
  unfold State.pathTick
  cases s.params.isSub with
  | true =>
    rw [if_pos rfl]
    refine sound_of_same (s := { s with sub := (s.subTick c).st.sub })
      (sound_sub h (by simp only) ?_ ?_ ?_ ?_) ?_ ?_ ?_ ?_ ?_ <;> simp only [State.subTick]
    case refine_9 => exact h.job
    all_goals simp only [SubPath.tick]
    exacts [subSound_mix c _ _ _ h.subPool, chorus_fits c h.subChorus _ _, delay_fits c h.subDelay _ _ _,
      reverb_fits c h.subReverb _ _ _]
  | false =>
    rw [if_neg (by decide)]
    refine sound_of_same (s := { s with ep := (s.epTick c).st.ep })
      (sound_ep h (by simp only) ?_ ?_ ?_ ?_) ?_ ?_ ?_ ?_ ?_ <;> simp only [State.epTick]
    case refine_9 => exact h.job
    all_goals simp only [EpPath.tick]
    exacts [epSound_mix c _ h.epPool, chorus_fits c h.epChorus _ _, delay_fits c h.epDelay _ _ _,
      reverb_fits c h.epReverb _ _ _]

/-- One frame of a render. -/
theorem frame_sound {c : Config} {s : State} (h : s.Sound c.k) {j : Job} (hj : j.Sound) :
    (s.renderFrame c j).Sound c.k := by
  have h1 := pathTick_sound h
  have h2 : (s.renderFrame c j).mem = Memory.writeFrame s.mem j.base j.next (s.tick c).l (s.tick c).r :=
    frame_mem s c j
  constructor
  · rw [h2]; exact wf_writeFrame _ _ _ _ h.memory
  · rw [frame_params]; exact h.registers
  · rw [frame_sub]; exact h1.subPool
  · rw [frame_ep]; exact h1.epPool
  · rw [frame_sub]; exact h1.subChorus
  · rw [frame_sub]; exact h1.subDelay
  · rw [frame_sub]; exact h1.subReverb
  · rw [frame_ep]; exact h1.epChorus
  · rw [frame_ep]; exact h1.epDelay
  · rw [frame_ep]; exact h1.epReverb
  · intro j' hj'
    rw [frame_io] at hj'
    unfold Ports.afterFrame at hj'
    split at hj'
    · cases hj'; exact ⟨hj.1, ‹_›⟩
    · cases hj'

end Sys2Proof.Laws
end

