-- ==== Sys2Proof/Laws/PerInstr.lean ====
section
/-! SUPPORT. Per-instruction statements: each instruction's word matches its own row of spec/opcode_table.json. -/

namespace Sys2Proof.Laws

/-- The mask and the match of an instruction's row in spec/opcode_table.json. -/
def tableRow : Instr → Cmd × Cmd
  | .nop => (0xFF00000000000000, 0x0000000000000000)
  | .noteOn _ _ _ => (0xFF00000000000000, 0x0100000000000000)
  | .noteOff _ => (0xFF00000000000000, 0x0200000000000000)
  | .allNotesOff => (0xFF00000000000000, 0x0300000000000000)
  | .setOscWaves _ => (0xFFFF000000000000, 0x1000000000000000)
  | .setOscPw _ => (0xFFFF000000000000, 0x1001000000000000)
  | .setSubMix _ => (0xFFFF000000000000, 0x1002000000000000)
  | .setNoiseMix _ => (0xFFFF000000000000, 0x1003000000000000)
  | .setFltCutoff _ => (0xFFFF000000000000, 0x1004000000000000)
  | .setFltRes _ => (0xFFFF000000000000, 0x1005000000000000)
  | .setFltHpf _ => (0xFFFF000000000000, 0x1006000000000000)
  | .setFltKeytrack _ => (0xFFFF000000000000, 0x1007000000000000)
  | .setFltEnvamt _ => (0xFFFF000000000000, 0x1008000000000000)
  | .setAenvA _ => (0xFFFF000000000000, 0x1009000000000000)
  | .setAenvD _ => (0xFFFF000000000000, 0x100A000000000000)
  | .setAenvS _ => (0xFFFF000000000000, 0x100B000000000000)
  | .setAenvR _ => (0xFFFF000000000000, 0x100C000000000000)
  | .setFenvA _ => (0xFFFF000000000000, 0x100D000000000000)
  | .setFenvD _ => (0xFFFF000000000000, 0x100E000000000000)
  | .setFenvS _ => (0xFFFF000000000000, 0x100F000000000000)
  | .setFenvR _ => (0xFFFF000000000000, 0x1010000000000000)
  | .setLfoRate _ => (0xFFFF000000000000, 0x1011000000000000)
  | .setLfoDepth _ => (0xFFFF000000000000, 0x1012000000000000)
  | .setLfoRoute _ => (0xFFFF000000000000, 0x1013000000000000)
  | .setChorusSMode _ => (0xFFFF000000000000, 0x1014000000000000)
  | .setGlideEn _ => (0xFFFF000000000000, 0x1015000000000000)
  | .setGlideTime _ => (0xFFFF000000000000, 0x1016000000000000)
  | .setUnisonEn _ => (0xFFFF000000000000, 0x1017000000000000)
  | .setUnisonN _ => (0xFFFF000000000000, 0x1018000000000000)
  | .setUnisonSpread _ => (0xFFFF000000000000, 0x1019000000000000)
  | .setTremRate _ => (0xFFFF000000000000, 0x1020000000000000)
  | .setTremDepth _ => (0xFFFF000000000000, 0x1021000000000000)
  | .setChorusEMode _ => (0xFFFF000000000000, 0x1022000000000000)
  | .setDlyTime _ => (0xFFFF000000000000, 0x1023000000000000)
  | .setDlyFb _ => (0xFFFF000000000000, 0x1024000000000000)
  | .setDlyMix _ => (0xFFFF000000000000, 0x1025000000000000)
  | .setRevSize _ => (0xFFFF000000000000, 0x1026000000000000)
  | .setRevDamp _ => (0xFFFF000000000000, 0x1027000000000000)
  | .setRevMix _ => (0xFFFF000000000000, 0x1028000000000000)
  | .setEpVol _ => (0xFFFF000000000000, 0x1029000000000000)
  | .setMode _ => (0xFFFF000000000000, 0x1030000000000000)
  | .setMasterVol _ => (0xFFFF000000000000, 0x1031000000000000)
  | .render _ => (0xFF00000000000000, 0x2000000000000000)
  | .deviceChanged => (0xFF00000000000000, 0x3000000000000000)
  | .restartDone => (0xFF00000000000000, 0x3100000000000000)

theorem packCmd_op (op pid note vel : Byte) (val : Word) :
    packCmd op pid note vel val &&& 0xFF00000000000000 = packCmd op 0 0 0 0 := by
  apply BitVec.eq_of_getLsbD_eq
  intro i hi
  simp only [packCmd, BitVec.getLsbD_and, BitVec.getLsbD_append]
  interval_cases i <;> simp

theorem packSet_pid (pid : Byte) (val : Word) :
    packSet pid val &&& 0xFFFF000000000000 = packCmd 0x10 pid 0 0 0 := by
  apply BitVec.eq_of_getLsbD_eq
  intro i hi
  simp only [packSet, packCmd, BitVec.getLsbD_and, BitVec.getLsbD_append]
  interval_cases i <;> simp

theorem opField_packCmd (op pid note vel : Byte) (val : Word) : opField (packCmd op pid note vel val) = op := by
  apply BitVec.eq_of_getLsbD_eq
  intro i hi
  simp only [packCmd, opField, BitVec.getLsbD_extractLsb', BitVec.getLsbD_append]
  interval_cases i <;> simp

/-- The instruction's word matches its row of the table. -/
def EncodesItsRow.Statement (i : Instr) : Prop :=
  encode i &&& (tableRow i).1 = (tableRow i).2

namespace EncodesItsRow

theorem nop : Statement .nop := by
  simp only [Statement, encode, tableRow, packCmd_op]; rfl

theorem noteOn (note vel : Byte) (val : Word) : Statement (.noteOn note vel val) := by
  simp only [Statement, encode, tableRow, packCmd_op]; rfl

theorem noteOff (note : Byte) : Statement (.noteOff note) := by
  simp only [Statement, encode, tableRow, packCmd_op]; rfl

theorem allNotesOff : Statement .allNotesOff := by
  simp only [Statement, encode, tableRow, packCmd_op]; rfl

theorem setOscWaves (val : Word) : Statement (.setOscWaves val) := by
  simp only [Statement, encode, tableRow, packSet_pid]; rfl

theorem setOscPw (val : Word) : Statement (.setOscPw val) := by
  simp only [Statement, encode, tableRow, packSet_pid]; rfl

theorem setSubMix (val : Word) : Statement (.setSubMix val) := by
  simp only [Statement, encode, tableRow, packSet_pid]; rfl

theorem setNoiseMix (val : Word) : Statement (.setNoiseMix val) := by
  simp only [Statement, encode, tableRow, packSet_pid]; rfl

theorem setFltCutoff (val : Word) : Statement (.setFltCutoff val) := by
  simp only [Statement, encode, tableRow, packSet_pid]; rfl

theorem setFltRes (val : Word) : Statement (.setFltRes val) := by
  simp only [Statement, encode, tableRow, packSet_pid]; rfl

theorem setFltHpf (val : Word) : Statement (.setFltHpf val) := by
  simp only [Statement, encode, tableRow, packSet_pid]; rfl

theorem setFltKeytrack (val : Word) : Statement (.setFltKeytrack val) := by
  simp only [Statement, encode, tableRow, packSet_pid]; rfl

theorem setFltEnvamt (val : Word) : Statement (.setFltEnvamt val) := by
  simp only [Statement, encode, tableRow, packSet_pid]; rfl

theorem setAenvA (val : Word) : Statement (.setAenvA val) := by
  simp only [Statement, encode, tableRow, packSet_pid]; rfl

theorem setAenvD (val : Word) : Statement (.setAenvD val) := by
  simp only [Statement, encode, tableRow, packSet_pid]; rfl

theorem setAenvS (val : Word) : Statement (.setAenvS val) := by
  simp only [Statement, encode, tableRow, packSet_pid]; rfl

theorem setAenvR (val : Word) : Statement (.setAenvR val) := by
  simp only [Statement, encode, tableRow, packSet_pid]; rfl

theorem setFenvA (val : Word) : Statement (.setFenvA val) := by
  simp only [Statement, encode, tableRow, packSet_pid]; rfl

theorem setFenvD (val : Word) : Statement (.setFenvD val) := by
  simp only [Statement, encode, tableRow, packSet_pid]; rfl

theorem setFenvS (val : Word) : Statement (.setFenvS val) := by
  simp only [Statement, encode, tableRow, packSet_pid]; rfl

theorem setFenvR (val : Word) : Statement (.setFenvR val) := by
  simp only [Statement, encode, tableRow, packSet_pid]; rfl

theorem setLfoRate (val : Word) : Statement (.setLfoRate val) := by
  simp only [Statement, encode, tableRow, packSet_pid]; rfl

theorem setLfoDepth (val : Word) : Statement (.setLfoDepth val) := by
  simp only [Statement, encode, tableRow, packSet_pid]; rfl

theorem setLfoRoute (val : Word) : Statement (.setLfoRoute val) := by
  simp only [Statement, encode, tableRow, packSet_pid]; rfl

theorem setChorusSMode (val : Word) : Statement (.setChorusSMode val) := by
  simp only [Statement, encode, tableRow, packSet_pid]; rfl

theorem setGlideEn (val : Word) : Statement (.setGlideEn val) := by
  simp only [Statement, encode, tableRow, packSet_pid]; rfl

theorem setGlideTime (val : Word) : Statement (.setGlideTime val) := by
  simp only [Statement, encode, tableRow, packSet_pid]; rfl

theorem setUnisonEn (val : Word) : Statement (.setUnisonEn val) := by
  simp only [Statement, encode, tableRow, packSet_pid]; rfl

theorem setUnisonN (val : Word) : Statement (.setUnisonN val) := by
  simp only [Statement, encode, tableRow, packSet_pid]; rfl

theorem setUnisonSpread (val : Word) : Statement (.setUnisonSpread val) := by
  simp only [Statement, encode, tableRow, packSet_pid]; rfl

theorem setTremRate (val : Word) : Statement (.setTremRate val) := by
  simp only [Statement, encode, tableRow, packSet_pid]; rfl

theorem setTremDepth (val : Word) : Statement (.setTremDepth val) := by
  simp only [Statement, encode, tableRow, packSet_pid]; rfl

theorem setChorusEMode (val : Word) : Statement (.setChorusEMode val) := by
  simp only [Statement, encode, tableRow, packSet_pid]; rfl

theorem setDlyTime (val : Word) : Statement (.setDlyTime val) := by
  simp only [Statement, encode, tableRow, packSet_pid]; rfl

theorem setDlyFb (val : Word) : Statement (.setDlyFb val) := by
  simp only [Statement, encode, tableRow, packSet_pid]; rfl

theorem setDlyMix (val : Word) : Statement (.setDlyMix val) := by
  simp only [Statement, encode, tableRow, packSet_pid]; rfl

theorem setRevSize (val : Word) : Statement (.setRevSize val) := by
  simp only [Statement, encode, tableRow, packSet_pid]; rfl

theorem setRevDamp (val : Word) : Statement (.setRevDamp val) := by
  simp only [Statement, encode, tableRow, packSet_pid]; rfl

theorem setRevMix (val : Word) : Statement (.setRevMix val) := by
  simp only [Statement, encode, tableRow, packSet_pid]; rfl

theorem setEpVol (val : Word) : Statement (.setEpVol val) := by
  simp only [Statement, encode, tableRow, packSet_pid]; rfl

theorem setMode (val : Word) : Statement (.setMode val) := by
  simp only [Statement, encode, tableRow, packSet_pid]; rfl

theorem setMasterVol (val : Word) : Statement (.setMasterVol val) := by
  simp only [Statement, encode, tableRow, packSet_pid]; rfl

theorem render (frames : Word) : Statement (.render frames) := by
  simp only [Statement, encode, tableRow, packCmd_op]; rfl

theorem deviceChanged : Statement .deviceChanged := by
  simp only [Statement, encode, tableRow, packCmd_op]; rfl

theorem restartDone : Statement .restartDone := by
  simp only [Statement, encode, tableRow, packCmd_op]; rfl

end EncodesItsRow

end Sys2Proof.Laws
end

