-- ==== Sys2Proof/Laws/Tick.lean ====
section
/-! SUPPORT. What mixing a pool gives: each sounding slot's tick, with the noise value of its place, and the sum of the
outputs in slot order. -/

namespace Sys2Proof.Laws

open Sys2Proof.Machine

theorem slots_eq : slots = List.finRange 12 := rfl

/-- How many slots below i sound. -/
def countBelow (sounds : Fin 12 → Bool) (i : Fin 12) : Nat :=
  ((List.finRange 12).filter fun j => decide (j < i) && sounds j).length

theorem take_succ (m : Fin 12) : slots.take (m + 1) = slots.take m ++ [m] := by revert m; decide

/-- The number of sounding slots among the first m. -/
theorem count_take (sounds : Fin 12 → Bool) (m : Fin 12) :
    ((slots.take m).filter sounds).length = countBelow sounds m := by
  have h : ∀ m : Fin 12, slots.take m = (List.finRange 12).filter fun j => decide (j < m) := by decide
  rw [h, List.filter_filter]
  unfold countBelow
  congr 2
  funext j
  exact Bool.and_comm _ _

/-- A mix after its first m slots: each of them holds its share, the others what they held. -/
structure Mixed {V : Type} (f : Format) (sounds : Fin 12 → Bool) (share : Fin 12 → V × Num) (pool : Vector V 12)
    (draws : Nat) (m : Nat) (now : Vector V 12) (sum : Num) (drawn : Nat) : Prop where
  slot  : ∀ i : Fin 12, now[i] = if i.val < m then (share i).1 else pool[i]
  sum   : sum = (slots.take m).foldl (fun acc i => f.add acc (share i).2) .zero
  drawn : drawn = draws + ((slots.take m).filter sounds).length

section

variable {V : Type} {f : Format} {sounds : Fin 12 → Bool} {share : Fin 12 → V × Num} {pool : Vector V 12} {draws : Nat}

theorem mixed_start : Mixed f sounds share pool draws 0 pool .zero draws :=
  ⟨fun _ => (if_neg (Nat.not_lt_zero _)).symm, rfl, rfl⟩

/-- The slot that is next holds what it held, and its noise value is the one of its place. -/
theorem mixed_next {m : Fin 12} {now : Vector V 12} {sum : Num} {drawn : Nat}
    (h : Mixed f sounds share pool draws m now sum drawn) :
    now[m] = pool[m] ∧ drawn = draws + countBelow sounds m :=
  ⟨(h.slot m).trans (if_neg (lt_irrefl _)), h.drawn.trans (by rw [count_take])⟩

theorem mixed_idle {m : Fin 12} {now : Vector V 12} {sum : Num} {drawn : Nat}
    (h : Mixed f sounds share pool draws m now sum drawn) (hs : sounds m = false) (he : share m = (pool[m], .zero)) :
    Mixed f sounds share pool draws (m + 1) now (f.add sum .zero) drawn where
  slot i := by
    rw [h.slot]
    by_cases hi : i = m
    · subst hi
      rw [if_neg (lt_irrefl _), if_pos (Nat.lt_succ_self _), he]
    · have : i.val ≠ m.val := fun e => hi (Fin.ext e)
      simp only [show i.val < m.val + 1 ↔ i.val < m.val by omega]
  sum := by
    rw [take_succ, List.foldl_append, ← h.sum, List.foldl_cons, List.foldl_nil, he]
  drawn := by simp [take_succ, h.drawn, hs]

theorem mixed_tick {m : Fin 12} {now : Vector V 12} {sum : Num} {drawn : Nat}
    (h : Mixed f sounds share pool draws m now sum drawn) (hs : sounds m = true) :
    Mixed f sounds share pool draws (m + 1) (now.set m (share m).1) (f.add sum (share m).2) (drawn + 1) where
  slot i := by
    by_cases hi : i = m
    · subst hi
      rw [getElem_set_same, if_pos (Nat.lt_succ_self _)]
    · have : i.val ≠ m.val := fun e => hi (Fin.ext e)
      rw [getElem_set_other _ _ hi, h.slot]
      simp only [show i.val < m.val + 1 ↔ i.val < m.val by omega]
  sum := by
    rw [take_succ, List.foldl_append, ← h.sum, List.foldl_cons, List.foldl_nil]
  drawn := by simp [take_succ, h.drawn, hs, Nat.add_assoc]

theorem mixed_end {now : Vector V 12} {sum : Num} {drawn : Nat}
    (h : Mixed f sounds share pool draws 12 now sum drawn) :
    now = Vector.ofFn (fun i => (share i).1) ∧
    sum = (List.finRange 12).foldl (fun acc i => f.add acc (share i).2) .zero := by
  refine ⟨Vector.ext fun i hi => ?_, h.sum⟩
  rw [Vector.getElem_ofFn]
  exact (h.slot ⟨i, hi⟩).trans (if_pos hi)

end

/-- Which slots of the subtractive pool sound. -/
def subSounds (pool : Vector SubVoice 12) (i : Fin 12) : Bool := decide (pool[i].vstate ≠ .idle)

/-- Which slots of the electric-piano pool sound. -/
def epSounds (pool : Vector EpVoice 12) (i : Fin 12) : Bool := decide (pool[i].vstate ≠ .idle)

/-- A slot's share of a mix: its tick with the noise value of its place, or itself and 0 where it is IDLE. -/
def subShare (c : Config) (p : Params) (t : Taps) (pool : Vector SubVoice 12) (draws : Nat) (i : Fin 12) :
    SubVoice × Num :=
  if subSounds pool i then pool[i].tick c p t (c.noise (draws + countBelow (subSounds pool) i))
  else (pool[i], .zero)

/-- An electric-piano slot's share of a mix. -/
def epShare (c : Config) (pool : Vector EpVoice 12) (draws : Nat) (i : Fin 12) : EpVoice × Num :=
  if epSounds pool i then pool[i].tick c (c.noise (draws + countBelow (epSounds pool) i)) else (pool[i], .zero)

theorem mixSub_step {c : Config} {p : Params} {t : Taps} {pool : Vector SubVoice 12} {draws : Nat} {m : Fin 12}
    {a : SubMix} (h : Mixed c.f (subSounds pool) (subShare c p t pool draws) pool draws m a.pool a.sum a.draws) :
    Mixed c.f (subSounds pool) (subShare c p t pool draws) pool draws (m + 1) (mixSubSlot c p t a m).pool
      (mixSubSlot c p t a m).sum (mixSubSlot c p t a m).draws := by
  obtain ⟨h1, h2⟩ := mixed_next h
  unfold mixSubSlot
  by_cases hs : pool[m].vstate = .idle
  · have hn : subSounds pool m = false := decide_eq_false (not_not.2 hs)
    rw [h1, if_pos hs]
    exact mixed_idle h hn (by unfold subShare; rw [hn]; rfl)
  · have hn : subSounds pool m = true := decide_eq_true hs
    have he : subShare c p t pool draws m = pool[m].tick c p t (c.noise a.draws) := by
      unfold subShare; rw [if_pos hn, h2]
    rw [h1, if_neg hs, ← he]
    exact mixed_tick h hn

/-- The mix of the subtractive pool after its first m slots. -/
theorem mixSub_take (c : Config) (p : Params) (t : Taps) (pool : Vector SubVoice 12) (draws m : Nat) (hm : m ≤ 12) :
    let a := (slots.take m).foldl (mixSubSlot c p t) { pool := pool, sum := .zero, draws := draws }
    Mixed c.f (subSounds pool) (subShare c p t pool draws) pool draws m a.pool a.sum a.draws := by
  induction m with
  | zero => exact mixed_start
  | succ m ih =>
    rw [take_succ ⟨m, by omega⟩, List.foldl_append]
    exact mixSub_step (m := ⟨m, by omega⟩) (ih (by omega))

/-- Mixing the subtractive pool (R292, R372). -/
theorem mixSub_eq (c : Config) (p : Params) (t : Taps) (pool : Vector SubVoice 12) (draws : Nat) :
    (mixSub c p t pool draws).pool = Vector.ofFn (fun i => (subShare c p t pool draws i).1) ∧
    (mixSub c p t pool draws).sum =
      (List.finRange 12).foldl (fun acc i => c.f.add acc (subShare c p t pool draws i).2) .zero :=
  mixed_end (mixSub_take c p t pool draws 12 le_rfl)

theorem mixEp_step {c : Config} {pool : Vector EpVoice 12} {draws : Nat} {m : Fin 12} {a : EpMix}
    (h : Mixed c.f (epSounds pool) (epShare c pool draws) pool draws m a.pool a.sum a.draws) :
    Mixed c.f (epSounds pool) (epShare c pool draws) pool draws (m + 1) (mixEpSlot c a m).pool
      (mixEpSlot c a m).sum (mixEpSlot c a m).draws := by
  obtain ⟨h1, h2⟩ := mixed_next h
  unfold mixEpSlot
  by_cases hs : pool[m].vstate = .idle
  · have hn : epSounds pool m = false := decide_eq_false (not_not.2 hs)
    rw [h1, if_pos hs]
    exact mixed_idle h hn (by unfold epShare; rw [hn]; rfl)
  · have hn : epSounds pool m = true := decide_eq_true hs
    have he : epShare c pool draws m = pool[m].tick c (c.noise a.draws) := by
      unfold epShare; rw [if_pos hn, h2]
    rw [h1, if_neg hs, ← he]
    exact mixed_tick h hn

/-- The mix of the electric-piano pool after its first m slots. -/
theorem mixEp_take (c : Config) (pool : Vector EpVoice 12) (draws m : Nat) (hm : m ≤ 12) :
    let a := (slots.take m).foldl (mixEpSlot c) { pool := pool, sum := .zero, draws := draws }
    Mixed c.f (epSounds pool) (epShare c pool draws) pool draws m a.pool a.sum a.draws := by
  induction m with
  | zero => exact mixed_start
  | succ m ih =>
    rw [take_succ ⟨m, by omega⟩, List.foldl_append]
    exact mixEp_step (m := ⟨m, by omega⟩) (ih (by omega))

/-- Mixing the electric-piano pool (R292, R373). -/
theorem mixEp_eq (c : Config) (pool : Vector EpVoice 12) (draws : Nat) :
    (mixEp c pool draws).pool = Vector.ofFn (fun i => (epShare c pool draws i).1) ∧
    (mixEp c pool draws).sum =
      (List.finRange 12).foldl (fun acc i => c.f.add acc (epShare c pool draws i).2) .zero :=
  mixed_end (mixEp_take c pool draws 12 le_rfl)

end Sys2Proof.Laws
end

