-- ==== Sys2Proof/WellFormed.lean ====
section
/-! DEFINITION. Which terms of Instr carry operands in range. Every term is encodable, since its fields have the widths
of R101; the checks here are the operand conditions of 60_exceptions.md R402, rows 4 to 6. A command that fails one is
still decoded and run: the block ignores it. -/

namespace Sys2Proof

/-- NOTE is a MIDI note number, 0 to 127 (30_encoding.md R104; R402 row 4). -/
def noteInRange (note : Byte) : Bool := decide (note.toNat ≤ 127)

/-- VAL is not a NaN pattern (R402 rows 5 and 6). -/
def valIsNumber (val : Word) : Bool := !Machine.F32.isNaN val

/-- The operands are ones the instruction does not ignore. -/
def Instr.WellFormed : Instr → Bool
  | .nop => true
  | .noteOn note _ val => noteInRange note && valIsNumber val
  | .noteOff note => noteInRange note
  | .allNotesOff => true
  | .setOscWaves _ => true
  | .setOscPw val => valIsNumber val
  | .setSubMix val => valIsNumber val
  | .setNoiseMix val => valIsNumber val
  | .setFltCutoff val => valIsNumber val
  | .setFltRes val => valIsNumber val
  | .setFltHpf val => valIsNumber val
  | .setFltKeytrack val => valIsNumber val
  | .setFltEnvamt val => valIsNumber val
  | .setAenvA val => valIsNumber val
  | .setAenvD val => valIsNumber val
  | .setAenvS val => valIsNumber val
  | .setAenvR val => valIsNumber val
  | .setFenvA val => valIsNumber val
  | .setFenvD val => valIsNumber val
  | .setFenvS val => valIsNumber val
  | .setFenvR val => valIsNumber val
  | .setLfoRate val => valIsNumber val
  | .setLfoDepth val => valIsNumber val
  | .setLfoRoute _ => true
  | .setChorusSMode _ => true
  | .setGlideEn _ => true
  | .setGlideTime val => valIsNumber val
  | .setUnisonEn _ => true
  | .setUnisonN _ => true
  | .setUnisonSpread val => valIsNumber val
  | .setTremRate val => valIsNumber val
  | .setTremDepth val => valIsNumber val
  | .setChorusEMode _ => true
  | .setDlyTime val => valIsNumber val
  | .setDlyFb val => valIsNumber val
  | .setDlyMix val => valIsNumber val
  | .setRevSize val => valIsNumber val
  | .setRevDamp val => valIsNumber val
  | .setRevMix val => valIsNumber val
  | .setEpVol val => valIsNumber val
  | .setMode _ => true
  | .setMasterVol val => valIsNumber val
  | .render _ => true
  | .deviceChanged => true
  | .restartDone => true

end Sys2Proof
end

