-- ==== Sys2Proof/Tests/Slice0.lean ====
section
/-! SUPPORT. Tests, with expected results from the spec's worked examples and vectors (95_test_vectors.md; each test
names its vector), and for each statement with hypotheses a witness that they can be met. -/

namespace Sys2Proof.Tests

open Sys2Proof.Machine Sys2Proof.Claims Sys2Proof.Laws

/-! Decoding. Each word is written out from the encoding of its rule: OP in bits 63:56, PID in 55:48, NOTE in 47:40,
VEL in 39:32, VAL in 31:0 (R101). -/

/-- E1, E2, E8; R107. -/
theorem test_decode_notes :
    decode .ctrl 0x0000000000000000 = .ok .nop ∧
    decode .ctrl 0x0100456443DC0000 = .ok (.noteOn 0x45 0x64 0x43DC0000) ∧
    decode .ctrl 0x0200450000000000 = .ok (.noteOff 0x45) ∧
    decode .ctrl 0x0300000000000000 = .ok .allNotesOff := by decide

/-- E7, E8, E18; R107, R111. -/
theorem test_decode_audio_and_platform :
    decode .audio 0x2000000000000100 = .ok (.render 0x100) ∧
    decode .audio 0x0000000000000000 = .ok .nop ∧
    decode .plat 0x3000000000000000 = .ok .deviceChanged ∧
    decode .plat 0x3100000000000000 = .ok .restartDone ∧
    decode .plat 0x0000000000000000 = .ok .nop := by decide

/-- R316 to R320 and R321 to R324, PIDs 0x00 to 0x08 of R23. -/
theorem test_decode_set_oscillator_and_filter :
    decode .ctrl 0x1000000000000009 = .ok (.setOscWaves 9) ∧
    decode .ctrl 0x100100003F000000 = .ok (.setOscPw 0x3F000000) ∧
    decode .ctrl 0x100200003F000000 = .ok (.setSubMix 0x3F000000) ∧
    decode .ctrl 0x10030000BF800000 = .ok (.setNoiseMix 0xBF800000) ∧
    decode .ctrl 0x10040000447A0000 = .ok (.setFltCutoff 0x447A0000) ∧
    decode .ctrl 0x100500003F800000 = .ok (.setFltRes 0x3F800000) ∧
    decode .ctrl 0x1006000042C80000 = .ok (.setFltHpf 0x42C80000) ∧
    decode .ctrl 0x100700003F800000 = .ok (.setFltKeytrack 0x3F800000) ∧
    decode .ctrl 0x10080000C6C35000 = .ok (.setFltEnvamt 0xC6C35000) := by decide

/-- E11; R325 to R332, PIDs 0x09 to 0x10. -/
theorem test_decode_set_envelopes :
    decode .ctrl 0x100900003C23D70A = .ok (.setAenvA 0x3C23D70A) ∧
    decode .ctrl 0x100A00003DCCCCCD = .ok (.setAenvD 0x3DCCCCCD) ∧
    decode .ctrl 0x100B00003F000000 = .ok (.setAenvS 0x3F000000) ∧
    decode .ctrl 0x100C00003E99999A = .ok (.setAenvR 0x3E99999A) ∧
    decode .ctrl 0x100D00003C23D70A = .ok (.setFenvA 0x3C23D70A) ∧
    decode .ctrl 0x100E00003DCCCCCD = .ok (.setFenvD 0x3DCCCCCD) ∧
    decode .ctrl 0x100F00003F000000 = .ok (.setFenvS 0x3F000000) ∧
    decode .ctrl 0x101000003E99999A = .ok (.setFenvR 0x3E99999A) := by decide

/-- E6, E12; R333 to R341, PIDs 0x11 to 0x19. -/
theorem test_decode_set_lfo_glide_and_unison :
    decode .ctrl 0x1011000040800000 = .ok (.setLfoRate 0x40800000) ∧
    decode .ctrl 0x101200003F800000 = .ok (.setLfoDepth 0x3F800000) ∧
    decode .ctrl 0x1013000000000005 = .ok (.setLfoRoute 5) ∧
    decode .ctrl 0x1014000000000001 = .ok (.setChorusSMode 1) ∧
    decode .ctrl 0x1015000000000001 = .ok (.setGlideEn 1) ∧
    decode .ctrl 0x101600003DCCCCCD = .ok (.setGlideTime 0x3DCCCCCD) ∧
    decode .ctrl 0x1017000000000001 = .ok (.setUnisonEn 1) ∧
    decode .ctrl 0x1018000000000003 = .ok (.setUnisonN 3) ∧
    decode .ctrl 0x1019000041200000 = .ok (.setUnisonSpread 0x41200000) := by decide

/-- R342 to R353, PIDs 0x20 to 0x29, 0x30 and 0x31. -/
theorem test_decode_set_effects_and_global :
    decode .ctrl 0x1020000040A00000 = .ok (.setTremRate 0x40A00000) ∧
    decode .ctrl 0x102100003F800000 = .ok (.setTremDepth 0x3F800000) ∧
    decode .ctrl 0x1022000000000002 = .ok (.setChorusEMode 2) ∧
    decode .ctrl 0x102300003E800000 = .ok (.setDlyTime 0x3E800000) ∧
    decode .ctrl 0x102400003F666666 = .ok (.setDlyFb 0x3F666666) ∧
    decode .ctrl 0x102500003F800000 = .ok (.setDlyMix 0x3F800000) ∧
    decode .ctrl 0x102600003F000000 = .ok (.setRevSize 0x3F000000) ∧
    decode .ctrl 0x102700003F000000 = .ok (.setRevDamp 0x3F000000) ∧
    decode .ctrl 0x102800003F800000 = .ok (.setRevMix 0x3F800000) ∧
    decode .ctrl 0x102900003F800000 = .ok (.setEpVol 0x3F800000) ∧
    decode .ctrl 0x1030000000000007 = .ok (.setMode 7) ∧
    decode .ctrl 0x103100003FC00000 = .ok (.setMasterVol 0x3FC00000) := by decide

/-- E14 to E17: a reserved PID, a reserved opcode, and two opcodes on a port that does not accept them. -/
theorem test_decode_rejects :
    decode .ctrl 0x10FF000000000000 = .error .reservedPid ∧
    decodeOpcode 0x0500000000000000 = .error .reservedOpcode ∧
    decode .ctrl 0x0500000000000000 = .error .portRejects ∧
    decode .ctrl 0x2000000000000004 = .error .portRejects ∧
    decode .audio 0x0100456443DC0000 = .error .portRejects ∧
    decodeBytes .ctrl [0, 0, 0, 0, 0, 0, 0] = .error .truncated := by decide

/-- R109: the PIDs at the ends of the assigned ranges, and the reserved ones next to them. -/
theorem test_decode_pid_boundaries :
    (decodeSet 0x19 0 = .ok (.setUnisonSpread 0) ∧ decodeSet 0x1A 0 = .error .reservedPid) ∧
    (decodeSet 0x1F 0 = .error .reservedPid ∧ decodeSet 0x20 0 = .ok (.setTremRate 0)) ∧
    (decodeSet 0x29 0 = .ok (.setEpVol 0) ∧ decodeSet 0x2A 0 = .error .reservedPid) ∧
    (decodeSet 0x2F 0 = .error .reservedPid ∧ decodeSet 0x30 0 = .ok (.setMode 0)) ∧
    (decodeSet 0x31 0 = .ok (.setMasterVol 0) ∧ decodeSet 0x32 0 = .error .reservedPid) := by decide

/-- R76: the bytes of E3 in the order they are carried. -/
theorem test_word_bytes :
    cmdBytes 0x10040000447A0000 = [0x00, 0x00, 0x7A, 0x44, 0x00, 0x00, 0x04, 0x10] ∧
    decodeBytes .ctrl [0x00, 0x00, 0x7A, 0x44, 0x00, 0x00, 0x04, 0x10, 0xAA] =
      .ok (.setFltCutoff 0x447A0000, [0xAA]) := by decide

/-! WellFormed: one ill-formed term for each check (R402 rows 4 to 6). -/

theorem test_wf_note :
    (Instr.noteOn 128 100 0x43DC0000).WellFormed = false ∧ (Instr.noteOn 127 100 0x43DC0000).WellFormed = true ∧
    (Instr.noteOff 128).WellFormed = false ∧ (Instr.noteOff 127).WellFormed = true := by decide

theorem test_wf_note_on_nan : (Instr.noteOn 69 100 0x7FC00000).WellFormed = false := by decide

/-- Every f32 register's SET refuses a NaN, and no u32 register's does. -/
theorem test_wf_set_nan :
    ∀ r : Fin 38, ∀ x ∈ [Reg.oscWaves, .oscPw, .subMix, .noiseMix, .fltCutoff, .fltRes, .fltHpf, .fltKeytrack,
      .fltEnvamt, .aenvA, .aenvD, .aenvS, .aenvR, .fenvA, .fenvD, .fenvS, .fenvR, .lfoRate, .lfoDepth, .lfoRoute,
      .chorusSMode, .glideEn, .glideTime, .unisonEn, .unisonN, .unisonSpread, .tremRate, .tremDepth, .chorusEMode,
      .dlyTime, .dlyFb, .dlyMix, .revSize, .revDamp, .revMix, .epVol, .mode, .masterVol],
      regIdx x = r → (setInstr x 0x7FC00000).WellFormed = (f32Range x).isNone ∧
        (setInstr x 0x7F800000).WellFormed = true := by decide +kernel

/-! binary32. -/

/-- The words of 95_test_vectors.md part 2.1. -/
theorem test_f32_of_rational :
    F32.ofRat 440 = 0x43DC0000 ∧ F32.ofRat 1000 = 0x447A0000 ∧ F32.ofRat (1 / 100) = 0x3C23D70A ∧
    F32.ofRat (1 / 10) = 0x3DCCCCCD ∧ F32.ofRat (3 / 10) = 0x3E99999A ∧ F32.ofRat (-25000) = 0xC6C35000 ∧
    F32.ofRat (26163 / 100) = 0x4382D0A4 ∧ F32.ofRat 0 = 0 := by decide +kernel

/-- The same words read back, with the infinities and a NaN. -/
theorem test_f32_to_number :
    F32.toNum 0x43DC0000 = .fin 440 ∧ F32.toNum 0xBF800000 = .fin (-1) ∧ F32.toNum 0x00000001 = .fin (1 / 2 ^ 149) ∧
    F32.toNum 0x7F800000 = .inf false ∧ F32.toNum 0xFF800000 = .inf true ∧ F32.toNum 0x7FC00000 = .nan ∧
    F32.toNum 0x80000000 = .negZero ∧ F32.toNum 0 = .fin 0 := by
  decide +kernel

/-- Every end of a range of R23 is the word of its decimal, and State.reset's registers are what a SET of 0 stores. -/
theorem test_register_ends_and_reset_values :
    (∀ x ∈ [Reg.oscPw, .subMix, .fltCutoff, .fltHpf, .fltEnvamt, .aenvA, .lfoRate, .glideTime, .unisonSpread,
      .tremRate, .dlyTime, .dlyFb, .masterVol],
      ∀ lo hi, f32Range x = some (lo, hi) → regKind x = .f32 (F32.ofRat lo) (F32.ofRat hi)) ∧
    storedWord false (regKind .oscPw) 0 = some (State.reset.P .oscPw) ∧
    storedWord true (regKind .unisonN) 0 = some (State.reset.P .unisonN) ∧
    storedWord true (regKind .dlyTime) 0 = some (State.reset.P .dlyTime) := by
  refine ⟨?_, by decide, by decide, by decide⟩
  intro x hx lo hi h
  simp only [List.mem_cons, List.not_mem_nil, or_false] at hx
  rcases hx with rfl | rfl | rfl | rfl | rfl | rfl | rfl | rfl | rfl | rfl | rfl | rfl | rfl <;> cases h <;>
    decide +kernel

/-- A SET of -0, whose real value is 0: a range that holds 0 stores a zero of either sign, one above 0 its lower end. -/
theorem test_set_negative_zero :
    storedWord true (regKind .subMix) 0x80000000 = some 0x80000000 ∧
    storedWord false (regKind .subMix) 0x80000000 = some 0 ∧
    storedWord true (regKind .oscPw) 0x80000000 = some 0x3C23D70A := by decide

/-! Commands on a state right after reset. -/

/-- The value a command leaves in a register. -/
def stored (i : Instr) (r : Reg) : Option Word := (after (exec i State.reset)).map fun t => t.P r

/-- C1 to C4. -/
theorem test_set_masks_and_clamps :
    stored (.setOscWaves 0x13) .oscWaves = some 3 ∧ stored (.setOscPw 0x3F800000) .oscPw = some 0x3F7D70A4 ∧
    stored (.setNoiseMix 0xBF800000) .noiseMix = some 0 ∧
    stored (.setFltCutoff 0x46C35000) .fltCutoff = some 0x469C4000 := by decide

/-- C5, C6: a NaN leaves the register (20 Hz here) and an infinity stores the end of the range. -/
theorem test_set_nan_and_infinity :
    stored (.setFltCutoff 0x7FC00000) .fltCutoff = some 0x41A00000 ∧
    stored (.setFltCutoff 0x7F800000) .fltCutoff = some 0x469C4000 ∧
    stored (.setFltEnvamt 0xFF800000) .fltEnvamt = some 0xC69C4000 := by decide

/-- C7 to C11. -/
theorem test_set_fields :
    stored (.setAenvA 0) .aenvA = some 0x3A83126F ∧ stored (.setLfoRoute 15) .lfoRoute = some 7 ∧
    stored (.setChorusSMode 5) .chorusSMode = some 2 ∧ stored (.setGlideEn 2) .glideEn = some 0 ∧
    stored (.setUnisonN 12) .unisonN = some 8 := by decide

/-- C12 to C15. -/
theorem test_set_counts_and_global :
    stored (.setUnisonN 0) .unisonN = some 1 ∧ stored (.setDlyFb 0x3F666666) .dlyFb = some 0x3F4CCCCD ∧
    stored (.setMode 7) .mode = some 1 ∧ stored (.setMasterVol 0x3FC00000) .masterVol = some 0x3F800000 := by decide

/-- What a note-on gives a slot. -/
structure Life where
  vstate : VState
  note   : Option (Fin 128)
  uidx   : Fin 8
  age    : Age
  deriving DecidableEq, Repr

/-- A subtractive slot of a state. -/
def subLife (s : State) (i : Fin 12) : Life :=
  { vstate := s.sub.pool[i].vstate, note := s.sub.pool[i].note, uidx := s.sub.pool[i].uidx, age := s.sub.pool[i].age }

/-- The state after reset with some registers written. -/
def withRegs (ws : List (Reg × Word)) : State :=
  ws.foldl (fun s w => s.setP w.1 w.2) State.reset

/-- A subtractive slot sounding note n with stamp a. -/
def sounding (n : Fin 128) (k : Fin 8) (a : Age) : SubVoice :=
  { SubVoice.reset with
    vstate := .active, note := some n, uidx := k, age := a, aenv := { stage := .attack, level := .fin 0 },
    fenv := { stage := .attack, level := .fin 0 } }

/-- P2's start: slots 0 to 11 sound notes 48 to 59 with stamps 0 to 11. -/
def fullPool : Vector SubVoice 12 :=
  #v[sounding 48 0 0, sounding 49 0 1, sounding 50 0 2, sounding 51 0 3, sounding 52 0 4, sounding 53 0 5,
    sounding 54 0 6, sounding 55 0 7, sounding 56 0 8, sounding 57 0 9, sounding 58 0 10, sounding 59 0 11]

/-- A state with a subtractive pool and its counter. -/
def withSub (pool : Vector SubVoice 12) (g : Age) (s : State) : State :=
  { s with sub := { s.sub with pool := pool, gS := g } }

/-- P1: the first note-on after reset takes slot 0 with stamp 0. -/
theorem test_note_on_takes_slot_zero :
    (after (exec (.noteOn 69 100 0x43DC0000) State.reset)).map
        (fun t => (subLife t 0, subLife t 1, t.sub.gS, t.sub.pool[0].aenv)) =
      some (⟨.active, some 69, 0, 0⟩, ⟨.idle, none, 0, 0⟩, 1, { stage := .attack, level := .fin 0 }) := by
  decide +kernel

/-- P2: the thirteenth note steals slot 0. -/
theorem test_note_on_steals_the_oldest :
    (after (exec (.noteOn 60 100 0x4382D013) (withSub fullPool 12 State.reset))).map
        (fun t => (subLife t 0, subLife t 1, t.sub.gS)) =
      some (⟨.active, some 60, 0, 12⟩, ⟨.active, some 49, 0, 1⟩, 13) := by decide +kernel

/-- P4: unison of 3 with slot 11 free takes slot 11, then steals slots 0 and 1. -/
theorem test_unison_does_not_steal_its_own :
    (after (exec (.noteOn 72 100 0x4402D013) (withSub (fullPool.set 11 SubVoice.reset) 11
        (withRegs [(.unisonEn, 1), (.unisonN, 3), (.unisonSpread, 0x41200000)])))).map
        (fun t => (subLife t 11, subLife t 0, subLife t 1, subLife t 2)) =
      some (⟨.active, some 72, 0, 11⟩, ⟨.active, some 72, 1, 12⟩, ⟨.active, some 72, 2, 13⟩,
        ⟨.active, some 50, 0, 2⟩) := by decide +kernel

/-- P3, S15: a RELEASING slot with the note is taken again, its envelope at the level it had. -/
theorem test_note_on_retriggers_in_place :
    (after (exec (.noteOn 60 100 0x4382D013) (withSub
        (fullPool.set 3 { sounding 60 0 3 with
          vstate := .releasing, aenv := { stage := .release, level := .fin (3 / 10) } }) 12 State.reset))).map
        (fun t => (subLife t 3, t.sub.pool[3].aenv, subLife t 0)) =
      some (⟨.active, some 60, 0, 12⟩, { stage := .attack, level := .fin (3 / 10) }, ⟨.active, some 48, 0, 0⟩) := by
  decide +kernel

/-- P5, S16: a note-off releases every slot of the note and no other. -/
theorem test_note_off_releases_the_note :
    (after (exec (.noteOff 60) (withSub (((fullPool.set 0 (sounding 60 0 0)).set 1 (sounding 60 1 1)).set 2
        (sounding 60 2 2)) 12 State.reset))).map
        (fun t => (subLife t 0, subLife t 1, subLife t 2, subLife t 3, t.sub.pool[2].fenv.stage)) =
      some (⟨.releasing, some 60, 0, 0⟩, ⟨.releasing, some 60, 1, 1⟩, ⟨.releasing, some 60, 2, 2⟩,
        ⟨.active, some 51, 0, 3⟩, .release) := by decide +kernel

/-- P7: in EP mode a note-off does not reach the subtractive pool. -/
theorem test_note_off_follows_the_mode :
    (after (exec (.noteOff 48) (withSub fullPool 12 (withRegs [(.mode, 1)])))).map (fun t => subLife t 0) =
      some ⟨.active, some 48, 0, 0⟩ := by decide +kernel

/-- P6: in EP mode ALL_NOTES_OFF still releases the subtractive pool. -/
theorem test_all_notes_off_ignores_the_mode :
    (after (exec .allNotesOff (withSub fullPool 12 (withRegs [(.mode, 1)])))).map
        (fun t => (subLife t 0, subLife t 11)) =
      some (⟨.releasing, some 48, 0, 0⟩, ⟨.releasing, some 59, 0, 11⟩) := by decide +kernel

/-- C18, E13: a note above 127 and a NaN frequency are ignored. -/
theorem test_note_on_ignored :
    (after (exec (.noteOn 200 100 0x43DC0000) State.reset)).map (fun t => t.sub.gS) = some 0 ∧
    (after (exec (.noteOn 0x45 0x64 0xFFFF0000) State.reset)).map (fun t => t.sub.gS) = some 0 := by decide +kernel

/-- W1: the electric-piano note-on takes slot 0 of its own pool. -/
theorem test_ep_note_on :
    (after (exec (.noteOn 69 255 0x49742400) (withRegs [(.mode, 1)]))).map
        (fun t => (t.ep.pool[0].vstate, t.ep.pool[0].note, t.ep.gE, t.sub.gS, t.ep.pool[0].tine.env.stage)) =
      some (.active, some 69, 1, 0, .attack) := by decide +kernel

/-- X1e, X2e. -/
theorem test_device_changed :
    (after (exec .deviceChanged State.reset)).map (fun t => t.restartInFlight) = some true ∧
    (after (exec .deviceChanged { State.reset with restartInFlight := true })).map (fun t => t.restartInFlight) =
      some true := by decide

/-- X3e, X4e. -/
theorem test_restart_done :
    (after (exec .restartDone { State.reset with restartInFlight := true })).map (fun t => t.restartInFlight) =
      some false ∧
    (after (exec .restartDone State.reset)).map (fun t => t.restartInFlight) = some false := by decide

/-- R2: RENDER 0 completes. R77: a base that is no multiple of 4 has no step. -/
theorem test_render_zero_and_misaligned :
    (after (exec (.render 0) State.reset)).map (fun t => (t.io.result, t.tickCount)) = some (some .continue, 0) ∧
    after (exec (.render 0) { State.reset with io := { Ports.reset with buf := { base := 2, room := 8 } } }) =
      none := by decide +kernel

/-- R77: a buffer one byte short has no step. -/
theorem test_render_short_buffer :
    after (exec (.render 1) { State.reset with io := { Ports.reset with buf := { base := 4, room := 7 } } }) = none := by
  decide +kernel

/-- R8: the word 0xB708E076 is stored as 76 E0 08 B7. -/
theorem test_word_stored_little_endian :
    Memory.write32 [] 0x1000 0xB708E076 = [(0x1000, 0x76), (0x1001, 0xE0), (0x1002, 0x08), (0x1003, 0xB7)] := by
  decide

/-! The signal rules, on a chip with exact rational arithmetic and the test values of 95_test_vectors.md part 0. The
transcendental functions here are rationals with the range of the real function, so a test uses them only where their
value does not matter. -/

/-- A binary operation on numbers. -/
def lift2 (op : ℚ → ℚ → ℚ) (x y : Num) : Num :=
  match x.unsigned, y.unsigned with
  | .fin a, .fin b => .fin (op a b)
  | _, _ => .nan

/-- Exact rational arithmetic. -/
def fmt : Format where
  lit := .fin
  pi := .fin (22 / 7)
  add := lift2 (· + ·)
  sub := lift2 (· - ·)
  mul := lift2 (· * ·)
  div := lift2 (· / ·)
  sqrt x := if x = .fin 4 then .fin 2 else .fin 1
  sin _ := .fin 0
  cos _ := .fin 1
  tanh _ := .fin (1 / 2)
  exp _ := .fin (1 / 2)
  log2 _ := .fin 0
  pow _ _ := .fin 1

/-- The test values of part 0. -/
def constants : Constants where
  sr := 48000
  envEps := 1 / 100000
  fltSmoothK := 1 / 100
  resRecalcEps := 1 / 1000
  hpfBypassMul := 1
  lfoFiltHz := 0
  chDepthMsI := 2
  chDepthMsII := 3
  dlyLpK := 1 / 2
  combLen := #v[1103, 1201, 1301, 1409]
  apLen := #v[347, 113]
  revSpread := 23
  apG := 1 / 2
  revInGain := 1 / 2
  tremCurveP := 2
  bbK := 1 / 100
  bbGain := 0
  epW1 := 1
  epW2 := 0
  epW3 := 0
  epWB1 := 0
  epWB2 := 0
  epBark := 0
  epFbk := 0
  epWn := 0
  epBellR1 := 4
  epBellR2 := 7
  outGain := 1

/-- The test chip. -/
def cfg : Config where
  k := constants
  f := fmt
  epDBark _ := 1
  epDHarm _ := 1
  epDTine _ := 1
  epRel _ := 1 / 2
  noise _ := .fin 0
  extIn _ := (.fin 0, .fin 0)
  nanWord _ := 0
  strayOffset _ := 0
  keepsSign _ := true

theorem test_constants_valid : constants.Valid := by decide +kernel

/-- Part 0: CH_N = 530 and DL_N = 24001. -/
theorem test_line_lengths :
    constants.chN = 530 ∧ constants.dlN = 24001 ∧ constants.combN 1 0 = 1126 ∧ constants.apN 1 1 = 136 := by
  decide +kernel

theorem test_ideal_format : Ideal fmt where
  lit _ := rfl
  add _ _ _ _ hx hy := by simp only [fmt, lift2, hx, hy]
  sub _ _ _ _ hx hy := by simp only [fmt, lift2, hx, hy]
  mul _ _ _ _ hx hy := by simp only [fmt, lift2, hx, hy]
  div _ _ _ _ hx hy _ := by simp only [fmt, lift2, hx, hy]
  pi := ⟨_, rfl, by norm_num, by norm_num⟩
  sqrt x _ _ _ := by
    by_cases h : x = .fin 4
    · exact ⟨2, if_pos h, by norm_num⟩
    · exact ⟨1, if_neg h, by norm_num⟩
  sin _ _ _ := ⟨0, rfl, by norm_num⟩
  cos _ _ _ := ⟨1, rfl, by norm_num⟩
  tanh _ _ _ _ := ⟨1 / 2, rfl, by norm_num, by norm_num⟩
  exp _ _ _ _ := ⟨1 / 2, rfl, by norm_num, by norm_num⟩
  pow _ _ _ _ _ _ _ _ _ := ⟨1, rfl, by norm_num, by norm_num⟩

/-- O1. -/
theorem test_phase : advance cfg (.fin (995 / 1000)) (fmt.div (.fin 480) (sampleRate cfg)) = .fin (5 / 1000) := by
  decide +kernel

/-- O3 to O5. -/
theorem test_blep :
    let dt : Num := .fin (440 / 48000)
    blep cfg (.fin 0) dt = .fin (-1) ∧ blep cfg (.fin (220 / 48000)) dt = .fin (-1 / 4) ∧
    blep cfg (.fin (1 - 220 / 48000)) dt = .fin (1 / 4) ∧ blep cfg (.fin (1 / 2)) dt = .fin 0 := by decide +kernel

/-- O6, O7. -/
theorem test_saw_and_pulse :
    let dt : Num := .fin (440 / 48000)
    sSaw cfg (.fin 0) dt = .fin 0 ∧ sSaw cfg (.fin (1 / 4)) dt = .fin (-1 / 2) ∧
    sPulse cfg (.fin 0) dt (.fin (1 / 2)) = .fin 0 ∧ sPulse cfg (.fin (1 / 4)) dt (.fin (1 / 2)) = .fin 1 ∧
    sPulse cfg (.fin (3 / 4)) dt (.fin (1 / 2)) = .fin (-1) ∧
    sPulse cfg (.fin (220 / 48000)) dt (.fin (1 / 2)) = .fin (3 / 4) := by decide +kernel

/-- O8 and L1. -/
theorem test_triangle :
    sTri cfg (.fin 0) = .fin (-1) ∧ sTri cfg (.fin (1 / 4)) = .fin 0 ∧ sTri cfg (.fin (1 / 2)) = .fin 1 ∧
    sTri cfg (.fin (3 / 4)) = .fin 0 := by decide +kernel

/-- O9, O13: no waveform gives 0 and the phase still advances; the saw at 0.25. -/
theorem test_osc_tick :
    oscTick cfg Params.reset (.fin (1 / 4)) (.fin 440) (.fin (1 / 2)) = (.fin (1 / 4 + 440 / 48000), .fin 0) ∧
    oscTick cfg (Params.reset.put .oscWaves 4) (.fin (1 / 4)) (.fin 440) (.fin (1 / 2)) =
      (.fin (1 / 4 + 440 / 48000), .fin (-1 / 2)) := by decide +kernel

/-- O14. -/
theorem test_sub_osc_tick :
    subOscTick cfg (.fin 0) (.fin 440) = (.fin (220 / 48000), .fin 0) := by decide +kernel

/-- L3, L4, L5. -/
theorem test_lfo_taps :
    lfoTaps cfg ((Params.reset.put .lfoDepth 0x3F000000).put .lfoRoute 7) (.fin 1) =
      { pitch := .fin 1, filter := .fin (1 / 2), pw := .fin (1 / 5) } ∧
    lfoTaps cfg ((Params.reset.put .lfoDepth 0x3F800000).put .lfoRoute 1) (.fin (-1)) =
      { pitch := .fin (-2), filter := .fin 0, pw := .fin 0 } ∧
    lfoTaps cfg (Params.reset.put .lfoDepth 0x3F800000) (.fin 1) =
      { pitch := .fin 0, filter := .fin 0, pw := .fin 0 } := by decide +kernel

/-- L6, with LFO_RATE = 4. -/
theorem test_lfo_tick :
    lfoTick cfg (Params.reset.put .lfoRate 0x40800000) (.fin 0) = (.fin (4 / 48000), .fin (-1)) := by decide +kernel

/-- F1. -/
theorem test_qmap :
    qmap cfg (.fin 0) = .fin (707 / 1000) ∧ qmap cfg (.fin (95 / 100)) = .fin 15 ∧
    qmap cfg (.fin (975 / 1000)) = .fin (325 / 10) ∧ qmap cfg (.fin 1) = .fin 50 := by decide +kernel

/-- F7. -/
theorem test_gain_compensation :
    Flt.compensate cfg Flt.reset (.fin 1) = .fin 1 ∧
    Flt.compensate cfg { Flt.reset with ru := .fin (1 / 2) } (.fin 1) = .fin (1 / 2) ∧
    Flt.compensate cfg { Flt.reset with ru := .fin 1 } (.fin 1) = .fin (1 / 3) := by decide +kernel

/-- F13, F14: the smoothed cutoff, and whether the coefficients are recomputed. -/
theorem test_filter_recompute :
    let f : Flt := { Flt.reset with init := true, sc := .fin 1000, cu := .fin 1000 }
    ((f.prepare cfg (.fin 2000) (.fin 0)).sc = .fin 1010 ∧ (f.prepare cfg (.fin 2000) (.fin 0)).cu = .fin 1010) ∧
    ((f.prepare cfg (.fin 1050) (.fin 0)).sc = .fin (10005 / 10) ∧
      (f.prepare cfg (.fin 1050) (.fin 0)).cu = .fin 1000) := by decide +kernel

/-- F8, F12: the first tick sets init, sc and cu at once, and a high-pass below 1 Hz is bypassed. -/
theorem test_filter_first_tick :
    let f := (Flt.reset.tick cfg (.fin 1) (.fin 1000) (.fin 0) (.fin (1 / 2))).1
    (f.init, f.sc, f.cu, f.x1, f.hx1) = (true, .fin 1000, .fin 1000, .fin 1, .fin 0) := by decide +kernel

/-- A = 0.01, D = 0.1, S = 0.5, R = 0.3. -/
def settings : EnvSettings := { a := .fin (1 / 100), d := .fin (1 / 10), s := .fin (1 / 2), r := .fin (3 / 10) }

/-- N1, N4, N5, N6. -/
theorem test_envelope_attack_and_decay :
    Env.tick cfg settings { stage := .idle, level := .fin 0 } = { stage := .idle, level := .fin 0 } ∧
    Env.tick cfg settings { stage := .attack, level := .fin (3 / 10) } =
      { stage := .attack, level := .fin (3 / 10 + 1 / 480) } ∧
    Env.tick cfg settings { stage := .attack, level := .fin (479 / 480) } = { stage := .decay, level := .fin 1 } ∧
    Env.tick cfg { settings with s := .fin 1 } { stage := .decay, level := .fin 1 } =
      { stage := .sustain, level := .fin 1 } := by decide +kernel

/-- N8, N11, N13, and R179's first decay tick: 1 - (1/4800) * (1 - 0.5 + 0.00001). -/
theorem test_envelope_sustain_and_release :
    Env.tick cfg { settings with s := .fin (1 / 5) } { stage := .sustain, level := .fin (1 / 2) } =
      { stage := .sustain, level := .fin (1 / 5) } ∧
    Env.tick cfg settings { stage := .release, level := .fin (1 / 100000) } = { stage := .idle, level := .fin 0 } ∧
    Env.tick cfg { settings with a := .fin 0 } { stage := .attack, level := .fin 0 } =
      { stage := .attack, level := .fin (1 / 48) } ∧
    Env.tick cfg settings { stage := .decay, level := .fin 1 } =
      { stage := .decay, level := .fin (1 - 1 / 4800 * (1 / 2 + 1 / 100000)) } := by decide +kernel

/-- N2, N3, N7, N9, N12. -/
theorem test_envelope_gates :
    Env.gateOff { stage := .idle, level := .fin 0 } = { stage := .idle, level := .fin 0 } ∧
    Env.gateOn { stage := .idle, level := .fin 0 } = { stage := .attack, level := .fin 0 } ∧
    Env.gateOn { stage := .decay, level := .fin (7 / 10) } = { stage := .attack, level := .fin (7 / 10) } ∧
    Env.gateOff { stage := .sustain, level := .fin (1 / 2) } = { stage := .release, level := .fin (1 / 2) } ∧
    Env.gateOn { stage := .release, level := .fin (2 / 5) } = { stage := .attack, level := .fin (2 / 5) } := by
  decide +kernel

/-- X1 and the corner cases of R200; the knee uses tanh, here one half. -/
theorem test_sat08 :
    sat08 cfg (.fin (1 / 2)) = .fin (1 / 2) ∧ sat08 cfg (.fin (4 / 5)) = .fin (4 / 5) ∧
    sat08 cfg (.fin (-2)) = .fin (-(9 / 10)) ∧ sat08 cfg (.inf false) = .fin 1 ∧ sat08 cfg .nan = .nan := by
  decide +kernel

/-- X3. -/
theorem test_cub :
    cub cfg (.fin (1 / 4)) = .fin (1 / 4 - 1 / 192) ∧ cub cfg (.fin (-1 / 2)) = .fin (-(1 / 2 - 1 / 24)) ∧
    cub cfg (.fin 1) = .fin (2 / 3) ∧ cub cfg (.fin 2) = .fin (2 / 3) := by decide +kernel

/-- X7, X8: Mode I from reset gives the dry half; OFF passes the input and moves only w. -/
theorem test_chorus :
    (Chorus.reset.tick cfg (.fin 1) 1).2 = (.fin (1 / 2), .fin (1 / 2)) ∧
    Chorus.reset.tick cfg (.fin 1) 0 = ({ buf := [(0, .fin 1)], w := 1, psi := .fin 0 }, .fin 1, .fin 1) := by
  decide +kernel

/-- X4 to X6: the tap offsets at sin = 0 and sin = 1. -/
theorem test_chorus_offsets :
    chorusOffset cfg (.fin 6) = .fin 288 ∧ chorusOffset cfg (.fin 8) = .fin 384 ∧
    chorusOffset cfg (.fin 11) = .fin 528 ∧ chorusOffset cfg (.fin 5) = .fin 240 ∧
    (chorusMode cfg 1).map (fun m => (m.fr, m.mix, m.dep)) = some (.fin (1 / 2), .fin (1 / 2), .fin 2) ∧
    (chorusMode cfg 2).map (fun m => (m.fr, m.mix, m.dep)) = some (.fin (4 / 5), .fin (3 / 5), .fin 3) := by
  decide +kernel

/-- X9: w = 5, buf[3] = 1, d = 2.25. -/
theorem test_line_interpolation : Line.rdf cfg [(3, .fin 1)] 10 5 (.fin (9 / 4)) = .fin (3 / 4) := by decide +kernel

/-- X10: 0.25 s and 0.5 s. -/
theorem test_delay_samples :
    delaySamples cfg (Params.reset.put .dlyTime 0x3E800000) = 12000 ∧
    delaySamples cfg (Params.reset.put .dlyTime 0x3F000000) = 24000 ∧
    delaySamples cfg (Params.reset.put .dlyTime 0x3D4CCCCD) = 2400 := by decide +kernel

/-- X11's two ends: the impulse is written at tick 0, and 12000 ticks later it comes out and is fed back, halved. -/
theorem test_delay_tick :
    let p := ((Params.reset.put .dlyTime 0x3E800000).put .dlyMix 0x3F800000).put .dlyFb 0x3F000000
    let c : Config := { cfg with k := { constants with dlyLpK := 1 } }
    Delay.reset.tick c p (.fin 1) (.fin 0) =
      ({ bufL := [(0, .fin 1)], bufR := [], w := 1, lpL := .fin 0, lpR := .fin 0 }, .fin 0, .fin 0) ∧
    ({ Delay.reset with bufL := [(0, .fin 1)], w := 12000 } : Delay).tick c p (.fin 0) (.fin 0) =
      ({ bufL := [(0, .fin 1), (12000, .fin (1 / 2))], bufR := [], w := 12001, lpL := .fin 1, lpR := .fin 0 },
        .fin 1, .fin 0) := by decide +kernel

/-- X13. -/
theorem test_comb_feedback :
    combFeedback cfg Params.reset = .fin (1 / 2) ∧
    combFeedback cfg (Params.reset.put .revSize 0x3F000000) = .fin (725 / 1000) ∧
    combFeedback cfg (Params.reset.put .revSize 0x3F800000) = .fin (95 / 100) := by decide +kernel

/-- X14: the first tick writes u = 0.5 to every comb of both channels and gives silence. -/
theorem test_reverb_first_tick :
    let p := ((Params.reset.put .revSize 0x3F000000).put .revDamp 0x3F000000).put .revMix 0x3F800000
    let o := Reverb.reset.tick cfg p (.fin 1) (.fin 1)
    o.2 = (.fin 0, .fin 0) ∧ o.1.left.comb[0].buf = [(0, .fin (1 / 2))] ∧
    o.1.right.comb[3].buf = [(0, .fin (1 / 2))] ∧ o.1.left.ap[0].buf = [] ∧ o.1.right.ap[1].ai = 1 := by
  decide +kernel

/-- X14, ticks 1103 and 1216: what a comb's echo gives the all-passes, and what all-pass 1 then gives. -/
theorem test_comb_and_all_pass :
    Comb.tick cfg ((Params.reset.put .revSize 0x3F000000).put .revDamp 0x3F000000) 1103 (.fin 0)
        { buf := [(0, .fin (1 / 2))], ci := 0, cf := .fin 0 } =
      ({ buf := [(0, .fin (29 / 160))], ci := 1, cf := .fin (1 / 4) }, .fin (1 / 2)) ∧
    AllPass.tick cfg 347 (.fin (1 / 2)) { buf := [], ai := 346 } =
      ({ buf := [(346, .fin (1 / 2))], ai := 0 }, .fin (-(1 / 2))) := by decide +kernel

/-- X17, X18: with depth 0 the target is 1 and the gain stays 1; theta advances by 5 / 48000. -/
theorem test_tremolo :
    Tremolo.reset.tick cfg (Params.reset.put .tremRate 0x40A00000) =
      ({ theta := .fin (5 / 48000), g := .fin 1 }, .fin 1) := by decide +kernel

/-- X19. -/
theorem test_shelf :
    Shelf.reset.tick cfg (.fin 1) (.fin (1 / 2)) =
      ({ lpL := .fin (1 / 100), lpR := .fin (1 / 200) }, .fin 1, .fin (1 / 2)) := by decide +kernel

/-- S3, and S6 with OSC_PW = 0.99 for 0.95. -/
theorem test_glide_off_and_pulse_width :
    glideStep cfg Params.reset { SubVoice.reset with fTarget := .fin 440 } = .fin 440 ∧
    effectivePw cfg (Params.reset.put .oscPw 0x3F7D70A4) (.fin (1 / 5)) = .fin (99 / 100) := by decide +kernel

/-- S7. -/
theorem test_voice_mix :
    voiceMix cfg (Params.reset.put .subMix 0x3F800000) (.fin (1 / 2)) (.fin 1) (.fin 0) = .fin (3 / 4) := by
  decide +kernel

/-- S8 to S10: 4000 is 0x457A0000. -/
theorem test_modulated_cutoff :
    let p := Params.reset.put .fltCutoff 0x447A0000
    modulatedCutoff cfg (p.put .fltEnvamt 0x457A0000) (.fin 440) (.fin (1 / 2)) (.fin 0) = .fin 3000 ∧
    modulatedCutoff cfg ((p.put .fltCutoff 0x469C4000).put .fltEnvamt 0x469C4000) (.fin 440) (.fin 1) (.fin 0) =
      .fin 20000 ∧
    modulatedCutoff cfg ((p.put .fltCutoff 0x41A00000).put .fltEnvamt 0xC69C4000) (.fin 440) (.fin 1) (.fin 0) =
      .fin 20 := by decide +kernel

/-- S12: a voice whose release ends gives 0 and becomes IDLE and FREE. -/
theorem test_voice_retires :
    let v : SubVoice := { sounding 69 0 5 with
      vstate := .releasing, aenv := { stage := .release, level := .fin (1 / 100000) } }
    let o := v.tick cfg Params.reset { pitch := .fin 0, filter := .fin 0, pw := .fin 0 } (.fin 0)
    (o.1.vstate, o.1.note, o.1.age, o.2) = (.idle, none, 5, .fin 0) := by decide +kernel

/-- S13, S14: a trigger sets fCur only on a slot never triggered. -/
theorem test_voice_trigger :
    (SubVoice.reset.trigger 69 (.fin 440) .one 0 0).fCur = .fin 440 ∧
    ({ SubVoice.reset with fCur := .fin 130 } : SubVoice).trigger 60 (.fin 261) .one 0 0 =
      { sounding 60 0 0 with fTarget := .fin 261, fCur := .fin 130 } := by decide +kernel

/-- S17: releasing a RELEASING or an IDLE slot changes nothing. -/
theorem test_voice_release_twice :
    SubVoice.release { sounding 60 0 0 with vstate := .releasing } = { sounding 60 0 0 with vstate := .releasing } ∧
    SubVoice.reset.release = SubVoice.reset := by decide +kernel

/-- W1: v for VEL = 127, 100, 255 and 0. -/
theorem test_velocity :
    velOperand cfg 127 = .fin 1 ∧ velOperand cfg 100 = .fin (100 / 127) ∧ velOperand cfg 255 = .fin 1 ∧
    velOperand cfg 0 = .fin 0 := by decide +kernel

/-- C16, C17, E19: the frequency clamp. -/
theorem test_note_frequency :
    freqOperand cfg 0x00000000 = some (.fin 1) ∧ freqOperand cfg 0x49742400 = some (.fin 20000) ∧
    freqOperand cfg 0xDEADBEEF = some (.fin 1) ∧ freqOperand cfg 0x43DC0000 = some (.fin 440) ∧
    freqOperand cfg 0x7F800000 = some (.fin 20000) ∧ freqOperand cfg 0x7FC00000 = none := by decide +kernel

/-- W2, W4, W9. -/
theorem test_ep_trigger :
    let a := (EpVoice.reset.trigger cfg 69 (.fin 440) (.fin (1 / 2)) 0).amp
    (a.tA, a.tD, a.tR, a.sus) = (.fin (14 / 1000), .fin (275 / 100), .fin (1 / 2), .fin 0) ∧
    epAttack cfg (.fin 1) = .fin (8 / 1000) ∧ epAmpDecay cfg (.fin 1) = .fin (35 / 10) := by decide +kernel

/-- W5: the partials of 440 Hz. -/
theorem test_partials :
    fmt.mul (partialRatio cfg 1) (.fin 440) = .fin (88044 / 100) ∧
    fmt.mul (partialRatio cfg 2) (.fin 440) = .fin (132066 / 100) ∧
    fmt.mul (partialRatio cfg 4) (.fin 440) = .fin 3080 := by decide +kernel

/-- W6: the second of three outputs for a constant input 1. -/
theorem test_dc_block :
    dcBlock cfg EpVoice.reset (.fin 1) = .fin 1 ∧
    dcBlock cfg { EpVoice.reset with dcx1 := .fin 1, dcy1 := .fin 1 } (.fin 1) = .fin (999 / 1000) := by
  decide +kernel

/-- Program 4: the phases and the AMP level after two ticks of a reset slot at 20000 Hz with v = 1. -/
theorem test_ep_tick :
    let w := EpVoice.reset.trigger cfg 69 (.fin 20000) (.fin 1) 0
    let w := ((w.tick cfg (.fin 0)).1.tick cfg (.fin 0)).1
    w.amp.env = { stage := .attack, level := .fin (2 / 384) } ∧
    w.ph = #v[.fin (5 / 6), .fin (6675 / 10000), .fin (50125 / 100000), .fin (1 / 3), .fin (5 / 6)] := by
  decide +kernel

/-- W8. -/
theorem test_ep_release :
    let e : EpEnv := { EpEnv.reset with env := { stage := .decay, level := .fin (2 / 5) } }
    let w : EpVoice :=
      { EpVoice.reset with vstate := .active, note := some 60, amp := e, bark := e, harm := e, tine := e }
    (w.release.vstate, w.release.note, w.release.amp.env, w.release.tine.env.stage) =
      (.releasing, some 60, { stage := .release, level := .fin (2 / 5) }, .release) := by decide +kernel

/-- P8 and P9 at cnt = 4, and cnt = 0. -/
theorem test_auto_gain :
    agStep cfg (.fin 1) 4 = .fin (99975 / 100000) ∧ agStep cfg (.fin 1) 0 = .fin 1 := by decide +kernel

/-- R4, R5. -/
theorem test_output_clip :
    outSample { cfg with k := { constants with outGain := 1 / 2 } } (.fin 3) (.fin 0) = .fin 1 ∧
    outSample cfg (.fin (1 / 5)) (.fin (-3 / 2)) = .fin (-1) := by decide +kernel

/-- R3: in SUB mode right after reset the tick gives (0, 0) and advances every effect unit. -/
theorem test_first_tick_is_silent :
    let o := State.reset.tick cfg
    o.l = 0 ∧ o.r = 0 ∧ o.st.sub.chorus.w = 1 ∧ o.st.sub.delay.w = 1 ∧ o.st.ep = State.reset.ep := by decide +kernel

/-- R8: the value of frame 0 of Program 1 rounds to its word. -/
theorem test_output_word :
    outWord cfg 0 (.fin (-8158493 / 1000000000000)) = 0xB708E076 ∧ outWord cfg 0 (.fin 1) = 0x3F800000 ∧
    outWord cfg 0 (.fin (-1)) = 0xBF800000 := by decide +kernel

/-- IEEE 754 addition of two negative zeros (R10's choice for NUMFMT, R376): a chip whose add gives the negative zero for
them writes its word. -/
theorem test_output_negative_zero :
    let f : Format :=
      { fmt with
        add := fun x y => if x = .negZero ∧ y = .negZero then .negZero else fmt.add x y,
        mul := fun x y => if y = .negZero then .negZero else fmt.mul x y }
    let c : Config := { cfg with f := f }
    outWord c 0 (outSample c .negZero .negZero) = 0x80000000 ∧ outWord c 0 (outSample c .negZero (.fin 0)) = 0 := by
  decide +kernel

/-- Z1 to Z4, in part: a slot, the counters, the gains and the units right after reset. -/
theorem test_reset :
    State.reset.sub.pool[11].detune = .fin 1 ∧ State.reset.sub.pool[0].flt.init = false ∧
    State.reset.ep.pool[0].amp.tA = .fin (1 / 1000) ∧ State.reset.sub.ag = .fin 1 ∧
    State.reset.ep.trem.g = .fin 1 ∧ State.reset.restartInFlight = false ∧ State.reset.mem = [] := by decide +kernel

/-! Witnesses: for each statement with hypotheses, a concrete state and operands that meet them together. -/

/-- The state after reset with ports set. -/
def withIo (x : Ports) : State := { State.reset with io := x }

/-- A control-port turn with a word waiting. -/
def ctrlTurn (w : Cmd) (s : State) : State :=
  { s with io := { s.io with turns := [.ctrl], ctrlIn := [w] } }

/-- An audio-port turn with a word and an eight-byte buffer waiting. -/
def audioTurn (w : Cmd) (s : State) : State :=
  { s with io := { s.io with turns := [.audio], audioIn := [{ word := w, buf := { base := 0x1000, room := 8 } }] } }

/-- A platform-port turn with a word waiting. -/
def platTurn (w : Cmd) (s : State) : State :=
  { s with io := { s.io with turns := [.plat], platIn := [w] } }

theorem test_witness_on_port : (Instr.setMasterVol 0xFFFFFFFF).onPort .ctrl = true ∧
    (Instr.render 0).onPort .audio = true ∧ Instr.restartDone.onPort .plat = true := by decide

theorem test_witness_decoded_word :
    decode .ctrl 0x01FF4564FFFF0000 = .ok (.noteOn 0x45 0x64 0xFFFF0000) ∧
    decode .plat 0x31FFFFFFFFFFFFFF = .ok .restartDone := by decide

theorem test_witness_unused_bits :
    (0x01FF4564FFFF0000 : Cmd) &&& usedBits (opField 0x01FF4564FFFF0000).toNat =
      0x01004564FFFF0000 &&& usedBits (opField 0x01FF4564FFFF0000).toNat := by decide

theorem test_witness_opcode_words :
    (0x00FFFFFFFFFFFFFF : Cmd) &&& 0xFF00000000000000 = 0x0000000000000000 ∧
    (0x3000000000000001 : Cmd) &&& 0xFF00000000000000 = 0x3000000000000000 ∧
    (0x31FFFFFFFFFFFFFF : Cmd) &&& 0xFF00000000000000 = 0x3100000000000000 := by decide

theorem test_witness_turns :
    (platTurn 0 State.reset).io.turns = [.plat] ∧ (platTurn 0 State.reset).io.platIn = [0] ∧
    decode .plat 0 = .ok .nop ∧
    (ctrlTurn 0 State.reset).io.turns = [.ctrl] ∧ (ctrlTurn 0 State.reset).io.ctrlIn = [0] ∧
    decode .ctrl 0 = .ok .nop ∧
    (audioTurn 0 State.reset).io.turns = [.audio] ∧ (audioTurn 0 State.reset).io.job = none ∧
    (audioTurn 0 State.reset).io.audioIn = [{ word := 0, buf := { base := 0x1000, room := 8 } }] ∧
    decode .audio 0 = .ok .nop := by decide

theorem test_witness_undecodable_turns :
    decode .ctrl 0x101A000000000005 = .error .reservedPid ∧ decode .plat 0x3200000000000000 = .error .portRejects ∧
    decode .audio 0x1000000000000000 = .error .portRejects := by decide

theorem test_witness_placed_word :
    decodeTableWord 64 0x3000000000000000 = some .deviceChanged ∧
    homePort (tableCmd 64 0x3000000000000000) ≠ .audio ∧
    decodeTableWord 64 0x2000000000000100 = some (.render 256) ∧
    homePort (tableCmd 64 0x2000000000000100) = .audio := by decide

theorem test_witness_resting_turns :
    State.reset.io.turns = [] ∧
    ((withIo { Ports.reset with turns := [.ctrl] }).io.turns = [.ctrl] ∧ State.reset.io.ctrlIn = []) ∧
    ((withIo { Ports.reset with turns := [.plat] }).io.turns = [.plat] ∧ State.reset.io.platIn = []) ∧
    ((withIo { Ports.reset with turns := [.audio] }).io.turns = [.audio] ∧ State.reset.io.job = none ∧
      State.reset.io.audioIn = []) := by decide

theorem test_witness_legal_reset : State.reset.params.Legal := reset_legal

theorem test_witness_set_number :
    f32Range .dlyTime = some (1 / 20, 1 / 2) ∧ F32.isNaN 0x7F800000 = false ∧ F32.isNaN 0xFF800000 = false ∧
    F32.isNaN 0x3F000001 = false := by
  exact ⟨rfl, by decide, by decide, by decide⟩

theorem test_witness_set_integer : f32Range .unisonN = none ∧ u32Stored .unisonN 0 = 1 ∧
    u32Stored .unisonN 9 = 8 ∧ u32Stored .mode 2 = 1 := by
  exact ⟨rfl, by decide, by decide, by decide⟩

theorem test_witness_set_nan : f32Range .masterVol ≠ none ∧ F32.isNaN 0x7F800001 = true ∧
    F32.isNaN 0xFF800001 = true := by
  exact ⟨nofun, by decide, by decide⟩

theorem test_witness_set_completes : ∃ t, exec (setInstr .masterVol 0x3F000000) State.reset = .next t := ⟨_, rfl⟩

theorem test_witness_boot : ∀ r, f32Range r ≠ none → F32.isNaN ((fun _ => 0 : Reg → Word) r) = false := by
  intro _ _
  exact (by decide : F32.isNaN 0 = false)

theorem test_witness_note_on_one_slot :
    (127 : Byte).toNat = (127 : Fin 128).val ∧ F32.isNaN 0x43DC0000 = false ∧
    (withSub fullPool 0xFFFFFFFFFFFFFFFE State.reset).P .mode = 0 ∧
    (withSub fullPool 0xFFFFFFFFFFFFFFFE State.reset).P .unisonEn ≠ 1 ∧
    (withSub fullPool 0xFFFFFFFFFFFFFFFE State.reset).sub.gS.toNat + 1 < 2 ^ 64 := by decide

theorem test_witness_note_on_unison :
    let s := withSub fullPool 0xFFFFFFFFFFFFFFF7 (withRegs [(.unisonEn, 1), (.unisonN, 8)])
    s.params.Legal ∧ s.P .mode = 0 ∧ s.P .unisonEn = 1 ∧ s.sub.gS.toNat + (s.P .unisonN).toNat < 2 ^ 64 := by
  refine ⟨?_, by decide, by decide, by decide⟩
  intro r
  cases r <;> decide

theorem test_witness_note_on_ep :
    (withRegs [(.mode, 1)]).P .mode ≠ 0 ∧ (withRegs [(.mode, 1)]).ep.gE.toNat + 1 < 2 ^ 64 := by decide

theorem test_witness_notes_ignored : 127 < (128 : Byte).toNat ∧ F32.isNaN 0x7FC00000 = true := by decide

theorem test_witness_counter_ends :
    (let s := withSub fullPool 0xFFFFFFFFFFFFFFFF State.reset
     s.P .mode = 0 ∧ s.P .unisonEn ≠ 1 ∧ 2 ^ 64 ≤ s.sub.gS.toNat + 1) ∧
    (let s := withSub fullPool 0xFFFFFFFFFFFFFFF8 (withRegs [(.unisonEn, 1), (.unisonN, 8)])
     s.P .mode = 0 ∧ s.P .unisonEn = 1 ∧ 2 ^ 64 ≤ s.sub.gS.toNat + (s.P .unisonN).toNat) ∧
    (let s : State := { withRegs [(.mode, 1)] with ep := { EpPath.reset with gE := 0xFFFFFFFFFFFFFFFF } }
     s.P .mode ≠ 0 ∧ 2 ^ 64 ≤ s.ep.gE.toNat + 1) := by decide

/-- The state after reset, with legal registers and sound pools put in, is sound. -/
theorem sound_with (p : Params) (sp : Vector SubVoice 12) (g : Age) (ep : Vector EpVoice 12) (h : Age)
    (hp : p.Legal) (hs : SubPool.Sound sp g) (he : EpPool.Sound ep h) :
    State.Sound Config.chip.k
      { State.resetWith p with
        sub := { SubPath.reset with pool := sp, gS := g }, ep := { EpPath.reset with pool := ep, gE := h } } where
  memory := rfl
  registers := hp
  subPool := hs
  epPool := he
  subChorus := chorusReset_fits _
  subDelay := delayReset_fits _
  subReverb := ⟨revChannelReset_fits (held_valid _) 0, revChannelReset_fits (held_valid _) 1⟩
  epChorus := chorusReset_fits _
  epDelay := delayReset_fits _
  epReverb := ⟨revChannelReset_fits (held_valid _) 0, revChannelReset_fits (held_valid _) 1⟩
  job := nofun

/-- An electric-piano slot sounding note n with stamp a. -/
def epSoundingSlot (n : Fin 128) (a : Age) : EpVoice :=
  { EpVoice.reset with vstate := .active, note := some n, age := a }

/-- Twelve sounding electric-piano slots. -/
def fullEpPool : Vector EpVoice 12 :=
  #v[epSoundingSlot 48 0, epSoundingSlot 49 1, epSoundingSlot 50 2, epSoundingSlot 51 3, epSoundingSlot 52 4,
    epSoundingSlot 53 5, epSoundingSlot 54 6, epSoundingSlot 55 7, epSoundingSlot 56 8, epSoundingSlot 57 9,
    epSoundingSlot 58 10, epSoundingSlot 59 11]

theorem fullPool_sound : SubPool.Sound fullPool 12 where
  free := by decide
  pairs := by decide +kernel
  below := by decide
  ages := by decide +kernel

theorem fullEpPool_sound : EpPool.Sound fullEpPool 12 where
  free := by decide
  notes := by decide +kernel
  below := by decide
  ages := by decide +kernel

/-- Both pools full, in the mode of a register file. -/
def bothFull (p : Params) : State :=
  { State.resetWith p with
    sub := { SubPath.reset with pool := fullPool, gS := 12 }, ep := { EpPath.reset with pool := fullEpPool, gE := 12 } }

theorem legal_ep : (Params.reset.put .mode 1).Legal := legal_put reset_legal (keep := true) (val := 1) rfl

theorem test_witness_full_pool :
    (bothFull Params.reset).Sound Config.chip.k ∧ (bothFull Params.reset).P .mode = 0 ∧
    (bothFull Params.reset).P .unisonEn ≠ 1 ∧ (bothFull Params.reset).sub.gS.toNat + 1 < 2 ^ 64 ∧
    (∀ i : Fin 12, (bothFull Params.reset).sub.pool[i].Sounds) ∧
    (∀ i : Fin 12, (bothFull Params.reset).sub.pool[i].note ≠ some 60) :=
  ⟨sound_with _ _ _ _ _ reset_legal fullPool_sound fullEpPool_sound, by decide, by decide, by decide, by decide,
    by decide⟩

theorem test_witness_full_ep_pool :
    (bothFull (Params.reset.put .mode 1)).Sound Config.chip.k ∧ (bothFull (Params.reset.put .mode 1)).P .mode ≠ 0 ∧
    (bothFull (Params.reset.put .mode 1)).ep.gE.toNat + 1 < 2 ^ 64 ∧
    (∀ i : Fin 12, (bothFull (Params.reset.put .mode 1)).ep.pool[i].Sounds) ∧
    (∀ i : Fin 12, (bothFull (Params.reset.put .mode 1)).ep.pool[i].note ≠ some 60) :=
  ⟨sound_with _ _ _ _ _ legal_ep fullPool_sound fullEpPool_sound, by decide, by decide, by decide, by decide⟩

theorem test_witness_restart_flag : State.reset.restartInFlight = false ∧
    ({ State.reset with restartInFlight := true } : State).restartInFlight = true ∧
    ∃ t, exec (.render 0) State.reset = .next t := ⟨rfl, rfl, _, rfl⟩

/-- A state with a buffer latched. -/
def withBuf (base room : Nat) : State := withIo { Ports.reset with buf := { base := base, room := room } }

theorem test_witness_render_first_frame :
    (0 < (1 : Word).toNat ∧ (withBuf 4 8).io.buf.base % 4 = 0 ∧ 8 * (1 : Word).toNat ≤ (withBuf 4 8).io.buf.room) ∧
    (1 < (2 : Word).toNat ∧ 8 * (2 : Word).toNat ≤ (withBuf 4 16).io.buf.room) := by decide

/-- A render in progress with one frame or two left. -/
def midRender (next : Nat) : State :=
  withIo { Ports.reset with turns := [.audio], job := some { base := 0x1000, frames := 4, next := next } }

theorem test_witness_next_frame :
    ((midRender 2).io.turns = [.audio] ∧ (midRender 2).io.job = some { base := 0x1000, frames := 4, next := 2 } ∧
      2 + 1 < 4) ∧
    ((midRender 3).io.job = some { base := 0x1000, frames := 4, next := 3 } ∧ 4 ≤ 3 + 1) := by decide

theorem test_witness_invalid_buffer :
    (withBuf 2 8).io.buf.base % 4 ≠ 0 ∧ (withBuf 4 7).io.buf.room < 8 * (1 : Word).toNat ∧
    State.reset.io.buf.base % 4 = 0 := by decide

theorem test_witness_about_to_render :
    AboutToRender
      (withIo { Ports.reset with
        turns := [.audio, .audio, .ctrl],
        audioIn := [{ word := 0x2000000000000002, buf := { base := 0x1000, room := 16 } }] })
      2 { base := 0x1000, room := 16 } [] [.ctrl] where
  frames := by decide
  turns := rfl
  idle := rfl
  word := ⟨0x2000000000000002, 2, rfl, by decide, by decide⟩
  aligned := by decide
  room := by decide

theorem test_witness_modes :
    State.reset.P .mode = 0 ∧ (withRegs [(.mode, 1)]).P .mode ≠ 0 ∧ (∃ t, exec (.setMode 1) State.reset = .next t) :=
  ⟨by decide, by decide, _, rfl⟩

theorem test_witness_idle_slot : ¬ State.reset.sub.pool[0].Sounds ∧ ¬ State.reset.ep.pool[11].Sounds := by decide

/-- A held slot, which sustains, and one whose amplitude envelope has ended, on the chip itself. -/
theorem test_witness_retiring_slots :
    let s := withSub ((fullPool.set 0 { sounding 48 0 0 with aenv := { stage := .sustain, level := .fin 0 } }).set 1
      { sounding 49 0 1 with aenv := { stage := .idle, level := .fin 0 } }) 12 State.reset
    s.P .mode = 0 ∧ s.sub.pool[0].Sounds ∧ s.sub.pool[1].Sounds ∧
    (s.tick Config.chip).st.sub.pool[0].aenv.stage = .sustain ∧
    (s.tick Config.chip).st.sub.pool[1].aenv.stage = .idle := by decide +kernel

theorem test_witness_sound_step :
    (bothFull Params.reset).Sound Config.chip.k ∧ (∃ t, step (bothFull Params.reset) = .next t) ∧
    (bothFull Params.reset).NoUnison ∧ (bothFull Params.reset).P .unisonEn ≠ 1 :=
  ⟨sound_with _ _ _ _ _ reset_legal fullPool_sound fullEpPool_sound, ⟨_, rfl⟩,
    (by decide : ∀ i : Fin 12, fullPool[i].Sounds → fullPool[i].uidx = 0), by decide⟩

theorem test_witness_port_turns :
    (∃ t, step (ctrlTurn 0x1000000000000004 State.reset) = .next t ∧ t.P .oscWaves ≠ State.reset.P .oscWaves) ∧
    (∃ t, step (platTurn 0x3000000000000000 State.reset) = .next t) ∧
    (∃ t, step (audioTurn 0x2000000000000000 State.reset) = .next t) :=
  ⟨⟨_, rfl, by decide⟩, ⟨_, rfl⟩, _, rfl⟩

theorem test_witness_no_platform_turn :
    (∀ ps, (ctrlTurn 0x1000000000000004 State.reset).io.turns ≠ .plat :: ps) := by
  intro ps
  simp [ctrlTurn]

theorem test_witness_line_fits : Line.Fits 2 1 [(0, .fin 1), (1, .fin 2)] := ⟨by decide +kernel, by simp, by decide⟩

theorem test_witness_reset_pool_of_params : (State.resetWith Params.reset).sub.gS = 0 := rfl

/-- A chip with ideal arithmetic and admissible constants; levels at both ends of their range. -/
theorem test_witness_ideal_chip :
    Ideal cfg.f ∧ cfg.k.Valid ∧ settings.a = .fin (1 / 100) ∧ settings.r = .fin (3 / 10) ∧
    (Env.reset.level = .fin 0 ∧ (0 : ℚ) ≤ 0 ∧ (0 : ℚ) ≤ 1) ∧
    ({ stage := .decay, level := .fin 1 } : Env).level = .fin 1 ∧ Is .negZero 0 ∧ Is (.fin 0) 0 ∧ Is (.fin 1) 1 :=
  ⟨test_ideal_format, test_constants_valid, rfl, rfl, ⟨rfl, by norm_num, by norm_num⟩, rfl, rfl, rfl, rfl⟩

theorem test_witness_attack_and_release_times :
    (479 < ⌈stageTicks cfg (1 / 100)⌉₊ ∧ ¬ 480 < ⌈stageTicks cfg (1 / 100)⌉₊) ∧
    (0 < max 1 ⌈(0 : ℚ) * stageTicks cfg (3 / 10)⌉₊ ∧ ¬ 1 < max 1 ⌈(0 : ℚ) * stageTicks cfg (3 / 10)⌉₊) := by
  have h1 : stageTicks cfg (1 / 100) = (480 : ℕ) := by norm_num [stageTicks, cfg, constants]
  rw [h1, zero_mul]
  norm_num

theorem test_witness_filter :
    Ideal cfg.f ∧ Flt.reset.b0 = .fin 0 ∧ Flt.reset.b1 = .fin 0 ∧ Flt.reset.b2 = .fin 0 ∧ Flt.reset.a1 = .fin 0 ∧
    Flt.reset.a2 = .fin 0 ∧ Flt.reset.x1 = .fin 0 ∧ Flt.reset.x2 = .fin 0 ∧ Flt.reset.y1 = .fin 0 ∧
    Flt.reset.y2 = .fin 0 ∧ Flt.reset.ru = .fin 0 := ⟨test_ideal_format, by decide +kernel⟩

theorem test_witness_resonance :
    ((0 : ℚ) ≤ 95 / 100 ∧ (95 / 100 : ℚ) ≤ 95 / 100 ∧ (95 / 100 : ℚ) ≤ 1) ∧
    ((95 / 100 : ℚ) < 1 ∧ (1 : ℚ) ≤ 1) ∧ ((4 / 5 : ℚ) < |(-2 : ℚ)| ∧ |(4 / 5 : ℚ)| ≤ 4 / 5 ∧ 1 ≤ |(1 : ℚ)|) := by
  norm_num

theorem test_witness_tremolo :
    Params.num (Params.reset.put .tremDepth 0x3F800000) .tremDepth = .fin 1 ∧
    Params.num (Params.reset.put .tremRate 0x40A00000) .tremRate = .fin 5 ∧ Tremolo.reset.theta = .fin 0 ∧
    Tremolo.reset.g = .fin 1 := by decide +kernel

theorem test_witness_chorus :
    (∃ m, chorusMode cfg 1 = some m) ∧ (∃ m, chorusMode cfg 2 = some m) ∧ |(-1 : ℚ)| ≤ 1 ∧ |(1 : ℚ)| ≤ 1 :=
  ⟨⟨_, rfl⟩, ⟨_, rfl⟩, by norm_num, by norm_num⟩

theorem test_witness_delay :
    Params.num (Params.reset.put .dlyTime 0x3F000000) .dlyTime = .fin (1 / 2) ∧
    (∃ t : ℚ, Params.num Params.reset .dlyTime = .fin t ∧ 1 / 20 ≤ t ∧ t ≤ 1 / 2) :=
  ⟨by decide +kernel, F32.magValue 0x3D4CCCCD, by decide +kernel, by decide +kernel, by decide +kernel⟩

theorem test_witness_unison_counts : (1 : Nat) < 8 ∧ (8 : Nat) ≤ 8 ∧ (0 : ℚ) < 7 ∧ (0 : ℚ) ≤ 0 := by norm_num

theorem test_witness_glide :
    (Params.u (Params.reset.put .glideEn 1) .glideEn = 1 ∧
      Params.num (Params.reset.put .glideTime 0x41200000) .glideTime = .fin 10 ∧ (1 / 1000 : ℚ) ≤ 10) ∧
    (Params.reset.u .glideEn ≠ 1 ∧ Params.reset.num .glideTime = .fin 0 ∧ (0 : ℚ) < 1 / 1000) := by decide +kernel

theorem test_witness_taps :
    (Params.reset.u .lfoRoute).getLsbD 0 = false ∧ (Params.reset.u .lfoRoute).getLsbD 1 = false ∧
    (Params.reset.u .lfoRoute).getLsbD 2 = false := by decide

end Sys2Proof.Tests
end

/-! PROOFS. The state's family: what every step keeps of the state (O38), what the SETs write (O11, O12, O41), and the
ranges of envelope levels and phases in ideal semantics (O46, O56). -/

namespace Sys2Proof.Proofs

open Sys2Proof.Machine Sys2Proof.Claims Sys2Proof.Laws

/-! What a step can be. -/

/-- What a port's turn can be: rest, the next frame of the render in progress, or a word taken off the port. -/
theorem portTurn_cases (p : Port) (s : State) :
    portTurn p s = .rest s ∨
    (∃ j, s.io.job = some j ∧ portTurn p s = .frame j s) ∨
    ∃ w io, io.job = s.io.job ∧ portTurn p s = .command p w { s with io := io } ∧
      (p = .ctrl → ∃ ws, s.io.ctrlIn = w :: ws) := by
  cases p with
  | ctrl =>
    cases hin : s.io.ctrlIn with
    | nil => exact .inl (by rw [portTurn, hin])
    | cons w ws => exact .inr (.inr ⟨w, { s.io with ctrlIn := ws }, rfl, by rw [portTurn, hin], fun _ => ⟨ws, rfl⟩⟩)
  | plat =>
    cases hin : s.io.platIn with
    | nil => exact .inl (by rw [portTurn, hin])
    | cons w ws => exact .inr (.inr ⟨w, { s.io with platIn := ws }, rfl, by rw [portTurn, hin], nofun⟩)
  | audio =>
    cases hjob : s.io.job with
    | some j => exact .inr (.inl ⟨j, rfl, by rw [portTurn, hjob]⟩)
    | none =>
      cases hin : s.io.audioIn with
      | nil => exact .inl (by rw [portTurn, hjob, hin])
      | cons a as =>
        exact .inr (.inr ⟨a.word, { s.io with audioIn := as, buf := a.buf }, hjob, by rw [portTurn, hjob, hin], nofun⟩)

/-- Taking the next turn moves the ports alone, with the same render in progress; a word from the control port is the
head of its queue. -/
theorem nextAction_inv (s : State) :
    ∃ io, io.job = s.io.job ∧
      (nextAction s = .rest { s with io := io } ∨
       (∃ j, s.io.job = some j ∧ nextAction s = .frame j { s with io := io }) ∨
       ∃ p w, nextAction s = .command p w { s with io := io } ∧
         (p = .ctrl → ∃ ps ws, s.io.turns = .ctrl :: ps ∧ s.io.ctrlIn = w :: ws)) := by
  rcases nextAction_cases s with ⟨-, hact⟩ | ⟨p, ps, hturns, hact⟩
  · exact ⟨s.io, rfl, .inl hact⟩
  · rcases portTurn_cases p { s with io := { s.io with turns := ps } } with hrest | ⟨j, hjob, hframe⟩ |
      ⟨w, io, hjob, hcmd, hctrl⟩
    · exact ⟨{ s.io with turns := ps }, rfl, .inl (hact.trans hrest)⟩
    · exact ⟨{ s.io with turns := ps }, rfl, .inr (.inl ⟨j, hjob, hact.trans hframe⟩)⟩
    · refine ⟨io, hjob, .inr (.inr ⟨p, w, hact.trans hcmd, fun hp => ?_⟩)⟩
      obtain ⟨ws, hin⟩ := hctrl hp
      exact ⟨ps, ws, hp ▸ hturns, hin⟩

/-- What a step that goes on can be: on a state that differs in the ports alone it rests, runs the next frame of the
render in progress, or runs an instruction. -/
theorem step_cases {s t : State} (h : step s = .next t) :
    ∃ io, io.job = s.io.job ∧
      (t = { s with io := io } ∨
       (∃ j, s.io.job = some j ∧ t = State.renderFrame Config.chip j { s with io := io }) ∨
       ∃ p w i, decode p w = .ok i ∧ exec i { s with io := io } = .next t ∧
         (p = .ctrl → ∃ ps ws, s.io.turns = .ctrl :: ps ∧ s.io.ctrlIn = w :: ws)) := by
  obtain ⟨io, hjob, hact | ⟨j, hj, hact⟩ | ⟨p, w, hact, hctrl⟩⟩ := nextAction_inv s <;>
    refine ⟨io, hjob, ?_⟩ <;> simp only [step, hact] at h
  · cases h
    exact .inl rfl
  · cases h
    exact .inr (.inl ⟨j, hj, rfl⟩)
  · split at h
    · exact .inr (.inr ⟨p, w, _, ‹_›, h, hctrl⟩)
    · cases h

/-! Every step keeps the state sound (O38). -/

theorem writeReg_sound {k : Constants} {r : Reg} {val : Word} {s t : State} (h : s.Sound k)
    (ht : writeReg r val s = .next t) : t.Sound k := by
  rcases writeReg_next ht with ⟨w, hw, rfl⟩ | ⟨-, rfl⟩
  · exact setP_sound h hw
  · exact h

theorem noteOn_sound {k : Constants} {note vel : Byte} {val : Word} {s t : State} (h : s.Sound k)
    (ht : execNoteOn note vel val s = .next t) : t.Sound k := by
  rcases noteOn_next ht with rfl | ⟨n, fr, -, -, ⟨-, hfits, rfl⟩ | ⟨-, hfits, rfl⟩⟩
  · exact h
  · exact subNoteOn_sound h _ n fr hfits
  · exact epNoteOn_sound h _ n fr _ hfits

theorem noteOff_sound {k : Constants} {note : Byte} {s t : State} (h : s.Sound k)
    (ht : execNoteOff note s = .next t) : t.Sound k := by
  rcases noteOff_next ht with rfl | ⟨n, -, ⟨-, rfl⟩ | ⟨-, rfl⟩⟩
  · exact h
  · exact subNoteOff_sound h n
  · exact epNoteOff_sound h n

/-- The render a RENDER starts has an aligned base and, unless it returns at once, a frame to run. -/
theorem render_sound {n : Word} {s t : State} (h : s.Sound Config.chip.k) (ht : execRender n s = .next t) :
    t.Sound Config.chip.k := by
  obtain ⟨hbuf, ⟨-, rfl⟩ | ⟨hn, rfl⟩⟩ := render_next ht
  · exact sound_of_same h rfl rfl rfl rfl h.job
  · have haligned : s.io.buf.base % 4 = 0 := by
      simp only [OutBuf.holds, Bool.and_eq_true, decide_eq_true_eq] at hbuf
      exact hbuf.1
    exact frame_sound h ⟨haligned, Nat.pos_of_ne_zero hn⟩

theorem deviceChanged_next {s t : State} (h : execDeviceChanged s = .next t) :
    t = { s with restartInFlight := true } := by
  unfold execDeviceChanged at h
  split at h
  · rename_i hflag
    cases h
    exact congrArg (fun b => { s with restartInFlight := b }) hflag
  · cases h
    rfl

/-- An instruction that goes on keeps the state sound. -/
theorem exec_sound {i : Instr} {s t : State} (h : s.Sound Config.chip.k) (ht : exec i s = .next t) :
    t.Sound Config.chip.k := by
  rcases instr_cases i with (rfl | ⟨note, vel, val, rfl⟩ | ⟨note, rfl⟩ | rfl) | ⟨r, val, rfl⟩ | ⟨n, rfl⟩ | rfl | rfl
  · cases ht; exact h
  · exact noteOn_sound h ht
  · exact noteOff_sound h ht
  · cases ht; exact allOff_sound h
  · rw [exec_set] at ht; exact writeReg_sound h ht
  · exact render_sound h ht
  · obtain rfl := deviceChanged_next ht; exact sound_of_same h rfl rfl rfl rfl h.job
  · cases ht; exact sound_of_same h rfl rfl rfl rfl h.job

/-- The invariant reads the ports only for the render in progress. -/
theorem ports_sound {k : Constants} {s : State} (h : s.Sound k) {io : Ports} (hjob : io.job = s.io.job) :
    State.Sound k { s with io := io } :=
  sound_of_same h rfl rfl rfl rfl fun j hj => h.job j (hjob ▸ hj)

/-- Settles O38: each thing a step can be keeps the invariant. -/
theorem everyStepKeepsTheStateSound : Obligations.EveryStepKeepsTheStateSound := by
  intro s t h ht
  obtain ⟨io, hio, rfl | ⟨j, hj, rfl⟩ | ⟨p, w, i, -, hexec, -⟩⟩ := step_cases ht
  · exact ports_sound h hio
  · exact frame_sound (ports_sound h hio) (h.job j hj)
  · exact exec_sound (ports_sound h hio) hexec

/-! Only the SET of a register writes it (O41). -/

/-- An instruction that goes on keeps the register file, unless it is a SET. -/
theorem exec_params {i : Instr} {s t : State} (h : exec i s = .next t) :
    t.params = s.params ∨ ∃ r val, i = setInstr r val := by
  rcases instr_cases i with (rfl | ⟨note, vel, val, rfl⟩ | ⟨note, rfl⟩ | rfl) | hset | ⟨n, rfl⟩ | rfl | rfl
  · cases h; exact .inl rfl
  · rcases noteOn_next h with rfl | ⟨n, fr, -, -, ⟨-, -, rfl⟩ | ⟨-, -, rfl⟩⟩ <;> exact .inl rfl
  · rcases noteOff_next h with rfl | ⟨n, -, ⟨-, rfl⟩ | ⟨-, rfl⟩⟩ <;> exact .inl rfl
  · cases h; exact .inl rfl
  · exact .inr hset
  · obtain ⟨-, ⟨-, rfl⟩ | ⟨-, rfl⟩⟩ := render_next h
    · exact .inl rfl
    · exact .inl (frame_params ..)
  · obtain rfl := deviceChanged_next h; exact .inl rfl
  · cases h; exact .inl rfl

/-- A SET writes no register but its own. -/
theorem set_writes_own {r r' : Reg} {val : Word} {s t : State} (h : exec (setInstr r' val) s = .next t)
    (hne : t.P r ≠ s.P r) : r = r' := by
  rw [exec_set] at h
  rcases writeReg_next h with ⟨w, -, rfl⟩ | ⟨-, rfl⟩
  · by_contra hr
    exact hne (setP_P_other s r' w hr)
  · exact absurd rfl hne

/-- A SET is none of the other instructions. -/
theorem setInstr_ne (r : Reg) (val : Word) :
    setInstr r val ≠ .nop ∧ (∀ note vel v, setInstr r val ≠ .noteOn note vel v) ∧
    (∀ note, setInstr r val ≠ .noteOff note) ∧ setInstr r val ≠ .allNotesOff ∧ (∀ n, setInstr r val ≠ .render n) ∧
    setInstr r val ≠ .deviceChanged ∧ setInstr r val ≠ .restartDone := by
  cases r <;> simp [setInstr]

/-- A word that decodes to a SET came on the control port, and is the SET of its VAL field. -/
theorem decode_set {p : Port} {w : Cmd} {r : Reg} {val : Word} (h : decode p w = .ok (setInstr r val)) :
    p = .ctrl ∧ ∃ r', setInstr r val = setInstr r' (valField w) := by
  obtain ⟨hnop, hon, hoff, hall, hrender, hdev, hdone⟩ := setInstr_ne r val
  cases p with
  | ctrl =>
    rcases decode_ctrl h with h | h | h | h | ⟨-, h⟩
    exacts [absurd h hnop, absurd h (hon _ _ _), absurd h (hoff _), absurd h hall, ⟨rfl, h⟩]
  | audio =>
    rcases decode_audio h with h | h
    exacts [absurd h hnop, absurd h (hrender _)]
  | plat =>
    rcases decode_plat h with h | h | h
    exacts [absurd h hnop, absurd h hdev, absurd h hdone]

/-- Settles O41: of what a step can be, only a SET changes the register file, and only in its own register. -/
theorem onlyItsSetWritesARegister : Obligations.OnlyItsSetWritesARegister := by
  intro s t r ht hne
  obtain ⟨io, -, rfl | ⟨j, -, rfl⟩ | ⟨p, w, i, hdec, hexec, hctrl⟩⟩ := step_cases ht
  · exact absurd rfl hne
  · exact absurd (congrArg (Params.u · r) (frame_params ..)) hne
  · rcases exec_params hexec with hsame | ⟨r0, val, rfl⟩
    · exact absurd (congrArg (Params.u · r) hsame) hne
    · obtain ⟨hp, r', hset⟩ := decode_set hdec
      rw [hset] at hexec hdec
      obtain rfl := set_writes_own hexec hne
      obtain ⟨ps, ws, hturns, hin⟩ := hctrl hp
      exact ⟨ps, w, ws, hturns, hin, hp ▸ hdec⟩

/-! What a SET stores (O11, O12). -/

theorem writeReg_of_stored {r : Reg} {val w : Word} (s : State)
    (h : storedWord (Config.chip.keepsSign r) (regKind r) val = some w) : writeReg r val s = .next (s.setP r w) := by
  unfold writeReg
  rw [h]

theorem setP_onlyRegister (s : State) (r : Reg) (w : Word) : OnlyRegister r s (s.setP r w) :=
  ⟨rfl, fun _ hr => setP_P_other s r w hr⟩

/-- The ranges of the registers' write rules end at the binary32 values nearest to the decimals of R23. -/
theorem regKind_of_f32Range {r : Reg} {lo hi : ℚ} (h : f32Range r = some (lo, hi)) :
    regKind r = .f32 (F32.ofRat lo) (F32.ofRat hi) := by
  cases r <;> simp only [f32Range, Option.some.injEq, Prod.mk.injEq, reduceCtorEq] at h <;>
    obtain ⟨rfl, rfl⟩ := h <;> decide +kernel

/-- Settles O11: the write rule of an f32 register clamps patterns, which clamps the values they stand for. -/
theorem setStoresTheClampedNumber : Obligations.SetStoresTheClampedNumber := by
  intro r lo hi hr val s hval
  have hkind := regKind_of_f32Range hr
  obtain ⟨hlo, hhi, hle⟩ : EndsOk (.f32 (F32.ofRat lo) (F32.ofRat hi)) := hkind ▸ endsOk r
  have hstored : storedWord (Config.chip.keepsSign r) (regKind r) val =
      some (F32.keptZero (Config.chip.keepsSign r) (F32.clamp (F32.ofRat lo) (F32.ofRat hi) val)) := by
    rw [hkind, storedWord, hval, if_neg (by decide)]
  refine ⟨_, (exec_set r val s).trans (writeReg_of_stored s hstored), setP_onlyRegister s r _, ?_, ?_⟩
  · rw [setP_P_same, isNaN_keptZero, isNaN_clamp hlo hhi hval]
  · rw [setP_P_same, keptZero_unsigned, toNum_clamp hlo hhi hval hle]

theorem toNat_uMin (a b : Word) : (uMin a b).toNat = min a.toNat b.toNat := by
  unfold uMin
  simp only [BitVec.lt_def]
  split <;> omega

theorem toNat_uMax (a b : Word) : (uMax a b).toNat = max a.toNat b.toNat := by
  unfold uMax
  simp only [BitVec.lt_def]
  split <;> omega

/-- Masking with n ones is the remainder modulo 2^n. -/
theorem toNat_and_ones (val m : Word) (n : Nat) (hm : m.toNat = 2 ^ n - 1) : (val &&& m).toNat = val.toNat % 2 ^ n := by
  rw [BitVec.toNat_and, hm, Nat.and_two_pow_sub_one_eq_mod]

/-- The write rule of a u32 register, on numbers. -/
theorem storedWord_u32 {r : Reg} (h : f32Range r = none) (keep : Bool) (val : Word) :
    ∃ w, storedWord keep (regKind r) val = some w ∧ w.toNat = u32Stored r val.toNat := by
  cases r <;> simp only [f32Range, reduceCtorEq] at h <;> refine ⟨_, rfl, ?_⟩
  case oscWaves => exact toNat_and_ones val _ 4 rfl
  case lfoRoute => exact toNat_and_ones val _ 3 rfl
  case glideEn | unisonEn => exact toNat_and_ones val _ 1 rfl
  case chorusSMode | chorusEMode | mode => exact toNat_uMin val _
  case unisonN =>
    rw [toNat_uMin, toNat_uMax]
    exact min_comm _ _

/-- Settles O12: the write rule of a u32 register stores its row's number. -/
theorem setStoresTheMaskedInteger : Obligations.SetStoresTheMaskedInteger := by
  intro r hr val s
  obtain ⟨w, hstored, hw⟩ := storedWord_u32 hr (Config.chip.keepsSign r) val
  refine ⟨s.setP r w, (exec_set r val s).trans (writeReg_of_stored s hstored), setP_onlyRegister s r w, ?_⟩
  rw [setP_P_same, hw]

/-! Ideal semantics: numbers that stand for reals. -/

theorem is_fin (q : ℚ) : Is (.fin q) q := rfl

theorem num_lt_is {x y : Num} {a b : ℚ} (hx : Is x a) (hy : Is y b) : Num.lt x y = decide (a < b) := by
  rw [← num_lt_unsigned, hx, hy, num_lt_fin]

theorem num_max_is {x y : Num} {a b : ℚ} (hx : Is x a) (hy : Is y b) : Is (Num.max x y) (max a b) := by
  unfold Num.max
  rw [num_lt_is hy hx]
  by_cases h : b < a
  · simpa [h, max_eq_left h.le] using hx
  · simpa [h, max_eq_right (not_lt.1 h)] using hy

/-! Phases (O56). -/

/-- Settles O56: the advanced phase is the fractional part of the sum. -/
theorem phasesStayBelowOne : Obligations.PhasesStayBelowOne := by
  intro c ph step a dt hf hph hstep
  refine ⟨Int.fract (a + dt), ?_, Int.fract_nonneg _, Int.fract_lt_one _, ⌊a + dt⌋, (Int.fract_add_floor _).symm⟩
  rw [advance, frac, hf.add _ _ _ _ hph hstep, num_floor_fin, hf.sub _ _ _ _ (is_fin _) (is_fin _)]
  rfl

/-! Envelope levels (O46). -/

section

variable {c : Config} {x : EnvSettings} {e : Env} {l : ℚ}

theorem stageTicks_ge (hk : c.k.Valid) (t : ℚ) : 8 ≤ stageTicks c t := by
  have hsr : 8000 ≤ c.k.sr := hk.1
  have ht : 1 / 1000 ≤ max (1 / 1000) t := le_max_left _ _
  unfold stageTicks
  nlinarith

theorem stageRate_eq (hf : Ideal c.f) (hk : c.k.Valid) {v : Num} {t : ℚ} (ht : Is v t) :
    stageRate c v = .fin (1 / stageTicks c t) := by
  have hticks := stageTicks_ge hk t
  have hmax : Is (Num.max (c.f.lit (1 / 1000)) v) (max (1 / 1000) t) := by
    rw [hf.lit]
    exact num_max_is (is_fin _) ht
  rw [stageRate, sampleRate, hf.mul _ _ _ _ hmax (is_fin _)]
  exact hf.div _ _ _ _ (is_fin _) (is_fin _) (ne_of_gt (lt_of_lt_of_le (by norm_num) hticks))

/-- A stage's rate is positive and at most 1/8: the sample rate is at least 8000, and a stage at least 1 ms. -/
theorem rate_bounds (hk : c.k.Valid) (t : ℚ) : 0 < 1 / stageTicks c t ∧ 1 / stageTicks c t ≤ 1 / 8 := by
  have hticks := stageTicks_ge hk t
  exact ⟨by positivity, one_div_le_one_div_of_le (by norm_num) hticks⟩

theorem attackTick_is (hf : Ideal c.f) (hk : c.k.Valid) {a : ℚ} (ha : Is x.a a) (hl : Is e.level l) :
    Is (e.attackTick c x).level (min 1 (l + 1 / stageTicks c a)) := by
  simp only [Env.attackTick, stageRate_eq hf hk ha, hf.add _ _ _ _ hl (is_fin _), num_le_fin, decide_eq_true_eq]
  split
  · rename_i h
    rw [min_eq_left h]
    rfl
  · rename_i h
    rw [min_eq_right (not_le.1 h).le]
    rfl

theorem releaseTick_is (hf : Ideal c.f) (hk : c.k.Valid) {r : ℚ} (hr : Is x.r r) (hl : Is e.level l) :
    Is (e.releaseTick c x).level (max 0 (l - 1 / stageTicks c r)) := by
  simp only [Env.releaseTick, stageRate_eq hf hk hr, hf.sub _ _ _ _ hl (is_fin _), num_le_fin, decide_eq_true_eq]
  split
  · rename_i h
    rw [max_eq_left h]
    rfl
  · rename_i h
    rw [max_eq_right (not_le.1 h).le]
    rfl

/-- The level a DECAY tick computes before it is tested, for a rate k and the sustain level s (R176). -/
def decayLevel (k eps s l : ℚ) : ℚ := l - k * (l - s + eps)

theorem decayTick_is (hf : Ideal c.f) (hk : c.k.Valid) {d s : ℚ} (hd : Is x.d d) (hs : Is x.s s) (hl : Is e.level l) :
    Is (e.decayTick c x).level
      (if |decayLevel (1 / stageTicks c d) c.k.envEps s l - s| < 1 / 10000 then s
        else decayLevel (1 / stageTicks c d) c.k.envEps s l) := by
  simp only [Env.decayTick, stageRate_eq hf hk hd, hf.sub _ _ _ _ hl hs, hf.add _ _ _ _ (is_fin _) (is_fin _),
    hf.mul _ _ _ _ (is_fin _) (is_fin _), hf.sub _ _ _ _ hl (is_fin _), hf.sub _ _ _ _ (is_fin _) hs, hf.lit,
    num_abs_fin, num_lt_fin, decide_eq_true_eq]
  unfold decayLevel
  by_cases h : |l - 1 / stageTicks c d * (l - s + c.k.envEps) - s| < 1 / 10000
  · rw [if_pos h, if_pos h]
    exact hs
  · rw [if_neg h, if_neg h]
    rfl

/-- DECAY never rises above 1: above the sustain level it falls, and below it stays below. -/
theorem decayLevel_le_one {k eps s l : ℚ} (hk0 : 0 < k) (hk1 : k ≤ 1 / 8) (he : 0 < eps) (hs : s ≤ 1) (hl : l ≤ 1) :
    decayLevel k eps s l ≤ 1 := by
  unfold decayLevel
  rcases le_total s l with habove | hbelow
  · have hfall : 0 ≤ k * (l - s + eps) := mul_nonneg hk0.le (by linarith)
    linarith
  · have hstep : k * (s - l) ≤ s - l := mul_le_of_le_one_left (by linarith) (by linarith)
    have hless : 0 < k * eps := mul_pos hk0 he
    linarith

/-- DECAY falls below 0 only where it is so near the sustain level that it is set to it: a level that stays
1/10000 below was at least envEps below, and rises. -/
theorem decayLevel_nonneg {k eps s l : ℚ} (hk0 : 0 < k) (hk1 : k ≤ 1 / 8) (he : eps ≤ 1 / 10000)
    (hs : 0 ≤ s) (hl : 0 ≤ l) (hfar : ¬ |decayLevel k eps s l - s| < 1 / 10000) : 0 ≤ decayLevel k eps s l := by
  unfold decayLevel at *
  rcases le_abs.1 (not_lt.1 hfar) with habove | hbelow
  · linarith
  · have hlow : l - s + eps ≤ 0 := by nlinarith
    have hrise : k * (l - s + eps) ≤ 0 := mul_nonpos_of_nonneg_of_nonpos hk0.le hlow
    linarith

/-- A tick of a level in [0, 1]. -/
theorem tick_level_unit (hf : Ideal c.f) (hk : c.k.Valid) {a d r s : ℚ} (ha : Is x.a a) (hd : Is x.d d) (hr : Is x.r r)
    (hs : Is x.s s) (hs0 : 0 ≤ s) (hs1 : s ≤ 1) (hl : Is e.level l) (hl0 : 0 ≤ l) (hl1 : l ≤ 1) :
    ∃ l' : ℚ, Is (e.tick c x).level l' ∧ 0 ≤ l' ∧ l' ≤ 1 := by
  unfold Env.tick
  cases e.stage with
  | idle => exact ⟨0, rfl, le_rfl, zero_le_one⟩
  | attack =>
    have hrate := (rate_bounds hk a).1
    exact ⟨_, attackTick_is hf hk ha hl, le_min zero_le_one (by linarith), min_le_left _ _⟩
  | decay =>
    obtain ⟨hk0, hk1⟩ := rate_bounds hk d
    obtain ⟨he0, he1⟩ : 0 < c.k.envEps ∧ c.k.envEps ≤ 1 / 10000 := hk.2.1
    refine ⟨_, decayTick_is hf hk hd hs hl, ?_⟩
    split
    · exact ⟨hs0, hs1⟩
    · rename_i hfar
      exact ⟨decayLevel_nonneg hk0 hk1 he1 hs0 hl0 hfar, decayLevel_le_one hk0 hk1 he0 hs1 hl1⟩
  | sustain => exact ⟨s, hs, hs0, hs1⟩
  | release =>
    have hrate := (rate_bounds hk r).1
    exact ⟨_, releaseTick_is hf hk hr hl, le_max_left _ _, max_le zero_le_one (by linarith)⟩

end

theorem gateOff_eq (e : Env) :
    e.gateOff = { stage := if e.stage = .idle then .idle else .release, level := e.level } := by
  unfold Env.gateOff
  split
  · rename_i h
    rw [← h]
  · rfl

/-- Settles O46: stage by stage a tick keeps the level in [0, 1], and a gate keeps the level. -/
theorem envelopeLevelsStayInUnitRange : Obligations.EnvelopeLevelsStayInUnitRange := by
  intro c x a d r s l e hf hk ha hd hr hs hs0 hs1 hl hl0 hl1
  exact ⟨tick_level_unit hf hk ha hd hr hs hs0 hs1 hl hl0 hl1, rfl, gateOff_eq e⟩

end Sys2Proof.Proofs

/-! PROOFS. The memory family: the word a step takes (O6, O7), what a SET repeated leaves (O14), how a render fills its
buffer (O28, O29, O31, O32), the bytes of a word (O44), and delay lines (O45, O53, O54). -/

namespace Sys2Proof.Proofs

open Sys2Proof.Machine Sys2Proof.Claims Sys2Proof.Laws

/-! The word a port gives on its turn (O6). -/

section

variable {s : State} {ps : List Port} {w : Cmd} {i : Instr}

theorem nextAction_of_turn {p : Port} (h : s.io.turns = p :: ps) :
    nextAction s = portTurn p { s with io := { s.io with turns := ps } } := by
  rw [nextAction, h]

theorem portTurn_ctrl {ws : List Cmd} (h : s.io.ctrlIn = w :: ws) :
    portTurn .ctrl s = .command .ctrl w { s with io := { s.io with ctrlIn := ws } } := by
  rw [portTurn, h]

theorem portTurn_plat {ws : List Cmd} (h : s.io.platIn = w :: ws) :
    portTurn .plat s = .command .plat w { s with io := { s.io with platIn := ws } } := by
  rw [portTurn, h]

theorem portTurn_audio {ws : List AudioWord} {b : OutBuf} (hjob : s.io.job = none)
    (h : s.io.audioIn = { word := w, buf := b } :: ws) :
    portTurn .audio s = .command .audio w { s with io := { s.io with audioIn := ws, buf := b } } := by
  rw [portTurn, hjob, h]

theorem portTurn_frame {j : Job} (h : s.io.job = some j) : portTurn .audio s = .frame j s := by
  rw [portTurn, h]

theorem step_of_command {p : Port} {s0 : State} (h : nextAction s = .command p w s0) (hdec : decode p w = .ok i) :
    step s = exec i s0 := by
  simp only [step, h, hdec]

theorem step_ctrl {ws : List Cmd} (hturns : s.io.turns = .ctrl :: ps) (hin : s.io.ctrlIn = w :: ws)
    (hdec : decode .ctrl w = .ok i) :
    step s = exec i { s with io := { s.io with turns := ps, ctrlIn := ws } } :=
  step_of_command ((nextAction_of_turn hturns).trans (portTurn_ctrl hin)) hdec

theorem step_plat {ws : List Cmd} (hturns : s.io.turns = .plat :: ps) (hin : s.io.platIn = w :: ws)
    (hdec : decode .plat w = .ok i) :
    step s = exec i { s with io := { s.io with turns := ps, platIn := ws } } :=
  step_of_command ((nextAction_of_turn hturns).trans (portTurn_plat hin)) hdec

theorem step_audio {ws : List AudioWord} {b : OutBuf} (hturns : s.io.turns = .audio :: ps) (hjob : s.io.job = none)
    (hin : s.io.audioIn = { word := w, buf := b } :: ws) (hdec : decode .audio w = .ok i) :
    step s = exec i { s with io := { s.io with turns := ps, audioIn := ws, buf := b } } :=
  step_of_command ((nextAction_of_turn hturns).trans (portTurn_audio hjob hin)) hdec

/-- The audio port's turn while a render is in progress. -/
theorem step_frame {j : Job} (hturns : s.io.turns = .audio :: ps) (hjob : s.io.job = some j) :
    step s = .next (State.renderFrame Config.chip j { s with io := { s.io with turns := ps } }) := by
  simp only [step, (nextAction_of_turn hturns).trans (portTurn_frame hjob)]

end

/-- Settles O6, port by port. -/
theorem stepRunsTheDecodedWord : Obligations.StepRunsTheDecodedWord := by
  intro s ps w i
  exact ⟨fun _ => step_ctrl, fun _ => step_plat, fun _ _ => step_audio⟩

/-! The bytes of a word (O44). -/

/-- The eight bytes of a command word, most significant first, are the word. -/
theorem joinCmdBytes (w : Cmd) :
    w.extractLsb' 56 8 ++ (w.extractLsb' 48 8 ++ (w.extractLsb' 40 8 ++ (w.extractLsb' 32 8 ++ (w.extractLsb' 24 8 ++
      (w.extractLsb' 16 8 ++ (w.extractLsb' 8 8 ++ w.extractLsb' 0 8)))))) = w := by
  have hjoin (k : Nat) : w.extractLsb' k 8 ++ w.extractLsb' 0 k = w.extractLsb' 0 (8 + k) :=
    BitVec.extractLsb'_append_extractLsb'_eq_extractLsb' (Nat.zero_add k).symm
  rw [hjoin 8, hjoin 16, hjoin 24, hjoin 32, hjoin 40, hjoin 48, hjoin 56]
  exact BitVec.extractLsb'_eq_self

theorem cmdOfBytes_cmdBytes (w : Cmd) (rest : List Byte) : cmdOfBytes (cmdBytes w ++ rest) = some (w, rest) :=
  congrArg (fun v => some (v, rest)) (joinCmdBytes w)

/-- Settles O44: each byte has its place, and the bytes put together again are the word. -/
theorem wordsAreCarriedLittleEndian : Obligations.WordsAreCarriedLittleEndian := by
  refine ⟨fun m a v k => read_write32_byte m a v k k.isLt, fun w rest => ⟨fun k => ?_, cmdOfBytes_cmdBytes w rest⟩⟩
  fin_cases k <;> rfl

/-! A placed word (O7). -/

theorem decodeBytes_cmdBytes (p : Port) (w : Cmd) : decodeBytes p (cmdBytes w) = (decode p w).map fun i => (i, []) := by
  have h := cmdOfBytes_cmdBytes w []
  rw [List.append_nil] at h
  simp only [decodeBytes, h]

theorem decode_of_decodeTableWord {nbits w : Nat} {i : Instr} (h : decodeTableWord nbits w = some i) :
    decode (homePort (tableCmd nbits w)) (tableCmd nbits w) = .ok i := by
  rw [decodeTableWord, decodeBytes_cmdBytes] at h
  cases hdec : decode (homePort (tableCmd nbits w)) (tableCmd nbits w) with
  | ok i' =>
    rw [hdec] at h
    cases h
    rfl
  | error e =>
    rw [hdec] at h
    cases h

/-- Settles O7: a word placed on its port is taken off again by the port's turn. -/
theorem placedWordRunsNext : Obligations.PlacedWordRunsNext := by
  intro s nbits w i h
  have hdec := decode_of_decodeTableWord h
  unfold State.withFetchWord
  generalize tableCmd nbits w = cmd at *
  cases hport : homePort cmd <;> rw [hport] at hdec
  case ctrl => exact ⟨s, step_ctrl rfl rfl hdec, rfl, nofun, fun _ => ⟨rfl, rfl⟩⟩
  case plat => exact ⟨s, step_plat rfl rfl hdec, rfl, nofun, fun _ => ⟨rfl, rfl⟩⟩
  case audio =>
    exact ⟨{ s with io := { s.io with job := none, buf := roomyBuf } }, step_audio rfl rfl rfl hdec, rfl,
      fun _ => ⟨rfl, rfl⟩, nofun⟩

/-! A SET repeated (O14). -/

/-- Settles O14: what a SET stores depends on VAL alone, and a register written twice keeps the second word. -/
theorem setTwiceIsSetOnce : Obligations.SetTwiceIsSetOnce := by
  intro r val s t h
  rw [exec_set] at h ⊢
  rcases writeReg_next h with ⟨w, hstored, rfl⟩ | ⟨-, rfl⟩
  · rw [writeReg_of_stored _ hstored, State.setP, State.setP, put_put_same]
  · exact h

/-! One frame (O28, O29, O31). -/

theorem afterFrame_more {x : Ports} {j : Job} (h : j.next + 1 < j.frames) :
    x.afterFrame j = { x with job := some { j with next := j.next + 1 } } :=
  if_pos h

theorem afterFrame_last {x : Ports} {j : Job} (h : j.frames ≤ j.next + 1) :
    x.afterFrame j = { x with job := none, result := some .continue } :=
  if_neg (not_lt.2 h)

theorem frameAt_renderFrame (s : State) (j : Job) : FrameAt s (s.renderFrame Config.chip j) j.base j.next where
  left := by rw [frame_mem, read32_writeFrame_left]
  right := by rw [frame_mem, read32_writeFrame_right]
  others a ha := by rw [frame_mem, read_writeFrame_other _ _ _ ha]
  params := frame_params ..
  flag := frame_restartInFlight ..
  sub := by rw [frame_sub, tick_sub]
  ep := by rw [frame_ep, tick_ep]
  counters := by rw [frame_sub, frame_ep, pathTick_gS, pathTick_gE]; exact ⟨rfl, rfl⟩
  draws := by rw [frame_noiseCount, tick_noiseCount]
  ticks := frame_tickCount ..
  synOut := by rw [frame_io, afterFrame_synOut]
  ports := by simp [frame_io, tick_io]

theorem frame_more {s : State} {j : Job} (c : Config) (h : j.next + 1 < j.frames) :
    (s.renderFrame c j).io.job = some { j with next := j.next + 1 } ∧
      (s.renderFrame c j).io.result = s.io.result := by
  rw [frame_io, afterFrame_more h, tick_io]
  exact ⟨rfl, rfl⟩

theorem frame_last {s : State} {j : Job} (c : Config) (h : j.frames ≤ j.next + 1) :
    (s.renderFrame c j).io.job = none ∧ (s.renderFrame c j).io.result = some .continue := by
  rw [frame_io, afterFrame_last h]
  exact ⟨rfl, rfl⟩

theorem holds_iff (b : OutBuf) (frames : Nat) : b.holds frames = true ↔ b.base % 4 = 0 ∧ 8 * frames ≤ b.room := by
  simp [OutBuf.holds]

theorem render_first {n : Word} {s : State} (hn : 0 < n.toNat) (hbuf : s.io.buf.holds n.toNat = true) :
    exec (.render n) s =
      .next (s.renderFrame Config.chip { base := s.io.buf.base, frames := n.toNat, next := 0 }) := by
  change execRender n s = _
  rw [execRender, hbuf, if_neg (by decide), if_neg (Nat.ne_of_gt hn)]

/-- Settles O28: the step that takes the word runs frame 0. -/
theorem renderRunsItsFirstFrame : Obligations.RenderRunsItsFirstFrame := by
  intro n s hn hbase hroom
  exact ⟨_, render_first hn ((holds_iff _ _).2 ⟨hbase, hroom⟩), frameAt_renderFrame s _,
    fun h => frame_more _ h, fun h => frame_last _ h.le⟩

/-- Settles O29: the audio port's turn runs the render's next frame. -/
theorem audioTurnRunsTheNextFrame : Obligations.AudioTurnRunsTheNextFrame := by
  intro s j ps hturns hjob
  exact ⟨_, step_frame hturns hjob, frameAt_renderFrame _ j, frame_more _, frame_last _⟩

/-- Settles O31: such a buffer does not hold the frames. -/
theorem renderIntoAnInvalidBufferIsStuck : Obligations.RenderIntoAnInvalidBufferIsStuck := by
  intro n s hbad
  have hbuf : s.io.buf.holds n.toNat = false := by
    rw [Bool.eq_false_iff, ne_eq, holds_iff]
    omega
  exact if_pos hbuf


/-! A whole render (O32). -/

theorem pathTick_ports (c : Config) (s : State) (io : Ports) :
    State.pathTick c { s with io := io } =
      { s.pathTick c with st := { (s.pathTick c).st with io := io } } := by
  unfold State.pathTick
  cases s.params.isSub
  · simp only [State.epTick, Bool.false_eq_true, if_false]
  · simp only [State.subTick, if_true]

/-- A frame reads no port, and of the ports it writes SYN_OUT and what is left of the render. -/
theorem renderFrame_ports (c : Config) (j : Job) (s : State) (io : Ports) :
    State.renderFrame c j { s with io := io } =
      { s.renderFrame c j with io := Ports.afterFrame { io with synOut := (s.tick c).st.io.synOut } j } := by
  simp only [State.renderFrame, State.tick, pathTick_ports]

/-- One tick more is one frame more, but for what a frame leaves of a render. -/
theorem ticksInto_succ (base n k : Nat) (s : State) :
    ticksInto base (k + 1) s =
      { State.renderFrame Config.chip { base := base, frames := n, next := k } (ticksInto base k s) with
        io := ((ticksInto base k s).tick Config.chip).st.io } :=
  rfl

theorem ticksInto_mem (base k : Nat) (s : State) :
    (ticksInto base (k + 1) s).mem = Memory.writeFrame (ticksInto base k s).mem base k
      ((ticksInto base k s).tick Config.chip).l ((ticksInto base k s).tick Config.chip).r := by
  rw [ticksInto, tick_mem]
  rfl

theorem read32_writeFrame_before (m : Memory) {base n a : Nat} (l r : Word) (h : a + 4 ≤ base + 8 * n) :
    Memory.read32 (Memory.writeFrame m base n l r) a = Memory.read32 m a := by
  unfold Memory.writeFrame
  rw [read32_write32_other _ _ (by omega), read32_write32_other _ _ (by omega)]

/-- The words of frame k, once written, stand: the later frames are written behind them. -/
theorem ticksInto_frame (base : Nat) (s : State) {k n : Nat} (h : k < n) :
    Memory.read32 (ticksInto base n s).mem (base + 8 * k) = some ((ticksInto base k s).tick Config.chip).l ∧
    Memory.read32 (ticksInto base n s).mem (base + 8 * k + 4) = some ((ticksInto base k s).tick Config.chip).r := by
  induction n with
  | zero => omega
  | succ n ih =>
    rw [ticksInto_mem]
    rcases Nat.lt_succ_iff_lt_or_eq.1 h with hlt | rfl
    · obtain ⟨hl, hr⟩ := ih hlt
      exact ⟨(read32_writeFrame_before _ _ _ (by omega)).trans hl,
        (read32_writeFrame_before _ _ _ (by omega)).trans hr⟩
    · exact ⟨read32_writeFrame_left .., read32_writeFrame_right ..⟩

theorem ticksInto_outside (base n : Nat) (s : State) {a : Nat} (h : a < base ∨ base + 8 * n ≤ a) :
    Memory.read (ticksInto base n s).mem a = Memory.read s.mem a := by
  induction n with
  | zero => rfl
  | succ n ih => rw [ticksInto_mem, read_writeFrame_other _ _ _ (by omega), ih (by omega)]

/-- The ports once k of the n frames of a render have run, its word taken off the port: n - k turns and the frames from
k on are left, and after the last CONTINUE is returned. -/
def portsAt (x : Ports) (n : Nat) (b : OutBuf) (rest : List AudioWord) (turns : List Port) (k : Nat) : Ports :=
  { x with
    turns := List.replicate (n - k) .audio ++ turns, audioIn := rest, buf := b,
    job := if k < n then some { base := b.base, frames := n, next := k } else none,
    result := if k < n then x.result else some .continue }

/-- The state once k of the n frames of a render have run. -/
def renderAt (s : State) (n : Nat) (b : OutBuf) (rest : List AudioWord) (turns : List Port) (k : Nat) : State :=
  { ticksInto b.base k s with io := portsAt (ticksInto b.base k s).io n b rest turns k }

section

variable {s : State} {n k : Nat} {b : OutBuf} {rest : List AudioWord} {turns : List Port}

theorem replicate_turns (h : k < n) (turns : List Port) :
    List.replicate (n - k) .audio ++ turns = .audio :: (List.replicate (n - (k + 1)) .audio ++ turns) := by
  rw [show n - k = n - (k + 1) + 1 by omega]
  rfl

/-- Frame k takes its turn off the ports, whatever render stood in progress. -/
theorem afterFrame_portsAt (x : Ports) (syn : Option (Num × Num)) (job : Option Job) (h : k < n) :
    Ports.afterFrame
        { portsAt x n b rest turns k with
          turns := List.replicate (n - (k + 1)) .audio ++ turns, job := job, synOut := syn }
        { base := b.base, frames := n, next := k } =
      portsAt { x with synOut := syn } n b rest turns (k + 1) := by
  rcases Nat.lt_or_ge (k + 1) n with hmore | hlast
  · rw [afterFrame_more hmore]
    simp only [portsAt, h, hmore, if_true]
  · rw [afterFrame_last hlast]
    simp only [portsAt, not_lt.2 hlast, if_false]

/-- Frame k, its turn taken off, leads to the state after k + 1 frames. -/
theorem renderFrame_renderAt (job : Option Job) (h : k < n) :
    State.renderFrame Config.chip { base := b.base, frames := n, next := k }
        { ticksInto b.base k s with
          io := { portsAt (ticksInto b.base k s).io n b rest turns k with
            turns := List.replicate (n - (k + 1)) .audio ++ turns, job := job } } =
      renderAt s n b rest turns (k + 1) := by
  rw [renderFrame_ports, afterFrame_portsAt _ _ _ h, renderAt, ticksInto_succ b.base n k s, tick_io]

/-- Each turn of the audio port runs one frame more. -/
theorem step_renderAt (h : k < n) :
    step (renderAt s n b rest turns k) = .next (renderAt s n b rest turns (k + 1)) :=
  (step_frame (replicate_turns h turns) (if_pos h)).trans (congrArg _ (renderFrame_renderAt _ h))

/-- The step that takes the word runs frame 0. -/
theorem step_aboutToRender (h : AboutToRender s n b rest turns) : step s = .next (renderAt s n b rest turns 1) := by
  obtain ⟨w, v, hin, hdec, rfl⟩ := h.word
  have hports : portsAt s.io v.toNat b rest turns 0 =
      { s.io with
        turns := List.replicate v.toNat .audio ++ turns, audioIn := rest, buf := b,
        job := some { base := b.base, frames := v.toNat, next := 0 } } := by
    simp only [portsAt, h.frames, if_true, Nat.sub_zero]
  rw [step_audio (h.turns.trans (replicate_turns h.frames turns)) h.idle hin hdec,
    render_first h.frames ((holds_iff _ _).2 ⟨h.aligned, h.room⟩), ← renderFrame_renderAt none h.frames]
  simp only [ticksInto, hports, ← h.idle]

/-- The turns that are left run the frames that are left. -/
theorem run_renderAt {m : Nat} (h : k + m = n) :
    run m (renderAt s n b rest turns k) = .next (renderAt s n b rest turns n) := by
  induction m generalizing k with
  | zero => subst h; rfl
  | succ m ih =>
    simp only [run, step_renderAt (show k < n by omega)]
    exact ih (by omega)

theorem run_aboutToRender (h : AboutToRender s n b rest turns) : run n s = .next (renderAt s n b rest turns n) := by
  obtain ⟨m, rfl⟩ := Nat.exists_eq_succ_of_ne_zero (Nat.ne_of_gt h.frames)
  simp only [run, step_aboutToRender h]
  exact run_renderAt (Nat.add_comm 1 m)

theorem renderAt_end : renderAt s n b rest turns n =
    { ticksInto b.base n s with
      io := { (ticksInto b.base n s).io with
        turns := turns, audioIn := rest, buf := b, job := none, result := some .continue } } := by
  simp [renderAt, portsAt]

end

/-- Settles O32: turn by turn the render runs its ticks, each of which writes behind the frames before it. -/
theorem renderWritesItsFramesInOrder : Obligations.RenderWritesItsFramesInOrder := by
  intro s n b rest turns h
  exact ⟨_, run_aboutToRender h, renderAt_end, fun k hk => ticksInto_frame b.base s hk,
    fun a ha => ticksInto_outside b.base n s ha⟩

/-! Delay lines (O45). -/

theorem slot_zero {n w : Nat} (h : w < n) : Line.slot n w 0 = w := by
  unfold Line.slot
  rw [Int.sub_zero, Int.emod_eq_of_lt (by omega) (by omega), Int.toNat_natCast]

/-- No other element of the line is the one at the index. -/
theorem slot_ne_index {n w : Nat} (hw : w < n) {k : Int} (h0 : 0 < k) (hk : k < n) : Line.slot n w k ≠ w := by
  intro heq
  have hmod : ((w : Int) - k) % n = (w : Int) % n := by
    have hnonneg := Int.emod_nonneg ((w : Int) - k) (show (n : Int) ≠ 0 by omega)
    rw [Int.emod_eq_of_lt (a := w) (by omega) (by omega)]
    unfold Line.slot at heq
    omega
  have hdvd : (n : Int) ∣ k := by
    have := Int.emod_eq_emod_iff_emod_sub_eq_zero.1 hmod.symm
    rw [sub_sub_cancel] at this
    exact Int.dvd_of_emod_eq_zero this
  exact absurd (Int.eq_zero_of_dvd_of_nonneg_of_lt h0.le hk hdvd) h0.ne'

theorem slot_adv (n w : Nat) (k : Int) : Line.slot n (Line.adv n w) (k + 1) = Line.slot n w k := by
  unfold Line.slot Line.adv
  push_cast
  rw [Int.emod_sub_emod, add_sub_add_right_eq_sub]

/-- Settles O45: which element each read takes. -/
theorem delayLineGivesBackWhatWasWritten : Obligations.DelayLineGivesBackWhatWasWritten := by
  intro l n w v hfits
  refine ⟨?_, fun k h0 hk => ?_, fun k _ _ => ?_⟩ <;> unfold Line.rd
  · rw [slot_zero hfits.index, line_get_put_same w v hfits.canonical]
  · rw [line_get_put_other l v (slot_ne_index hfits.index h0 hk)]
  · rw [slot_adv]

/-! Reads inside a line, in ideal semantics (O53, O54). -/

theorem le_ceil_toNat (q : ℚ) : q ≤ (q.ceil.toNat : ℚ) := by
  rw [rat_ceil_eq, Int.ceil_toNat]
  exact Nat.le_ceil q

theorem chorusMs_le_chN (k : Constants) : (8 + max k.chDepthMsI k.chDepthMsII) * k.sr / 1000 ≤ (k.chN : ℚ) - 2 := by
  have h := le_ceil_toNat ((8 + max k.chDepthMsI k.chDepthMsII) * k.sr / 1000)
  unfold Constants.chN
  push_cast
  linarith

/-- At an offset that R78 admits, a read interpolates between two elements of the line. -/
theorem tapOffset_in_line (c : Config) {n : Nat} {d : ℚ} (h0 : 0 ≤ d) (hd : d ≤ (n : ℚ) - 2) :
    tapOffset c n (.fin d) = ⌊d⌋ ∧ 0 ≤ ⌊d⌋ ∧ ⌊d⌋ + 1 < n := by
  refine ⟨?_, Int.floor_nonneg.2 h0, ?_⟩
  · simp only [tapOffset, num_le_fin, h0, hd, decide_true, Bool.and_self, if_true, offsetOf, rat_floor_eq]
  · have hfloor := Int.floor_le d
    have hlt : ((⌊d⌋ + 1 : Int) : ℚ) < ((n : Int) : ℚ) := by
      push_cast
      linarith
    exact_mod_cast hlt

/-- The rows of R203: the depth is at most the delay it moves, and the sum at most what the line's length allows for. -/
theorem chorusMode_delays {c : Config} (hk : c.k.Valid) {md : Word} {m : ChorusMode} (h : chorusMode c md = some m) :
    ∃ d0 dep : ℚ, m.d0 = .fin d0 ∧ m.dep = .fin dep ∧ 0 ≤ dep ∧ dep ≤ d0 ∧
      d0 + dep ≤ 8 + max c.k.chDepthMsI c.k.chDepthMsII := by
  obtain ⟨-, -, -, -, -, -, ⟨hI0, hI1⟩, ⟨hII0, hII1⟩, -⟩ := hk
  have hI := le_max_left c.k.chDepthMsI c.k.chDepthMsII
  have hII := le_max_right c.k.chDepthMsI c.k.chDepthMsII
  unfold chorusMode at h
  split at h
  · cases h
  · split at h <;> cases h
    · exact ⟨6, _, rfl, rfl, hI0, hI1, by linarith⟩
    · exact ⟨8, _, rfl, rfl, hII0, hII1, by linarith⟩

/-- A tap of x ms, up to the longest delay of R87. -/
theorem chorusOffset_in_line {c : Config} (hf : Ideal c.f) (hk : c.k.Valid) {x : ℚ} (h0 : 0 ≤ x)
    (hx : x ≤ 8 + max c.k.chDepthMsI c.k.chDepthMsII) :
    ∃ d : ℚ, chorusOffset c (.fin x) = .fin d ∧ 0 ≤ d ∧ d ≤ (c.k.chN : ℚ) - 2 ∧
      tapOffset c c.k.chN (.fin d) = ⌊d⌋ ∧ 0 ≤ ⌊d⌋ ∧ ⌊d⌋ + 1 < c.k.chN := by
  have hsr : 8000 ≤ c.k.sr := hk.1
  have hd0 : 0 ≤ x * c.k.sr / 1000 := by positivity
  have hd : x * c.k.sr / 1000 ≤ (c.k.chN : ℚ) - 2 := le_trans (by gcongr) (chorusMs_le_chN c.k)
  refine ⟨x * c.k.sr / 1000, ?_, hd0, hd, tapOffset_in_line c hd0 hd⟩
  rw [chorusOffset, sampleRate, hf.mul _ _ _ _ (is_fin _) (is_fin _),
    hf.div _ _ _ _ (is_fin _) (is_fin _) (by norm_num)]

/-- Settles O53: the LFO moves a tap by at most its depth, and so within the delays the line's length allows for. -/
theorem chorusReadsStayInTheLine : Obligations.ChorusReadsStayInTheLine := by
  intro c md m lfo σ hf hk hm hlfo hσ
  obtain ⟨d0, dep, hd0, hdep, hnonneg, hle, hsum⟩ := chorusMode_delays hk hm
  obtain ⟨hlow, hhigh⟩ := abs_le.1 (show |dep * σ| ≤ dep by
    rw [abs_mul, abs_of_nonneg hnonneg]
    exact mul_le_of_le_one_right hnonneg hσ)
  rw [hd0, hdep, hf.mul _ _ _ _ (is_fin _) hlfo, hf.add _ _ _ _ (is_fin _) (is_fin _),
    hf.sub _ _ _ _ (is_fin _) (is_fin _), List.forall_mem_cons, List.forall_mem_singleton]
  exact ⟨chorusOffset_in_line hf hk (by linarith) (by linarith),
    chorusOffset_in_line hf hk (by linarith) (by linarith)⟩

/-- The longest delay, rounded, is inside the line of R87. -/
theorem roundedDelay_le (k : Constants) {t : ℚ} (hsr : 0 ≤ k.sr) (ht : t ≤ 1 / 2) :
    ⌊t * k.sr + 1 / 2⌋ ≤ ((k.dlN - 1 : Nat) : Int) := by
  have hlen : 1 / 2 * k.sr ≤ ((k.dlN - 1 : Nat) : ℚ) := le_ceil_toNat _
  have hprod : t * k.sr ≤ 1 / 2 * k.sr := by gcongr
  rw [← Int.lt_add_one_iff, Int.floor_lt]
  push_cast
  linarith

/-- Settles O54: the rounded delay lies between the ends of the clamp. -/
theorem delayReadStaysInTheLine : Obligations.DelayReadStaysInTheLine := by
  intro c p t hf hk ht hlow hhigh
  have hsr : 8000 ≤ c.k.sr := hk.1
  have hmax := roundedDelay_le c.k (by linarith) hhigh
  have hmin : 1 ≤ ⌊t * c.k.sr + 1 / 2⌋ := by
    rw [Int.le_floor]
    push_cast
    nlinarith
  have hclamp : min ((c.k.dlN - 1 : Nat) : ℚ) (max 1 (⌊t * c.k.sr + 1 / 2⌋ : ℚ)) = (⌊t * c.k.sr + 1 / 2⌋ : ℚ) := by
    rw [max_eq_right (by exact_mod_cast hmin), min_eq_right (by exact_mod_cast hmax)]
  have hsamples : delaySamples c p = ⌊t * c.k.sr + 1 / 2⌋ := by
    rw [delaySamples, sampleRate, hf.mul _ _ _ _ ht (is_fin _), hf.add _ _ _ _ (is_fin _) (is_fin _), num_floor_fin,
      num_clamp_fin, hclamp, offsetOf, Rat.floor_intCast]
  have hlen := dlN_pos c.k
  rw [hsamples]
  exact ⟨rfl, hmin, by omega⟩

end Sys2Proof.Proofs

/-! PROOFS. The encoding family: words and instructions each way (O1, O2, O3), the bits a format uses (O4), the words
that are instructions (O5) and those a step refuses (O8), and the operands a NOTE command does not take (O20, O25). -/

namespace Sys2Proof.Proofs

open Sys2Proof.Machine Sys2Proof.Claims Sys2Proof.Laws

/-! The fields of a word (R101). -/

section

variable (op pid note vel : Byte) (val : Word)

@[simp] theorem pidField_packCmd : pidField (packCmd op pid note vel val) = pid :=
  (BitVec.extractLsb'_append_eq_of_add_le (by decide)).trans BitVec.extractLsb'_append_eq_left

@[simp] theorem noteField_packCmd : noteField (packCmd op pid note vel val) = note :=
  (BitVec.extractLsb'_append_eq_of_add_le (by decide)).trans <|
    (BitVec.extractLsb'_append_eq_of_add_le (by decide)).trans BitVec.extractLsb'_append_eq_left

@[simp] theorem velField_packCmd : velField (packCmd op pid note vel val) = vel :=
  (BitVec.extractLsb'_append_eq_of_add_le (by decide)).trans <|
    (BitVec.extractLsb'_append_eq_of_add_le (by decide)).trans <|
    (BitVec.extractLsb'_append_eq_of_add_le (by decide)).trans BitVec.extractLsb'_append_eq_left

@[simp] theorem valField_packCmd : valField (packCmd op pid note vel val) = val :=
  (BitVec.extractLsb'_append_eq_of_add_le (by decide)).trans <|
    (BitVec.extractLsb'_append_eq_of_add_le (by decide)).trans <|
    (BitVec.extractLsb'_append_eq_of_add_le (by decide)).trans BitVec.extractLsb'_append_eq_right

end

theorem packCmd_fields (w : Cmd) : packCmd (opField w) (pidField w) (noteField w) (velField w) (valField w) = w := by
  have hjoin (k m : Nat) : w.extractLsb' m k ++ w.extractLsb' 0 m = w.extractLsb' 0 (k + m) :=
    BitVec.extractLsb'_append_extractLsb'_eq_extractLsb' (Nat.zero_add m).symm
  unfold packCmd opField pidField noteField velField valField
  rw [hjoin 8 32, hjoin 8 40, hjoin 8 48, hjoin 8 56]
  exact BitVec.extractLsb'_eq_self

/-- Masking a word masks its fields. -/
theorem and_packCmd (w : Cmd) (op pid note vel : Byte) (val : Word) :
    w &&& packCmd op pid note vel val =
      packCmd (opField w &&& op) (pidField w &&& pid) (noteField w &&& note) (velField w &&& vel)
        (valField w &&& val) := by
  conv_lhs => rw [← packCmd_fields w]
  exact BitVec.and_append.trans <| congrArg _ <| BitVec.and_append.trans <| congrArg _ <|
    BitVec.and_append.trans <| congrArg _ BitVec.and_append

/-! The PIDs (R23, R109). -/

/-- The PID of a register, read off the word of its SET. -/
def pidOf (r : Reg) : Byte := pidField (encode (setInstr r 0))

theorem encode_setInstr (r : Reg) (val : Word) : encode (setInstr r val) = packSet (pidOf r) val := by
  cases r <;> rfl

theorem decodeSet_pidOf (r : Reg) (val : Word) : decodeSet (pidOf r) val = .ok (setInstr r val) := by
  cases r <;> rfl

theorem assignedPid_pidOf (r : Reg) : AssignedPid (pidOf r).toNat := by
  unfold AssignedPid
  cases r <;> decide

/-- The SET a PID gives is encoded with that PID. -/
theorem encode_of_decodeSet {pid : Byte} {val : Word} {i : Instr} (h : decodeSet pid val = .ok i) :
    encode i = packSet pid val := by
  unfold decodeSet at h
  split at h <;> cases h
  all_goals
    rename_i hpid
    exact congrArg (packSet · val) (BitVec.eq_of_toNat_eq hpid.symm)

theorem decodeSet_of_assigned {pid : Byte} (val : Word) (h : AssignedPid pid.toNat) :
    ∃ i, decodeSet pid val = .ok i := by
  unfold AssignedPid at h
  unfold decodeSet
  split
  iterate 38 exact ⟨_, rfl⟩
  simp only [imp_false] at *
  omega

/-- A SET word decodes exactly where its PID is assigned. -/
theorem decodeSet_isOk (pid : Byte) (val : Word) : (∃ i, decodeSet pid val = .ok i) ↔ AssignedPid pid.toNat := by
  refine ⟨fun ⟨i, h⟩ => ?_, decodeSet_of_assigned val⟩
  obtain ⟨r, rfl⟩ := decodeSet_ok h
  have hpid : pidOf r = pid := by
    simpa [packSet] using congrArg pidField ((encode_setInstr r val).symm.trans (encode_of_decodeSet h))
  exact hpid ▸ assignedPid_pidOf r

/-! The decoder on the encoder's words (O2, O1). -/

/-- Whatever port its word comes on, the opcode and the fields give an instruction back. -/
theorem decodeOpcode_encode (i : Instr) : decodeOpcode (encode i) = .ok i := by
  rcases instr_cases i with (rfl | ⟨note, vel, val, rfl⟩ | ⟨note, rfl⟩ | rfl) | ⟨r, val, rfl⟩ | ⟨n, rfl⟩ | rfl | rfl
  case inr.inl => simp [encode_setInstr, packSet, decodeOpcode, opField_packCmd, decodeSet_pidOf]
  all_goals simp [encode, decodeOpcode, opField_packCmd]

theorem decode_encode {i : Instr} {p : Port} (h : i.onPort p = true) : decode p (encode i) = .ok i :=
  (if_pos h).trans (decodeOpcode_encode i)

/-- The decoder on a stream takes the word of its first eight bytes. -/
theorem decodeBytes_append (p : Port) (w : Cmd) (rest : List Byte) :
    decodeBytes p (cmdBytes w ++ rest) = (decode p w).map fun i => (i, rest) := by
  rw [decodeBytes, cmdOfBytes_cmdBytes]

/-- Settles O2: a port that accepts the word reads its fields back. -/
theorem decodeInvertsEncode : Obligations.DecodeInvertsEncode := by
  intro i p h
  refine ⟨decode_encode h, fun rest => ?_⟩
  rw [decodeBytes_append, decode_encode h]
  rfl

theorem decode_of_encode_eq {i : Instr} {p : Port} {w : Cmd} (h : encode i = w) (hp : i.onPort p = true) :
    decode p w = .ok i :=
  h ▸ decode_encode hp

/-- Settles O1: the encoder gives the five words, and each decodes because the decoder inverts it. -/
theorem workedEncodingsDecode : Obligations.WorkedEncodingsDecode := by
  have hon : encode (.noteOn 69 100 0x43DC0000) = 0x0100456443DC0000 := rfl
  have hoff : encode (.noteOff 69) = 0x0200450000000000 := rfl
  have hcut : encode (.setFltCutoff 0x447A0000) = 0x10040000447A0000 := rfl
  have hwave : encode (.setOscWaves 4) = 0x1000000000000004 := rfl
  have hrender : encode (.render 256) = 0x2000000000000100 := rfl
  exact ⟨⟨decode_of_encode_eq hon rfl, hon, by decide +kernel⟩, ⟨decode_of_encode_eq hoff rfl, hoff⟩,
    ⟨decode_of_encode_eq hcut rfl, hcut, by decide +kernel⟩, ⟨decode_of_encode_eq hwave rfl, hwave⟩,
    ⟨decode_of_encode_eq hrender rfl, hrender⟩⟩

/-! The words that are instructions (O5). -/

theorem accepts_iff (p : Port) (op : Byte) : accepts p op = true ↔ op.toNat ∈ portOpcodes p := by
  cases p <;> simp [accepts, portOpcodes, ← BitVec.toNat_inj, or_assoc]

theorem decode_ok_iff {p : Port} {w : Cmd} {i : Instr} :
    decode p w = .ok i ↔ accepts p (opField w) = true ∧ decodeOpcode w = .ok i := by
  unfold decode
  split <;> simp [*]

/-- The opcodes some port accepts are the eight that R107 assigns. -/
theorem opcode_cases {p : Port} {op : Nat} (h : op ∈ portOpcodes p) :
    op = 0x00 ∨ op = 0x01 ∨ op = 0x02 ∨ op = 0x03 ∨ op = 0x10 ∨ op = 0x20 ∨ op = 0x30 ∨ op = 0x31 := by
  cases p <;> simp only [portOpcodes, List.mem_cons, List.not_mem_nil, or_false] at h <;> omega

theorem decodeOpcode_set {w : Cmd} (h : (opField w).toNat = 0x10) :
    decodeOpcode w = decodeSet (pidField w) (valField w) := by
  rw [decodeOpcode, h]
  rfl

theorem decodeOpcode_of_ne_set {p : Port} {w : Cmd} (h : (opField w).toNat ∈ portOpcodes p)
    (hset : (opField w).toNat ≠ 0x10) : ∃ i, decodeOpcode w = .ok i := by
  unfold decodeOpcode
  rcases opcode_cases h with hop | hop | hop | hop | hop | hop | hop | hop <;> rw [hop]
  case inr.inr.inr.inr.inl => exact absurd hop hset
  all_goals exact ⟨_, rfl⟩

/-- Settles O5: every opcode a port accepts is assigned, and a SET's PID decides the rest. -/
theorem wordsDecodeExactlyWhereAssigned : Obligations.WordsDecodeExactlyWhereAssigned := by
  intro p w
  simp only [decode_ok_iff, exists_and_left, accepts_iff]
  refine and_congr_right fun hop => ?_
  by_cases hset : (opField w).toNat = 0x10
  · rw [decodeOpcode_set hset, decodeSet_isOk]
    exact ⟨fun h _ => h, fun h => h hset⟩
  · exact iff_of_true (decodeOpcode_of_ne_set hop hset) fun h => absurd h hset

/-! The bits a format uses (O3, O4). -/

/-- A field all of whose bits a format uses comes through whole. -/
@[simp] theorem byte_and_ones (b : Byte) : b &&& 0xFF#8 = b := BitVec.and_allOnes

@[simp] theorem word_and_ones (v : Word) : v &&& 0xFFFFFFFF#32 = v := BitVec.and_allOnes

theorem and_usedBits_noteOn (w : Cmd) :
    w &&& usedBits 0x01 = packCmd (opField w) 0 (noteField w) (velField w) (valField w) :=
  (and_packCmd w 0xFF 0 0xFF 0xFF 0xFFFFFFFF).trans (by simp)

theorem and_usedBits_noteOff (w : Cmd) : w &&& usedBits 0x02 = packCmd (opField w) 0 (noteField w) 0 0 :=
  (and_packCmd w 0xFF 0 0xFF 0 0).trans (by simp)

theorem and_usedBits_set (w : Cmd) : w &&& usedBits 0x10 = packCmd (opField w) (pidField w) 0 0 (valField w) :=
  (and_packCmd w 0xFF 0xFF 0 0 0xFFFFFFFF).trans (by simp)

theorem and_usedBits_render (w : Cmd) : w &&& usedBits 0x20 = packCmd (opField w) 0 0 0 (valField w) :=
  (and_packCmd w 0xFF 0 0 0 0xFFFFFFFF).trans (by simp)

theorem and_usedBits_bare {op : Nat} (h : op = 0x00 ∨ op = 0x03 ∨ op = 0x30 ∨ op = 0x31) (w : Cmd) :
    w &&& usedBits op = packCmd (opField w) 0 0 0 0 := by
  have hbits : usedBits op = packCmd 0xFF 0 0 0 0 := by rcases h with rfl | rfl | rfl | rfl <;> rfl
  rw [hbits, and_packCmd]
  simp

/-- Every format uses OP. -/
theorem opField_and_usedBits (w : Cmd) (op : Nat) : opField (w &&& usedBits op) = opField w := by
  have hop : opField (usedBits op) = 0xFF#8 := by
    unfold usedBits
    split_ifs <;> rfl
  calc opField (w &&& usedBits op) = opField w &&& opField (usedBits op) := BitVec.extractLsb'_and
    _ = opField w := by rw [hop, byte_and_ones]

/-- The word of an instruction is the word it was decoded from, on the bits its format uses. -/
theorem encode_of_decodeOpcode {w : Cmd} {i : Instr} (h : decodeOpcode w = .ok i) :
    encode i = w &&& usedBits (opField w).toNat := by
  unfold decodeOpcode at h
  split at h
  case h_5 hop =>
    rw [encode_of_decodeSet h, hop, and_usedBits_set, BitVec.eq_of_toNat_eq (y := 0x10) hop, packSet]
  all_goals cases h
  case h_2 hop => rw [hop, and_usedBits_noteOn, BitVec.eq_of_toNat_eq (y := 0x01) hop, encode]
  case h_3 hop => rw [hop, and_usedBits_noteOff, BitVec.eq_of_toNat_eq (y := 0x02) hop, encode]
  case h_6 hop => rw [hop, and_usedBits_render, BitVec.eq_of_toNat_eq (y := 0x20) hop, encode]
  case h_1 hop | h_4 hop | h_7 hop | h_8 hop =>
    rw [hop, and_usedBits_bare (by decide)]
    exact congrArg (packCmd · 0 0 0 0) (BitVec.eq_of_toNat_eq hop.symm)

/-- Settles O3: a word decodes by its opcode, whatever port accepts it. -/
theorem encodeInvertsDecode : Obligations.EncodeInvertsDecode :=
  fun _ _ _ h => encode_of_decodeOpcode (decode_ok_iff.1 h).2

/-- The decoder reads no bit outside the opcode's format: an instruction is that of its own word, and a SET's PID and
VAL are among the bits it uses. -/
theorem decode_and_usedBits (p : Port) (w : Cmd) : decode p (w &&& usedBits (opField w).toNat) = decode p w := by
  have hop := opField_and_usedBits w (opField w).toNat
  unfold decode
  rw [hop]
  refine ite_congr rfl (fun hacc => ?_) fun _ => rfl
  by_cases hset : (opField w).toNat = 0x10
  · rw [decodeOpcode_set hset, decodeOpcode_set (by rw [hop, hset]), hset, and_usedBits_set, pidField_packCmd,
      valField_packCmd]
  · obtain ⟨i, hi⟩ := decodeOpcode_of_ne_set ((accepts_iff p _).1 hacc) hset
    rw [← encode_of_decodeOpcode hi, decodeOpcode_encode, hi]

/-- Settles O4: words alike on the used bits have one opcode, and decode as their used bits do. -/
theorem unusedBitsDoNotMatter : Obligations.UnusedBitsDoNotMatter := by
  refine ⟨fun p w w' h => ?_, fun i => ?_⟩
  · have hop : opField w = opField w' := by
      rw [← opField_and_usedBits w, h, opField_and_usedBits]
    rw [← decode_and_usedBits p w, h, hop, decode_and_usedBits]
  · conv_lhs => rw [encode_of_decodeOpcode (decodeOpcode_encode i), BitVec.and_assoc, opField_and_usedBits]
    rw [BitVec.and_not_self]
    exact BitVec.and_zero

/-! The words a step refuses (O8). -/

theorem step_of_undecodable {s s0 : State} {p : Port} {w : Cmd} {e : DecodeError}
    (h : nextAction s = .command p w s0) (hdec : decode p w = .error e) : step s = .refused (.undecodable e) := by
  simp only [step, h, hdec]

/-- Settles O8, port by port. -/
theorem wordsThatDoNotDecodeAreRefused : Obligations.WordsThatDoNotDecodeAreRefused := by
  intro s ps w e
  refine ⟨fun ws hturns hin => ?_, fun ws hturns hin => ?_, fun ws b hturns hjob hin => ?_⟩
  · exact step_of_undecodable ((nextAction_of_turn hturns).trans (portTurn_ctrl hin))
  · exact step_of_undecodable ((nextAction_of_turn hturns).trans (portTurn_plat hin))
  · exact step_of_undecodable ((nextAction_of_turn hturns).trans (portTurn_audio hjob hin))

/-! The operands of the note commands (O20, O25). -/

theorem exec_noteOn (note vel : Byte) (val : Word) (s : State) :
    exec (.noteOn note vel val) s = execNoteOn note vel val s := rfl

theorem exec_noteOff (note : Byte) (s : State) : exec (.noteOff note) s = execNoteOff note s := rfl

theorem noteOperand_of_gt {note : Byte} (h : 127 < note.toNat) : noteOperand note = none :=
  dif_neg (by omega)

theorem freqOperand_of_isNaN (c : Config) {val : Word} (h : F32.isNaN val = true) : freqOperand c val = none :=
  if_pos h

theorem isSub_of_mode {s : State} (h : s.P .mode = 0) : s.params.isSub = true :=
  decide_eq_true h

/-- In SUB mode the velocity operand goes nowhere. -/
theorem noteOnPath_sub {s : State} (h : s.params.isSub = true) (c : Config) (n : Fin 128) (fr v v' : Num) :
    noteOnPath c n fr v s = noteOnPath c n fr v' s := by
  simp only [noteOnPath, h, if_true]

/-- Settles O20: a NOTE command without a note number, or without a frequency, is ignored. -/
theorem notesOutOfRangeAreIgnored : Obligations.NotesOutOfRangeAreIgnored := by
  refine ⟨fun note vel val s h => ?_, fun note s h => ?_⟩
  · rw [exec_noteOn, execNoteOn]
    rcases h with hnote | hnan
    · rw [noteOperand_of_gt hnote]
      rfl
    · rw [freqOperand_of_isNaN _ hnan]
      cases noteOperand note <;> rfl
  · rw [exec_noteOff, execNoteOff, noteOperand_of_gt h]
    rfl

/-- Settles O25: neither an ignored NOTE_ON nor the note-on of the SUB path reads the velocity. -/
theorem subtractiveNoteOnIgnoresVelocity : Obligations.SubtractiveNoteOnIgnoresVelocity := by
  intro note vel vel' val s h
  rw [exec_noteOn, exec_noteOn]
  unfold execNoteOn
  split
  · exact noteOnPath_sub (isSub_of_mode h) ..
  · rfl

end Sys2Proof.Proofs

/-! PROOFS. The filter's family: its output and feedback stay below 1 (O50), and resonance maps to Q (O51). -/

namespace Sys2Proof.Proofs

open Sys2Proof.Machine Sys2Proof.Claims Sys2Proof.Laws

theorem num_le_is {x y : Num} {a b : ℚ} (hx : Is x a) (hy : Is y b) : Num.le x y = decide (a ≤ b) := by
  rw [← num_le_unsigned, hx, hy, num_le_fin]

section

variable {c : Config} {f : Flt}

/-! The saturator of the feedback path (R200). -/

theorem num_sgn_fin (x : ℚ) : Num.sgn (.fin x) = .fin (SignType.sign x : ℚ) := by
  rcases lt_trichotomy x 0 with hneg | rfl | hpos
  · simp [Num.sgn, hneg]
  · simp [Num.sgn]
  · simp [Num.sgn, hpos, hpos.not_gt, hpos.ne']

theorem abs_sign_of_ne_zero {x : ℚ} (hx : x ≠ 0) : |(SignType.sign x : ℚ)| = 1 := by
  rcases lt_or_gt_of_ne hx with hneg | hpos
  · simp [hneg]
  · simp [hpos]

theorem sat08_of_le_knee (hf : Ideal c.f) {x : ℚ} (hx : |x| ≤ 4 / 5) : sat08 c (.fin x) = .fin x := by
  simp [sat08, hf.lit, hx]

/-- Above the knee: 4/5 and a fifth of the tanh, with the sign of the operand. -/
theorem sat08_of_knee_lt (hf : Ideal c.f) {x t : ℚ} (hx : 4 / 5 < |x|)
    (ht : c.f.tanh (.fin ((|x| - 4 / 5) / (1 / 5))) = .fin t) :
    sat08 c (.fin x) = .fin (SignType.sign x * (4 / 5 + 1 / 5 * t)) := by
  simp only [sat08, hf.lit, num_abs_fin, num_le_fin, decide_eq_true_eq, if_neg (not_le.2 hx), num_sgn_fin,
    hf.sub _ _ _ _ (is_fin _) (is_fin _), hf.div _ _ _ _ (is_fin _) (is_fin _) (show (1 / 5 : ℚ) ≠ 0 by norm_num),
    ht, hf.mul _ _ _ _ (is_fin _) (is_fin _), hf.add _ _ _ _ (is_fin _) (is_fin _)]

/-- The saturator maps every real below 1 in magnitude. -/
theorem sat08_fin_bounded (hf : Ideal c.f) (x : ℚ) : ∃ y : ℚ, sat08 c (.fin x) = .fin y ∧ |y| < 1 := by
  rcases le_or_gt |x| (4 / 5) with hbelow | habove
  · exact ⟨x, sat08_of_le_knee hf hbelow, by linarith⟩
  · obtain ⟨t, ht, ht0, ht1⟩ :=
      hf.tanh (.fin ((|x| - 4 / 5) / (1 / 5))) _ (is_fin _) (div_pos (by linarith) (by norm_num))
    have hne : x ≠ 0 := abs_pos.1 (by linarith)
    refine ⟨_, sat08_of_knee_lt hf habove ht, ?_⟩
    rw [abs_mul, abs_sign_of_ne_zero hne, one_mul, abs_of_pos (by linarith)]
    linarith

/-! The low-pass (R156, R157). -/

theorem direct_eq (hf : Ideal c.f) {v : Num} {x b0 b1 b2 a1 a2 x1 x2 y1 y2 : ℚ} (hv : Is v x) (hb0 : Is f.b0 b0)
    (hb1 : Is f.b1 b1) (hb2 : Is f.b2 b2) (ha1 : Is f.a1 a1) (ha2 : Is f.a2 a2) (hx1 : Is f.x1 x1) (hx2 : Is f.x2 x2)
    (hy1 : Is f.y1 y1) (hy2 : Is f.y2 y2) :
    f.direct c v = .fin (b0 * x + b1 * x1 + b2 * x2 - a1 * y1 - a2 * y2) := by
  rw [Flt.direct, hf.mul _ _ _ _ hb0 hv, hf.mul _ _ _ _ hb1 hx1, hf.mul _ _ _ _ hb2 hx2, hf.mul _ _ _ _ ha1 hy1,
    hf.mul _ _ _ _ ha2 hy2, hf.add _ _ _ _ (is_fin _) (is_fin _), hf.add _ _ _ _ (is_fin _) (is_fin _),
    hf.sub _ _ _ _ (is_fin _) (is_fin _), hf.sub _ _ _ _ (is_fin _) (is_fin _)]

theorem biquad_eq {v y : Num} (h : sat08 c (f.direct c v) = y) :
    f.biquad c v = ({ f with x1 := v, x2 := f.x1, y1 := y, y2 := f.y1 }, y) := by
  rw [← h]
  rfl

theorem compensate_eq (hf : Ideal c.f) {v : Num} {y r : ℚ} (hv : Is v y) (hr : Is f.ru r) (hgain : 1 + 2 * r ≠ 0) :
    f.compensate c v = .fin (y / (1 + 2 * r)) := by
  rw [Flt.compensate, hf.mul _ _ _ _ (is_fin _) hr, hf.add _ _ _ _ (is_fin _) (is_fin _),
    hf.div _ _ _ _ (is_fin _) (is_fin _) hgain, hf.mul _ _ _ _ hv (is_fin _), mul_one_div]

/-! Resonance to Q (R154). -/

/-- The rule's two lines, as numbers. -/
theorem qmap_eq (hf : Ideal c.f) {v : Num} {r : ℚ} (hv : Is v r) :
    qmap c v = if r ≤ 19 / 20 then .fin (707 / 1000 + (15 - 707 / 1000) * r / (19 / 20))
      else .fin (15 + (50 - 15) * (r - 19 / 20) / (1 / 20)) := by
  simp only [qmap, hf.lit, num_le_is hv (is_fin _), decide_eq_true_eq, hf.sub _ _ _ _ (is_fin _) (is_fin _),
    hf.sub _ _ _ _ hv (is_fin _), hf.mul _ _ _ _ (is_fin _) hv, hf.mul _ _ _ _ (is_fin _) (is_fin _),
    hf.div _ _ _ _ (is_fin _) (is_fin _) (show (19 / 20 : ℚ) ≠ 0 by norm_num),
    hf.div _ _ _ _ (is_fin _) (is_fin _) (show (1 / 20 : ℚ) ≠ 0 by norm_num), hf.add _ _ _ _ (is_fin _) (is_fin _)]

end

/-- Settles O50: the saturator bounds the output whatever the biquad computes, and the compensation divides by at
least 1. -/
theorem filterFeedbackIsBounded : Obligations.FilterFeedbackIsBounded := by
  intro c f v x b0 b1 b2 a1 a2 x1 x2 y1 y2 r hf hv hb0 hb1 hb2 ha1 ha2 hx1 hx2 hy1 hy2 hr hr0
  obtain ⟨y, hy, hbound⟩ := sat08_fin_bounded hf (b0 * x + b1 * x1 + b2 * x2 - a1 * y1 - a2 * y2)
  rw [← direct_eq hf hv hb0 hb1 hb2 ha1 ha2 hx1 hx2 hy1 hy2] at hy
  have hgain : 1 ≤ 1 + 2 * r := by linarith
  have hlp : |y / (1 + 2 * r)| ≤ |y| := by
    rw [abs_div, abs_of_pos (by linarith : 0 < 1 + 2 * r)]
    exact div_le_self (abs_nonneg y) hgain
  exact ⟨y, _, biquad_eq hy, hbound, compensate_eq hf (is_fin y) hr (by linarith), rfl, hlp.trans_lt hbound⟩

/-- Settles O51: both lines of the map rise, so the ends of each interval bound it. -/
theorem resonanceMapsIntoTheQRange : Obligations.ResonanceMapsIntoTheQRange := by
  intro c v r hf hv hr0 hr1
  have hknee : (95 / 100 : ℚ) = 19 / 20 := by norm_num
  rw [hknee, qmap_eq hf hv]
  constructor
  · intro hlow
    exact ⟨_, if_pos hlow, rfl, by linarith, by linarith⟩
  · intro hhigh
    exact ⟨_, if_neg hhigh.not_ge, by ring, by linarith, by linarith⟩

end Sys2Proof.Proofs

/-! PROOFS. The envelope's family: how long an attack and a release take in ideal semantics (O47, O48). -/

namespace Sys2Proof.Proofs

open Sys2Proof.Machine Sys2Proof.Claims Sys2Proof.Laws

section

variable {c : Config} {x : EnvSettings} {v : Num}

theorem stageTicks_pos (hk : c.k.Valid) (t : ℚ) : 0 < stageTicks c t :=
  lt_of_lt_of_le (by norm_num) (stageTicks_ge hk t)

theorem tick_attack (hf : Ideal c.f) (hk : c.k.Valid) {a l : ℚ} (ha : Is x.a a) (hl : Is v l) :
    Env.tick c x { stage := .attack, level := v } =
      if 1 ≤ l + 1 / stageTicks c a then { stage := .decay, level := .fin 1 }
      else { stage := .attack, level := .fin (l + 1 / stageTicks c a) } := by
  simp only [Env.tick, Env.attackTick, stageRate_eq hf hk ha, hf.add _ _ _ _ hl (is_fin _), num_le_fin,
    decide_eq_true_eq]

theorem tick_release (hf : Ideal c.f) (hk : c.k.Valid) {r l : ℚ} (hr : Is x.r r) (hl : Is v l) :
    Env.tick c x { stage := .release, level := v } =
      if l - 1 / stageTicks c r ≤ 0 then { stage := .idle, level := .fin 0 }
      else { stage := .release, level := .fin (l - 1 / stageTicks c r) } := by
  simp only [Env.tick, Env.releaseTick, stageRate_eq hf hk hr, hf.sub _ _ _ _ hl (is_fin _), num_le_fin,
    decide_eq_true_eq]

/-- A stage that n ticks keep, with the levels of lev, and one more tick ends in e. -/
theorem envTicks_of_stage {st : Stage} {lev : ℕ → ℚ} {n : ℕ} {e : Env} (hstart : Is v (lev 0))
    (hkeep : ∀ k < n, ∀ w, Is w (lev k) →
      Env.tick c x { stage := st, level := w } = { stage := st, level := .fin (lev (k + 1)) })
    (hend : ∀ w, Is w (lev n) → Env.tick c x { stage := st, level := w } = e) :
    (∀ k < n + 1, (envTicks c x k { stage := st, level := v }).stage = st ∧
      Is (envTicks c x k { stage := st, level := v }).level (lev k)) ∧
    envTicks c x (n + 1) { stage := st, level := v } = e := by
  have hticks : ∀ k ≤ n, ∃ w, envTicks c x k { stage := st, level := v } = { stage := st, level := w } ∧
      Is w (lev k) := by
    intro k
    induction k with
    | zero => exact fun _ => ⟨v, rfl, hstart⟩
    | succ k ih =>
      intro hk
      obtain ⟨w, htick, hw⟩ := ih (by omega)
      exact ⟨_, by rw [envTicks, htick, hkeep k hk w hw], is_fin _⟩
  constructor
  · intro k hk
    obtain ⟨w, htick, hw⟩ := hticks k (by omega)
    rw [htick]
    exact ⟨rfl, hw⟩
  · obtain ⟨w, htick, hw⟩ := hticks n le_rfl
    rw [envTicks, htick, hend w hw]

end

/-- Settles O47: after k ticks the level is k / T for the stage's T ticks, and the first k with 1 ≤ k / T is ceil(T). -/
theorem attackTakesItsTime : Obligations.AttackTakesItsTime := by
  intro c x a hf hk ha
  refine ⟨fun v l hl => tick_attack hf hk ha hl, fun v hv => ?_⟩
  have hpos := stageTicks_pos hk a
  have hadd (k : ℕ) : (k : ℚ) / stageTicks c a + 1 / stageTicks c a = (k + 1 : ℕ) / stageTicks c a := by
    rw [← add_div, Nat.cast_succ]
  obtain ⟨n, hn⟩ := Nat.exists_eq_succ_of_ne_zero (Nat.ceil_pos.2 hpos).ne'
  rw [hn]
  apply envTicks_of_stage (lev := fun k => k / stageTicks c a)
  · simpa using hv
  · intro k hkn w hw
    have hbelow : ((k + 1 : ℕ) : ℚ) < stageTicks c a := Nat.lt_ceil.1 (by omega)
    rw [tick_attack hf hk ha hw, hadd, if_neg (not_le.2 ((div_lt_one hpos).2 hbelow))]
  · intro w hw
    have hreach : stageTicks c a ≤ (n + 1 : ℕ) := Nat.ceil_le.1 hn.le
    rw [tick_attack hf hk ha hw, hadd, if_pos ((one_le_div hpos).2 hreach)]

/-- Settles O48: after k ticks the level is l0 - k / T for the stage's T ticks, and the first k ≥ 1 where that is not
positive is max(1, ceil(l0 * T)). -/
theorem releaseTakesItsTime : Obligations.ReleaseTakesItsTime := by
  intro c x v r l0 hf hk hr hv _ _
  have hpos := stageTicks_pos hk r
  have hsub (k : ℕ) : l0 - (k : ℚ) / stageTicks c r - 1 / stageTicks c r = l0 - (k + 1 : ℕ) / stageTicks c r := by
    rw [sub_sub, ← add_div, Nat.cast_succ]
  obtain ⟨n, hn⟩ : ∃ n, max 1 ⌈l0 * stageTicks c r⌉₊ = n + 1 := Nat.exists_eq_succ_of_ne_zero (by omega)
  rw [hn]
  apply envTicks_of_stage (lev := fun k => l0 - k / stageTicks c r)
  · simpa using hv
  · intro k hkn w hw
    have habove : ((k + 1 : ℕ) : ℚ) < l0 * stageTicks c r := Nat.lt_ceil.1 (by omega)
    rw [tick_release hf hk hr hw, hsub, if_neg (not_le.2 (sub_pos.2 ((div_lt_iff₀ hpos).2 habove)))]
  · intro w hw
    have hreach : l0 * stageTicks c r ≤ (n + 1 : ℕ) := Nat.ceil_le.1 (by omega)
    rw [tick_release hf hk hr hw, hsub, if_pos (sub_nonpos.2 ((le_div_iff₀ hpos).2 hreach))]

end Sys2Proof.Proofs

/-! PROOFS. The LFO's family: a tap that is not routed is 0 (O59). -/

namespace Sys2Proof.Proofs

open Sys2Proof.Machine Sys2Proof.Claims

theorem tap_eq_zero_of_unrouted {c : Config} {p : Params} {bit : ℕ} {scale raw : Num}
    (hroute : (p.u .lfoRoute).getLsbD bit = false) : tap c p bit scale raw = .fin 0 := by
  have hbit : ¬ p.bit .lfoRoute bit := by rw [Params.bit, hroute]; exact Bool.false_ne_true
  rw [tap, if_neg hbit, Num.zero]

/-- Settles O59: each tap has its own route bit and its own scale, and the cleared bit makes it 0 whatever the scale. -/
theorem unroutedTapsAreZero : Obligations.UnroutedTapsAreZero :=
  fun _ _ _ => ⟨tap_eq_zero_of_unrouted, tap_eq_zero_of_unrouted, tap_eq_zero_of_unrouted⟩

end Sys2Proof.Proofs

/-! PROOFS. The effects' family: the ranges of the saturators (O49) and of the tremolo's gain (O52). -/

namespace Sys2Proof.Proofs

open Sys2Proof.Machine Sys2Proof.Claims Sys2Proof.Laws

theorem is_iff {v : Num} {x : ℚ} : Is v x ↔ v = .fin x ∨ v = .negZero ∧ x = 0 := by
  cases v <;> simp [Is, eq_comm]

theorem is_of_eq_fin {v : Num} {x : ℚ} (h : v = .fin x) : Is v x := is_iff.2 (.inl h)

theorem num_abs_is {v : Num} {x : ℚ} (hv : Is v x) : Num.abs v = .fin |x| := by
  obtain rfl | ⟨rfl, rfl⟩ := is_iff.1 hv
  · rfl
  · rw [abs_zero, Num.abs]

theorem num_sgn_is {v : Num} {x : ℚ} (hv : Is v x) : Num.sgn v = .fin (SignType.sign x : ℚ) := by
  obtain rfl | ⟨rfl, rfl⟩ := is_iff.1 hv
  · exact num_sgn_fin x
  · simp [Num.sgn]

section

variable {c : Config} {v : Num} {x : ℚ}

/-! sat08 (R200), of either zero too. -/

theorem sat08_eq_self (hf : Ideal c.f) (hv : Is v x) (hx : |x| ≤ 4 / 5) : sat08 c v = v := by
  obtain rfl | ⟨rfl, rfl⟩ := is_iff.1 hv
  · exact sat08_of_le_knee hf hx
  · have hle : (0 : ℚ) ≤ 4 / 5 := by norm_num
    simp [sat08, hf.lit, Num.abs, hle]

/-- Beyond the knee a number and its negative take one value of the tanh, which lies between 0 and 1. -/
theorem sat08_beyond_knee (hf : Ideal c.f) (hx : 4 / 5 < |x|) :
    ∃ y : ℚ, sat08 c (.fin x) = .fin y ∧ sat08 c (.fin (-x)) = .fin (-y) ∧ 4 / 5 < |y| ∧ |y| < 1 := by
  obtain ⟨t, ht, ht0, ht1⟩ :=
    hf.tanh (.fin ((|x| - 4 / 5) / (1 / 5))) _ (is_fin _) (div_pos (by linarith) (by norm_num))
  have hne : x ≠ 0 := abs_pos.1 (by linarith)
  have habs : |(SignType.sign x : ℚ) * (4 / 5 + 1 / 5 * t)| = 4 / 5 + 1 / 5 * t := by
    rw [abs_mul, abs_sign_of_ne_zero hne, one_mul, abs_of_pos (by linarith)]
  refine ⟨_, sat08_of_knee_lt hf hx ht, ?_, ?_, ?_⟩
  · rw [sat08_of_knee_lt (t := t) hf (by rwa [abs_neg]) (by rwa [abs_neg]), Left.sign_neg, SignType.coe_neg, neg_mul]
  · rw [habs]
    linarith
  · rw [habs]
    linarith

/-! cub (R201). -/

theorem cub_of_le_one (hf : Ideal c.f) (hv : Is v x) (hx : |x| ≤ 1) : cub c v = .fin (x - x * x * x / 3) := by
  rw [cub, num_abs_is hv, num_le_fin, if_pos (decide_eq_true hx), hf.mul _ _ _ _ hv hv, hf.mul _ _ _ _ (is_fin _) hv,
    hf.div _ _ _ _ (is_fin _) (is_fin _) (by norm_num), hf.sub _ _ _ _ hv (is_fin _)]

theorem cub_of_one_lt (hf : Ideal c.f) (hv : Is v x) (hx : 1 < |x|) : cub c v = .fin (SignType.sign x * 2 / 3) := by
  rw [cub, num_abs_is hv, num_le_fin, if_neg (by simpa using hx), num_sgn_is hv,
    hf.mul _ _ _ _ (is_fin _) (is_fin _), hf.div _ _ _ _ (is_fin _) (is_fin _) (by norm_num)]

/-- The cubic reaches its bound where |x| = 1: 2/3 - |x - x^3/3| = (1 - |x|)^2 * (2 + |x|) / 3. -/
theorem abs_cubic (hx : |x| ≤ 1) : |x - x * x * x / 3| = 2 / 3 - (1 - |x|) ^ 2 * (2 + |x|) / 3 := by
  have hsq : x * x = |x| * |x| := (abs_mul_abs_self x).symm
  have hfactor : x - x * x * x / 3 = x * (1 - |x| * |x| / 3) := by
    rw [hsq]
    ring
  have hpos : 0 ≤ 1 - |x| * |x| / 3 := by nlinarith [abs_nonneg x]
  rw [hfactor, abs_mul, abs_of_nonneg hpos]
  ring

theorem cub_bounded (hf : Ideal c.f) (hv : Is v x) :
    ∃ y : ℚ, cub c v = .fin y ∧ |y| ≤ 2 / 3 ∧ (1 ≤ |x| → |y| = 2 / 3) := by
  rcases le_or_gt |x| 1 with hlow | hhigh
  · refine ⟨_, cub_of_le_one hf hv hlow, ?_, fun hone => ?_⟩
    · rw [abs_cubic hlow]
      exact sub_le_self _ (by positivity)
    · rw [abs_cubic hlow, le_antisymm hlow hone]
      norm_num
  · have hne : x ≠ 0 := abs_pos.1 (by linarith)
    have habs : |(SignType.sign x : ℚ) * 2 / 3| = 2 / 3 := by
      rw [abs_div, abs_mul, abs_sign_of_ne_zero hne]
      norm_num
    exact ⟨_, cub_of_one_lt hf hv hhigh, habs.le, fun _ => habs⟩

end

/-- Settles O49: up to the knee sat08 gives its operand back, and beyond it 4/5 and a fifth of a tanh; the cubic of cub
stays within its value at 1. -/
theorem saturatorsKeepTheirRange : Obligations.SaturatorsKeepTheirRange := by
  intro c v w x hf hv hw
  refine ⟨?_, rfl, rfl, cub_bounded hf hv⟩
  rcases le_or_gt |x| (4 / 5) with hlow | hhigh
  · rw [sat08_eq_self hf hv hlow, sat08_eq_self hf hw (by rwa [abs_neg])]
    exact ⟨x, hv, by linarith, fun _ => rfl, id, hw⟩
  · have hne : x ≠ 0 := abs_pos.1 (by linarith)
    obtain rfl : v = .fin x := (is_iff.1 hv).resolve_right fun h => hne h.2
    obtain rfl : w = .fin (-x) := (is_iff.1 hw).resolve_right fun h => hne (neg_eq_zero.1 h.2)
    obtain ⟨y, hy, hneg, habove, hbelow⟩ := sat08_beyond_knee hf hhigh
    exact ⟨y, is_of_eq_fin hy, hbelow, fun h => absurd h hhigh.not_ge, fun _ => habove, is_of_eq_fin hneg⟩

/-! The tremolo (R221). -/

section

variable {c : Config}

theorem onePole_eq (hf : Ideal c.f) {k y x : Num} {a q r : ℚ} (hk : Is k a) (hy : Is y q) (hx : Is x r) :
    onePole c k y x = .fin (q + a * (r - q)) := by
  rw [onePole, hf.sub _ _ _ _ hx hy, hf.mul _ _ _ _ hk (is_fin _), hf.add _ _ _ _ hy (is_fin _)]

theorem twoPi_is (hf : Ideal c.f) : ∃ q : ℚ, Is (twoPi c) q := by
  obtain ⟨π, hπ, -⟩ := hf.pi
  exact ⟨2 * π, is_of_eq_fin (by rw [twoPi, hπ, hf.mul _ _ _ _ (is_fin _) (is_fin _)])⟩

/-- The follower goes a part of the way to its target that is more than none and less than all of it. -/
theorem tremFollow_mem (hf : Ideal c.f) (hk : c.k.Valid) : ∃ a ∈ Set.Ioo (0 : ℚ) 1, tremFollow c = .fin a := by
  have hsr : 8000 ≤ c.k.sr := hk.1
  have hlag : 0 < 1 / 125 * c.k.sr := by linarith
  obtain ⟨e, he, he0, he1⟩ :=
    hf.exp (.fin (-1 / (1 / 125 * c.k.sr))) _ (is_fin _) (div_neg_of_neg_of_pos (by norm_num) hlag)
  refine ⟨1 - e, ⟨by linarith, by linarith⟩, ?_⟩
  rw [tremFollow, hf.lit, sampleRate, hf.mul _ _ _ _ (is_fin _) (is_fin _),
    hf.div _ _ _ _ (is_fin _) (is_fin _) hlag.ne', he, hf.sub _ _ _ _ (is_fin _) (is_fin _)]

/-- The curve u^p is in [0, 1], and so the target falls below 1 by at most 7/10. -/
theorem tremTarget_mem (hf : Ideal c.f) (hk : c.k.Valid) {p : Params} {theta : Num} {d θ : ℚ}
    (hd : Is (p.num .tremDepth) d) (hd0 : 0 ≤ d) (hd1 : d ≤ 1) (hθ : Is theta θ) :
    ∃ gt ∈ Set.Icc (3 / 10 : ℚ) 1, tremTarget c p theta = .fin gt := by
  obtain ⟨-, -, -, -, -, -, -, -, -, -, -, -, -, -, -, hexponent, -⟩ := hk
  obtain ⟨q, hq⟩ := twoPi_is hf
  obtain ⟨s, hs, hrange⟩ := hf.sin (.fin (q * θ)) _ (is_fin _)
  obtain ⟨hlow, hhigh⟩ := abs_le.1 hrange
  obtain ⟨y, hy, hy0, hy1⟩ := hf.pow (.fin ((1 + s) / 2)) (.fin c.k.tremCurveP) _ _ (is_fin _) (is_fin _)
    (by linarith) (by linarith) hexponent
  have hprod0 : 0 ≤ d * y := mul_nonneg hd0 hy0
  have hprod1 : d * y ≤ 1 := mul_le_one₀ hd1 hy0 hy1
  refine ⟨1 - 7 / 10 * d * y, ⟨by linarith, by linarith⟩, ?_⟩
  rw [tremTarget, hf.mul _ _ _ _ hq hθ, hs, hf.add _ _ _ _ (is_fin _) (is_fin _),
    hf.div _ _ _ _ (is_fin _) (is_fin _) (by norm_num), hy, hf.lit, hf.mul _ _ _ _ (is_fin _) hd,
    hf.mul _ _ _ _ (is_fin _) (is_fin _), hf.sub _ _ _ _ (is_fin _) (is_fin _)]

end

/-- Settles O52: the follower moves the gain to a point between its old value and the target, which both lie in
[0.3, 1]. -/
theorem tremoloGainStaysInRange : Obligations.TremoloGainStaysInRange := by
  intro c p t d h g θ hf hk hd hd0 hd1 _ hθ hg hlow hhigh
  obtain ⟨gt, hgt, htarget⟩ := tremTarget_mem hf hk hd hd0 hd1 hθ
  obtain ⟨a, ha, hfollow⟩ := tremFollow_mem hf hk
  have hgain : onePole c (tremFollow c) t.g (tremTarget c p t.theta) = .fin (g + a * (gt - g)) := by
    rw [htarget, hfollow, onePole_eq hf (is_fin _) hg (is_fin _)]
  have hrange : g + a * (gt - g) ∈ Set.Icc (3 / 10 : ℚ) 1 :=
    (convex_Icc _ _).add_smul_sub_mem ⟨hlow, hhigh⟩ hgt (Set.Ioo_subset_Icc_self ha)
  exact ⟨_, hgain, hgain, hrange⟩

end Sys2Proof.Proofs

/-! PROOFS. The voices' family: the slots a subtractive note-on takes (O17, O18), what a tick leaves of an IDLE slot (O35)
and when it retires a sounding one (O36), and the glide (O57). -/

namespace Sys2Proof.Proofs

open Sys2Proof.Machine Sys2Proof.Claims Sys2Proof.Laws

/-! The operands of a note-on that completes. -/

theorem noteOperand_of_eq {note : Byte} {n : Fin 128} (h : note.toNat = n.val) : noteOperand note = some n := by
  rw [noteOperand, dif_pos (h ▸ n.isLt)]
  exact congrArg some (Fin.ext h)

theorem freqOperand_of_number {val : Word} (h : F32.isNaN val = false) :
    freqOperand Config.chip val = some (noteFreq val) :=
  if_neg (by rw [h]; exact Bool.false_ne_true)

/-- In SUB mode a NOTE_ON of a note and a number, whose stamps fit, is the note-on of the subtractive path. -/
theorem exec_noteOn_sub {note : Byte} (vel : Byte) {val : Word} {s : State} {n : Fin 128} (hnote : note.toNat = n.val)
    (hval : F32.isNaN val = false) (hmode : s.P .mode = 0) (hcount : unisonCount s.params ≤ 8)
    (hfits : s.sub.gS.toNat + unisonCount s.params < 2 ^ 64) :
    exec (.noteOn note vel val) s =
      .next { s with sub := subNoteOn Config.chip s.params n (noteFreq val) s.sub } := by
  have hstamps : stampsFit s.sub.gS (unisonIdxs (unisonCount s.params)).length = true := by
    rw [unisonIdxs_length hcount]
    exact decide_eq_true hfits
  simp only [exec_noteOn, execNoteOn, noteOperand_of_eq hnote, freqOperand_of_number hval, noteOnPath,
    isSub_of_mode hmode, hstamps, if_true]

/-! The slots a note-on takes (O17, O18). -/

/-- The test of the voice's frequency for 0 is the test for either zero (R248). -/
theorem trigger_eq_triggered (v : SubVoice) (n : Fin 128) (fr d : Num) (k : Fin 8) (stamp : Age) :
    v.trigger n fr d k stamp = triggered v n fr d k stamp := by
  unfold SubVoice.trigger triggered
  rw [if_congr (isZero_iff v.fCur) rfl rfl]
  rfl

theorem ratioOf_eq_unisonRatio (p : Params) (k : Fin 8) :
    ratioOf Config.chip p k = unisonRatio (unisonCount p) (unisonSpread p) k.val := rfl

/-- While fewer than twelve slots are taken, the slot picked is the one of R282 to R284. -/
theorem takesSlot_subSlotFor (pool : Vector SubVoice 12) {taken : List (Fin 12)} (hlen : taken.length < 12)
    (n : Fin 128) (k : Fin 8) : TakesSlot pool (· ∈ taken) n k (subSlotFor pool taken n k) := by
  rcases subSlotFor_spec (pool := pool) (taken := taken) (n := n) (k := k) rfl with
    hsounding | ⟨hnone, ⟨hidle, hfirst⟩ | ⟨hfull, hsteal⟩⟩
  · exact .inl hsounding
  · exact .inr ⟨hnone, .inl ⟨not_not.2 hidle, hfirst⟩⟩
  · rw [hsteal]
    exact .inr ⟨hnone, .inr ⟨hfull, stealSlot_spec pool (exists_not_taken hlen)⟩⟩

/-- Settles O17: with unison off a note-on is one voice, of detune 2^0, and no slot is taken before it. -/
theorem noteOnTakesOneSubtractiveSlot : Obligations.NoteOnTakesOneSubtractiveSlot := by
  intro note vel val s n hnote hval hmode hunison hfits
  have hcount : unisonCount s.params = 1 := if_neg hunison
  have hspread : unisonSpread s.params = .fin 0 := if_neg hunison
  refine ⟨subSlotFor s.sub.pool [] n 0, ?_, ?_⟩
  · simpa using takesSlot_subSlotFor s.sub.pool (taken := []) (by decide) n 0
  · rw [exec_noteOn_sub vel hnote hval hmode (by omega) (by omega), subNoteOn_one _ _ _ _ _ hcount,
      trigger_eq_triggered, ratioOf_eq_unisonRatio, hcount, hspread]
    rfl

/-- The slot voice k takes is the one of R282 to R284 in the pool the voices before it left. -/
theorem takesSlot_slotAt (c : Config) (p : Params) (n : Fin 128) (fr : Num) (x : SubPath) (k : Fin 8) :
    TakesSlot (noteOnAt c p n fr x k).pool (fun i => ∃ k' : Fin 8, k' < k ∧ slotAt c p n fr x k' = i) n k
      (slotAt c p n fr x k) := by
  have htook := took_slotAt c p n fr x k (by omega)
  have htaken : (fun i => ∃ k' : Fin 8, k' < k ∧ slotAt c p n fr x k' = i) = (· ∈ (noteOnAt c p n fr x k).taken) :=
    funext fun i => propext (htook.taken i).symm
  rw [htaken]
  exact takesSlot_subSlotFor _ (by rw [htook.length]; omega) n k

/-- The pool after voice k: its slot triggered with the stamp k places after the counter. -/
theorem noteOnAt_succ_pool (c : Config) (p : Params) (n : Fin 128) (fr : Num) (x : SubPath) (k : Fin 8) :
    (noteOnAt c p n fr x (k + 1)).pool = (noteOnAt c p n fr x k).pool.set (slotAt c p n fr x k)
      ((noteOnAt c p n fr x k).pool[slotAt c p n fr x k].trigger n fr (ratioOf c p k) k
        (x.gS + BitVec.ofNat 64 k.val)) := by
  rw [noteOnAt_succ, ← (took_slotAt c p n fr x k (by omega)).counter]
  rfl

/-- Settles O18: the pools are those the note-on passes through, and each voice finds its slot as the command found it,
since no voice takes the slot of another. -/
theorem noteOnTakesASlotForEachUnisonVoice : Obligations.NoteOnTakesASlotForEachUnisonVoice := by
  intro note vel val s n hnote hval hlegal hmode hunison hfits count trig
  have hcount : unisonCount s.params = count := if_pos hunison
  have hspread : unisonSpread s.params = F32.toNum (s.P .unisonSpread) := if_pos hunison
  have hmax : count ≤ 8 := hcount ▸ unisonCount_le hlegal
  have htrig (v : SubVoice) (k : Fin 8) : v.trigger n (noteFreq val) (ratioOf Config.chip s.params k) k
      (s.sub.gS + BitVec.ofNat 64 k.val) = trig v k := by
    rw [trigger_eq_triggered, ratioOf_eq_unisonRatio, hcount, hspread]
  have htook := took_slotAt Config.chip s.params n (noteFreq val) s.sub count hmax
  refine ⟨slotAt Config.chip s.params n (noteFreq val) s.sub,
    fun m => (noteOnAt Config.chip s.params n (noteFreq val) s.sub m).pool, rfl,
    fun k _ => ⟨takesSlot_slotAt .., ?_⟩, ?_, htook.apart, fun k hk => ?_, htook.others⟩
  · rw [← htrig]
    exact noteOnAt_succ_pool ..
  · rw [exec_noteOn_sub vel hnote hval hmode (hcount ▸ hmax) (hcount ▸ hfits), ← htook.counter, ← hcount]
    rfl
  · rw [← htrig]
    exact htook.placed k hk

/-! A tick of a slot (O35, O36). -/

section

variable {c : Config} {s : State} {i : Fin 12}

theorem not_isSub_of_mode (h : s.P .mode ≠ 0) : s.params.isSub = false :=
  decide_eq_false h

theorem tick_sub_of_isSub (h : s.params.isSub = true) :
    (s.tick c).st.sub = (s.sub.tick c s.params s.noiseCount).path := by
  rw [tick_sub, State.pathTick, if_pos h, subTick_sub]

theorem tick_ep_of_isSub (h : s.params.isSub = true) : (s.tick c).st.ep = s.ep := by
  rw [tick_ep, State.pathTick, if_pos h, subTick_ep]

theorem tick_sub_of_not_isSub (h : s.params.isSub = false) : (s.tick c).st.sub = s.sub := by
  rw [tick_sub, State.pathTick, h, if_neg Bool.false_ne_true, epTick_sub]

theorem tick_ep_of_not_isSub (h : s.params.isSub = false) :
    (s.tick c).st.ep = (s.ep.tick c s.params s.noiseCount).path := by
  rw [tick_ep, State.pathTick, h, if_neg Bool.false_ne_true, epTick_ep]

/-- A slot of the subtractive pool after a tick of its path. -/
theorem subPathTick_slot (c : Config) (p : Params) (draws : Nat) (x : SubPath) (i : Fin 12) :
    (x.tick c p draws).path.pool[i] =
      (subShare c p (lfoTaps c p (lfoTick c p x.lfoTheta).2) x.pool draws i).1 := by
  simp only [SubPath.tick, (mixSub_eq ..).1, Fin.getElem_fin, Vector.getElem_ofFn]

/-- A slot of the electric-piano pool after a tick of its path. -/
theorem epPathTick_slot (c : Config) (p : Params) (draws : Nat) (x : EpPath) (i : Fin 12) :
    (x.tick c p draws).path.pool[i] = (epShare c x.pool draws i).1 := by
  simp only [EpPath.tick, (mixEp_eq ..).1, Fin.getElem_fin, Vector.getElem_ofFn]

theorem subShare_of_idle {p : Params} {t : Taps} {pool : Vector SubVoice 12} {draws : Nat}
    (h : ¬ pool[i].Sounds) : (subShare c p t pool draws i).1 = pool[i] :=
  congrArg Prod.fst (if_neg fun hs => h (of_decide_eq_true hs))

theorem epShare_of_idle {pool : Vector EpVoice 12} {draws : Nat} (h : ¬ pool[i].Sounds) :
    (epShare c pool draws i).1 = pool[i] :=
  congrArg Prod.fst (if_neg fun hs => h (of_decide_eq_true hs))

theorem subShare_of_sounds {p : Params} {t : Taps} {pool : Vector SubVoice 12} {draws : Nat} (h : pool[i].Sounds) :
    ∃ noise, (subShare c p t pool draws i).1 = (pool[i].tick c p t noise).1 :=
  ⟨_, congrArg Prod.fst (if_pos (decide_eq_true h))⟩

theorem epShare_of_sounds {pool : Vector EpVoice 12} {draws : Nat} (h : pool[i].Sounds) :
    ∃ noise, (epShare c pool draws i).1 = (pool[i].tick c noise).1 :=
  ⟨_, congrArg Prod.fst (if_pos (decide_eq_true h))⟩

end

/-- Settles O35: a tick keeps the pool of the path that MODE does not select, and the share of an IDLE slot in the mix of
the other is the slot itself. -/
theorem idleSlotsAreNotTicked : Obligations.IdleSlotsAreNotTicked := by
  intro s i
  cases hsub : s.params.isSub with
  | true =>
    rw [tick_sub_of_isSub hsub, tick_ep_of_isSub hsub, subPathTick_slot]
    exact ⟨subShare_of_idle, fun _ => rfl⟩
  | false =>
    rw [tick_sub_of_not_isSub hsub, tick_ep_of_not_isSub hsub, epPathTick_slot]
    exact ⟨fun _ => rfl, epShare_of_idle⟩

theorem isActive_of_idle {e : Env} (h : e.stage = .idle) : e.isActive = false :=
  decide_eq_false (not_not.2 h)

theorem isActive_of_ne_idle {e : Env} (h : e.stage ≠ .idle) : e.isActive = true :=
  decide_eq_true h

/-- Settling retires the slot exactly where its amplitude envelope is IDLE, and keeps stamp and unison index (R247). -/
theorem subSettle_spec (v : SubVoice) :
    v.settle.age = v.age ∧ v.settle.uidx = v.uidx ∧
    (v.settle.aenv.stage = .idle → v.settle.vstate = .idle ∧ v.settle.note = none) ∧
    (v.settle.aenv.stage ≠ .idle → v.settle.vstate = v.vstate ∧ v.settle.note = v.note) := by
  unfold SubVoice.settle
  by_cases hidle : v.aenv.stage = .idle
  · rw [isActive_of_idle hidle]
    exact ⟨rfl, rfl, fun _ => ⟨rfl, rfl⟩, fun h => absurd hidle h⟩
  · rw [isActive_of_ne_idle hidle]
    exact ⟨rfl, rfl, fun h => absurd h hidle, fun _ => ⟨rfl, rfl⟩⟩

/-- The same for an electric-piano slot and its AMP envelope (R269). -/
theorem epSettle_spec (w : EpVoice) :
    w.settle.age = w.age ∧
    (w.settle.amp.env.stage = .idle → w.settle.vstate = .idle ∧ w.settle.note = none) ∧
    (w.settle.amp.env.stage ≠ .idle → w.settle.vstate = w.vstate ∧ w.settle.note = w.note) := by
  unfold EpVoice.settle
  by_cases hidle : w.amp.env.stage = .idle
  · rw [isActive_of_idle hidle]
    exact ⟨rfl, fun _ => ⟨rfl, rfl⟩, fun h => absurd hidle h⟩
  · rw [isActive_of_ne_idle hidle]
    exact ⟨rfl, fun h => absurd h hidle, fun _ => ⟨rfl, rfl⟩⟩

/-- Settles O36: a voice's tick ends by settling a slot of the stamp, index, note and state it began with. -/
theorem slotsRetireWhenTheirEnvelopeEnds : Obligations.SlotsRetireWhenTheirEnvelopeEnds := by
  intro s i
  refine ⟨fun hmode hsounds => ?_, fun hmode hsounds => ?_⟩
  · rw [tick_sub_of_isSub (isSub_of_mode hmode), subPathTick_slot]
    obtain ⟨noise, htick⟩ := subShare_of_sounds hsounds
    rw [htick]
    exact subSettle_spec _
  · rw [tick_ep_of_not_isSub (not_isSub_of_mode hmode), epPathTick_slot]
    obtain ⟨noise, htick⟩ := epShare_of_sounds hsounds
    rw [htick]
    exact epSettle_spec _

/-! The glide (O57). -/

/-- Settles O57: the coefficient 1 - exp(-5 / (gt * SR)) is in (0, 1), since the argument is negative, and the glide is a
one-pole step with it. -/
theorem glideMovesTowardItsTarget : Obligations.GlideMovesTowardItsTarget := by
  intro c p gt hf hk hgt
  have hle : Num.le (c.f.lit (1 / 1000)) (p.num .glideTime) = decide (1 / 1000 ≤ gt) := by
    rw [hf.lit, num_le_is (is_fin _) hgt]
  refine ⟨fun hon htime => ?_, fun hoff v => if_neg fun ⟨hon, htime⟩ => ?_⟩
  · have hsr : 8000 ≤ c.k.sr := hk.1
    have hspan : 0 < gt * c.k.sr := mul_pos (by linarith) (by linarith)
    obtain ⟨e, he, he0, he1⟩ :=
      hf.exp (.fin (-5 / (gt * c.k.sr))) _ (is_fin _) (div_neg_of_neg_of_pos (by norm_num) hspan)
    refine ⟨e, 1 - e, he, rfl, by linarith, by linarith, fun v a b ha hb => ?_⟩
    rw [glideStep, if_pos ⟨hon, hle.trans (decide_eq_true htime)⟩, sampleRate, hf.mul _ _ _ _ hgt (is_fin _),
      hf.div _ _ _ _ (is_fin _) (is_fin _) hspan.ne', he, hf.sub _ _ _ _ (is_fin _) (is_fin _)]
    exact onePole_eq hf (is_fin _) ha hb
  · rw [hle, decide_eq_true_eq] at htime
    rcases hoff with hoff | hshort
    · exact hoff hon
    · exact hshort.not_ge htime

end Sys2Proof.Proofs

/-! PROOFS. The electric piano's family: the slot a note-on takes and what it holds after its trigger (O19). -/

namespace Sys2Proof.Proofs

open Sys2Proof.Machine Sys2Proof.Claims Sys2Proof.Laws

/-- The velocity a note-on reads from its operand is the one of R105. -/
theorem velOperand_eq_noteVel (vel : Byte) : velOperand Config.chip vel = noteVel vel := rfl

/-- In EP mode a NOTE_ON of a note and a number, whose stamp fits, is the note-on of the electric piano. -/
theorem exec_noteOn_ep {note : Byte} (vel : Byte) {val : Word} {s : State} {n : Fin 128} (hnote : note.toNat = n.val)
    (hval : F32.isNaN val = false) (hmode : s.P .mode ≠ 0) (hfits : s.ep.gE.toNat + 1 < 2 ^ 64) :
    exec (.noteOn note vel val) s =
      .next { s with ep := epNoteOn Config.chip n (noteFreq val) (noteVel vel) s.ep } := by
  have hstamp : stampsFit s.ep.gE 1 = true := decide_eq_true hfits
  simp only [exec_noteOn, execNoteOn, noteOperand_of_eq hnote, freqOperand_of_number hval, noteOnPath,
    not_isSub_of_mode hmode, hstamp, velOperand_eq_noteVel, if_true, if_neg Bool.false_ne_true]

/-- The slot picked is the one of R289. -/
theorem takesEpSlot_epSlotFor (pool : Vector EpVoice 12) (n : Fin 128) :
    TakesEpSlot pool n (epSlotFor pool n) := by
  rcases epSlotFor_spec (pool := pool) (n := n) rfl with hsounding | ⟨hnone, ⟨hidle, hfirst⟩ | hsteal⟩
  · exact .inl hsounding
  · exact .inr ⟨hnone, .inl ⟨not_not.2 hidle, hfirst⟩⟩
  · exact .inr ⟨hnone, .inr hsteal⟩

/-- An envelope's trigger writes the settings of R262 over those it had and gates it on (R270). -/
theorem epEnvTrigger_eq_epEnvOn (e : EpEnv) (v tD : Num) : e.trigger Config.chip v tD = epEnvOn e v tD := rfl

/-- A slot's trigger is that of its four envelopes, with the decay times of R262. -/
theorem epTrigger_eq_epTriggered (w : EpVoice) (n : Fin 128) (fr v : Num) (stamp : Age) :
    w.trigger Config.chip n fr v stamp = epTriggered w n fr v stamp := by
  simp only [EpVoice.trigger, epEnvTrigger_eq_epEnvOn, epAmpDecay, epTriggered]

/-- Settles O19: the slot is the one epSlotFor picks, and it alone is triggered. -/
theorem noteOnTakesOneElectricPianoSlot : Obligations.NoteOnTakesOneElectricPianoSlot := by
  intro note vel val s n hnote hval hmode hfits
  refine ⟨epSlotFor s.ep.pool n, takesEpSlot_epSlotFor s.ep.pool n, ?_⟩
  rw [exec_noteOn_ep vel hnote hval hmode hfits, epNoteOn, epTrigger_eq_epTriggered]

end Sys2Proof.Proofs

/-! PROOFS. The voice pools' family: where a note-on stops (O21), what the note-offs release (O22, O23), the slot a full
pool gives up (O24), how often a note sounds with unison off (O39), and the unison offsets in ideal semantics (O55). -/

namespace Sys2Proof.Proofs

open Sys2Proof.Machine Sys2Proof.Claims Sys2Proof.Laws

/-! The end of the counter (O21). -/

/-- A NOTE_ON of a note and a number is the note-on of the selected path. -/
theorem exec_noteOn_of_operands {note : Byte} (vel : Byte) {val : Word} (s : State) {n : Fin 128}
    (hnote : note.toNat = n.val) (hval : F32.isNaN val = false) :
    exec (.noteOn note vel val) s = noteOnPath Config.chip n (noteFreq val) (noteVel vel) s := by
  simp only [exec_noteOn, execNoteOn, noteOperand_of_eq hnote, freqOperand_of_number hval, velOperand_eq_noteVel]

theorem stampsFit_of_wrap {g : Age} {m : Nat} (h : 2 ^ 64 ≤ g.toNat + m) : stampsFit g m = false :=
  decide_eq_false h.not_gt

section

variable {s : State} {c : Config} {n : Fin 128} {fr v : Num}

theorem noteOnPath_sub_wrap (hmode : s.P .mode = 0) (hcount : unisonCount s.params ≤ 8)
    (hwrap : 2 ^ 64 ≤ s.sub.gS.toNat + unisonCount s.params) : noteOnPath c n fr v s = .fault .ageCounterWrap := by
  rw [noteOnPath, if_pos (isSub_of_mode hmode), unisonIdxs_length hcount, stampsFit_of_wrap hwrap,
    if_neg Bool.false_ne_true]

theorem noteOnPath_ep_wrap (hmode : s.P .mode ≠ 0) (hwrap : 2 ^ 64 ≤ s.ep.gE.toNat + 1) :
    noteOnPath c n fr v s = .fault .ageCounterWrap := by
  rw [noteOnPath, not_isSub_of_mode hmode, if_neg Bool.false_ne_true, stampsFit_of_wrap hwrap,
    if_neg Bool.false_ne_true]

end

/-- Settles O21: each path tests the stamps of all its voices before it triggers one. -/
theorem noteOnStopsAtTheEndOfTheCounter : Obligations.NoteOnStopsAtTheEndOfTheCounter := by
  intro note vel val s hnote hval hlegal
  have hmax : unisonCount s.params ≤ 8 := unisonCount_le hlegal
  rw [exec_noteOn_of_operands vel s (n := ⟨note.toNat, by omega⟩) rfl hval]
  refine ⟨fun hmode hunison hwrap => ?_, fun hmode hunison hwrap => ?_, noteOnPath_ep_wrap⟩
  · have hcount : unisonCount s.params = 1 := if_neg hunison
    exact noteOnPath_sub_wrap hmode hmax (hcount ▸ hwrap)
  · have hcount : unisonCount s.params = (s.P .unisonN).toNat := if_pos hunison
    exact noteOnPath_sub_wrap hmode hmax (hcount ▸ hwrap)

/-! What the note-offs release (O22, O23). -/

theorem gateOff_eq_gatedOff (e : Env) : e.gateOff = gatedOff e := gateOff_eq e

/-- A release is that of R249 on an ACTIVE slot, and leaves any other. -/
theorem subRelease_eq (v : SubVoice) : v.release = if v.vstate = .active then released v else v := by
  simp only [SubVoice.release, released, gateOff_eq_gatedOff]

/-- A release is that of R271 on an ACTIVE slot, and leaves any other. -/
theorem epRelease_eq (w : EpVoice) : w.release = if w.vstate = .active then epReleased w else w := by
  simp only [EpVoice.release, epReleased, EpEnv.gateOff, gateOff_eq_gatedOff]

section

variable (i : Fin 12)

/-- A slot after the release of the slots that hold a condition. -/
theorem releaseSub_slots (cond : SubVoice → Bool) (pool : Vector SubVoice 12) :
    (releaseSub cond pool slots)[i] =
      if cond pool[i] = true ∧ pool[i].vstate = .active then released pool[i] else pool[i] := by
  rw [releaseSub_spec cond pool slots slots_nodup, subRelease_eq, ite_and, ite_and, if_pos (mem_slots i)]

/-- The same for the electric piano. -/
theorem releaseEp_slots (cond : EpVoice → Bool) (pool : Vector EpVoice 12) :
    (releaseEp cond pool slots)[i] =
      if cond pool[i] = true ∧ pool[i].vstate = .active then epReleased pool[i] else pool[i] := by
  rw [releaseEp_spec cond pool slots slots_nodup, epRelease_eq, ite_and, ite_and, if_pos (mem_slots i)]

theorem subNoteOff_slot (n : Fin 128) (x : SubPath) :
    (subNoteOff n x).pool[i] =
      if x.pool[i].note = some n ∧ x.pool[i].vstate = .active then released x.pool[i] else x.pool[i] := by
  simp only [subNoteOff, releaseSub_slots, Bool.and_eq_true, decide_eq_true_eq, and_assoc, and_self]

theorem epNoteOff_slot (n : Fin 128) (x : EpPath) :
    (epNoteOff n x).pool[i] =
      if x.pool[i].note = some n ∧ x.pool[i].vstate = .active then epReleased x.pool[i] else x.pool[i] := by
  simp only [epNoteOff, releaseEp_slots, Bool.and_eq_true, decide_eq_true_eq, and_assoc, and_self]

theorem subAllOff_slot (x : SubPath) :
    (subAllOff x).pool[i] = if x.pool[i].vstate = .active then released x.pool[i] else x.pool[i] := by
  simp only [subAllOff, releaseSub_slots, true_and]

theorem epAllOff_slot (x : EpPath) :
    (epAllOff x).pool[i] = if x.pool[i].vstate = .active then epReleased x.pool[i] else x.pool[i] := by
  simp only [epAllOff, releaseEp_slots, true_and]

end

theorem exec_noteOff_sub {note : Byte} {s : State} {n : Fin 128} (hnote : note.toNat = n.val)
    (hmode : s.P .mode = 0) : exec (.noteOff note) s = .next { s with sub := subNoteOff n s.sub } := by
  simp only [exec_noteOff, execNoteOff, noteOperand_of_eq hnote, isSub_of_mode hmode, if_true]

theorem exec_noteOff_ep {note : Byte} {s : State} {n : Fin 128} (hnote : note.toNat = n.val)
    (hmode : s.P .mode ≠ 0) : exec (.noteOff note) s = .next { s with ep := epNoteOff n s.ep } := by
  simp only [exec_noteOff, execNoteOff, noteOperand_of_eq hnote, not_isSub_of_mode hmode, if_neg Bool.false_ne_true]

/-- Settles O22: each path's note-off goes through all twelve slots and asks for the note and ACTIVE alone. -/
theorem noteOffReleasesItsNote : Obligations.NoteOffReleasesItsNote := by
  intro note s n hnote
  refine ⟨fun hmode => ?_, fun hmode => ?_⟩
  · exact ⟨_, exec_noteOff_sub hnote hmode, by simp only [subNoteOff], fun i => subNoteOff_slot i n s.sub⟩
  · exact ⟨_, exec_noteOff_ep hnote hmode, by simp only [epNoteOff], fun i => epNoteOff_slot i n s.ep⟩

/-- Settles O23: the command runs on both paths, and a release leaves a slot that is not ACTIVE. -/
theorem allNotesOffReleasesBothPools : Obligations.AllNotesOffReleasesBothPools :=
  fun s => ⟨_, rfl, rfl, fun i => ⟨subAllOff_slot i s.sub, epAllOff_slot i s.ep⟩⟩

/-! The slot a full pool gives up (O24). -/

/-- The stamps a and b of two slots i and j: where no two slots have one stamp, the oldest slot is the only one. -/
theorem age_lt_of_oldest {a b : Age} {i j : Fin 12} (hdistinct : a = b → i = j) (holdest : a ≤ b) (hj : j ≠ i) :
    a < b :=
  BitVec.lt_of_le_ne holdest fun h => hj (hdistinct h).symm

section

variable {n : Fin 128} {i : Fin 12}

theorem takesSlot_of_full {pool : Vector SubVoice 12} {k : Fin 8} (h : TakesSlot pool (fun _ => False) n k i)
    (hfull : ∀ j : Fin 12, pool[j].Sounds) (hnote : ∀ j : Fin 12, pool[j].note ≠ some n) (j : Fin 12) :
    pool[i].age ≤ pool[j].age := by
  rcases h with ⟨-, hn, -⟩ | ⟨-, ⟨hidle, -⟩ | ⟨-, -, holdest⟩⟩
  · exact absurd hn (hnote i)
  · exact absurd (hfull i) hidle
  · exact holdest j not_false

theorem takesEpSlot_of_full {pool : Vector EpVoice 12} (h : TakesEpSlot pool n i)
    (hfull : ∀ j : Fin 12, pool[j].Sounds) (hnote : ∀ j : Fin 12, pool[j].note ≠ some n) (j : Fin 12) :
    pool[i].age ≤ pool[j].age := by
  rcases h with ⟨-, hn⟩ | ⟨-, ⟨hidle, -⟩ | ⟨-, holdest⟩⟩
  · exact absurd hn (hnote i)
  · exact absurd (hfull i) hidle
  · exact holdest j

end

/-- Settles O24: with no slot to retrigger and none free, the rules of O17 and O19 leave only the oldest slot, and in a
sound pool no two slots are of one age. -/
theorem fullPoolStealsTheOldestSlot : Obligations.FullPoolStealsTheOldestSlot := by
  intro note vel val s n hnote hval hsound
  refine ⟨fun hmode hunison hfits hfull hfresh => ?_, fun hmode hfits hfull hfresh => ?_⟩
  · obtain ⟨i, htakes, hexec⟩ := noteOnTakesOneSubtractiveSlot note vel val s n hnote hval hmode hunison hfits
    have hages (j : Fin 12) := hsound.subPool.ages i j (hfull i) (hfull j)
    refine ⟨_, i, hexec, fun j hj => ⟨?_, getElem_set_other _ _ hj⟩, ?_, ?_⟩
    · exact age_lt_of_oldest (hages j) (takesSlot_of_full htakes hfull hfresh j) hj
    · exact congrArg SubVoice.note (getElem_set_same ..)
    · exact congrArg SubVoice.age (getElem_set_same ..)
  · obtain ⟨i, htakes, hexec⟩ := noteOnTakesOneElectricPianoSlot note vel val s n hnote hval hmode hfits
    have hages (j : Fin 12) := hsound.epPool.ages i j (hfull i) (hfull j)
    refine ⟨_, i, hexec, fun j hj => ⟨?_, getElem_set_other _ _ hj⟩, ?_, ?_⟩
    · exact age_lt_of_oldest (hages j) (takesEpSlot_of_full htakes hfull hfresh j) hj
    · exact congrArg EpVoice.note (getElem_set_same ..)
    · exact congrArg EpVoice.age (getElem_set_same ..)

/-! Unison off (O39). -/

/-- The condition stays where every slot that sounds is voice 0, or sounded before with the index it has. -/
theorem noUnison_of_slots {s t : State} (h : s.NoUnison)
    (hslots : ∀ i : Fin 12, t.sub.pool[i].Sounds →
      t.sub.pool[i].uidx = 0 ∨ s.sub.pool[i].Sounds ∧ t.sub.pool[i].uidx = s.sub.pool[i].uidx) : t.NoUnison := by
  intro i hi
  rcases hslots i hi with h0 | ⟨hs, hu⟩
  · exact h0
  · exact hu.trans (h i hs)

/-- The condition reads the subtractive pool alone. -/
theorem noUnison_of_same {s t : State} (h : s.NoUnison) (ht : t.sub.pool = s.sub.pool) : t.NoUnison :=
  noUnison_of_slots h fun i hi => .inr (by rw [ht] at hi ⊢; exact ⟨hi, rfl⟩)

/-- With unison off a note-on triggers one slot, as voice 0. -/
theorem subNoteOn_noUnison {s : State} (h : s.NoUnison) (hunison : s.P .unisonEn ≠ 1) (c : Config) (n : Fin 128)
    (fr : Num) : State.NoUnison { s with sub := subNoteOn c s.params n fr s.sub } := by
  refine noUnison_of_slots h fun i => ?_
  rw [subNoteOn_one c s.params n fr s.sub (if_neg hunison)]
  by_cases hi : i = subSlotFor s.sub.pool [] n 0
  · subst hi
    rw [getElem_set_same]
    exact fun _ => .inl rfl
  · rw [getElem_set_other _ _ hi]
    exact fun hs => .inr ⟨hs, rfl⟩

theorem releaseSub_noUnison {s : State} (h : s.NoUnison) (cond : SubVoice → Bool) :
    State.NoUnison { s with sub := { s.sub with pool := releaseSub cond s.sub.pool slots } } := by
  refine noUnison_of_slots h fun i => ?_
  rw [releaseSub_spec cond _ slots slots_nodup]
  split
  · exact fun hs => .inr ⟨fun hidle => hs ((subRelease_idle _).2 hidle), subRelease_uidx _⟩
  · exact fun hs => .inr ⟨hs, rfl⟩

/-- A tick keeps the index of a slot that sounds, and starts none. -/
theorem tick_noUnison {c : Config} {s : State} (h : s.NoUnison) : (s.tick c).st.NoUnison := by
  cases hsub : s.params.isSub with
  | false => exact noUnison_of_same h (congrArg SubPath.pool (tick_sub_of_not_isSub hsub))
  | true =>
    refine noUnison_of_slots h fun i => ?_
    rw [tick_sub_of_isSub hsub, subPathTick_slot]
    by_cases hi : s.sub.pool[i].Sounds
    · obtain ⟨noise, htick⟩ := subShare_of_sounds hi
      rw [htick]
      exact fun _ => .inr ⟨hi, (subVoiceTick_life ..).1⟩
    · rw [subShare_of_idle hi]
      exact fun hs => absurd hs hi

theorem renderFrame_noUnison {c : Config} {s : State} (h : s.NoUnison) (j : Job) : (s.renderFrame c j).NoUnison :=
  noUnison_of_same (tick_noUnison h) rfl

theorem noteOn_noUnison {note vel : Byte} {val : Word} {s t : State} (h : s.NoUnison) (hunison : s.P .unisonEn ≠ 1)
    (ht : execNoteOn note vel val s = .next t) : t.NoUnison := by
  rcases noteOn_next ht with rfl | ⟨n, fr, -, -, ⟨-, -, rfl⟩ | ⟨-, -, rfl⟩⟩
  · exact h
  · exact subNoteOn_noUnison h hunison _ n fr
  · exact noUnison_of_same h (by simp only)

theorem noteOff_noUnison {note : Byte} {s t : State} (h : s.NoUnison) (ht : execNoteOff note s = .next t) :
    t.NoUnison := by
  rcases noteOff_next ht with rfl | ⟨n, -, ⟨-, rfl⟩ | ⟨-, rfl⟩⟩
  · exact h
  · exact releaseSub_noUnison h _
  · exact noUnison_of_same h (by simp only)

/-- A write of UNISON_EN, as of any other register, triggers no slot. -/
theorem writeReg_noUnison {r : Reg} {val : Word} {s t : State} (h : s.NoUnison) (ht : writeReg r val s = .next t) :
    t.NoUnison := by
  rcases writeReg_next ht with ⟨w, -, rfl⟩ | ⟨-, rfl⟩
  · exact noUnison_of_same h rfl
  · exact h

theorem render_noUnison {n : Word} {s t : State} (h : s.NoUnison) (ht : execRender n s = .next t) : t.NoUnison := by
  obtain ⟨-, ⟨-, rfl⟩ | ⟨-, rfl⟩⟩ := render_next ht
  · exact noUnison_of_same h rfl
  · exact renderFrame_noUnison h _

/-- An instruction that goes on while unison is off keeps the condition. -/
theorem exec_noUnison {i : Instr} {s t : State} (h : s.NoUnison) (hunison : s.P .unisonEn ≠ 1)
    (ht : exec i s = .next t) : t.NoUnison := by
  rcases instr_cases i with (rfl | ⟨note, vel, val, rfl⟩ | ⟨note, rfl⟩ | rfl) | ⟨r, val, rfl⟩ | ⟨n, rfl⟩ | rfl | rfl
  · cases ht; exact h
  · exact noteOn_noUnison h hunison ht
  · exact noteOff_noUnison h ht
  · cases ht; exact noUnison_of_same (releaseSub_noUnison h fun _ => true) (by simp only [subAllOff])
  · rw [exec_set] at ht; exact writeReg_noUnison h ht
  · exact render_noUnison h ht
  · obtain rfl := deviceChanged_next ht; exact noUnison_of_same h rfl
  · cases ht; exact noUnison_of_same h rfl

theorem step_noUnison {s t : State} (h : s.NoUnison) (hunison : s.P .unisonEn ≠ 1) (ht : step s = .next t) :
    t.NoUnison := by
  obtain ⟨io, -, rfl | ⟨j, -, rfl⟩ | ⟨p, w, i, -, hexec, -⟩⟩ := step_cases ht <;>
    have hports : State.NoUnison { s with io := io } := noUnison_of_same h rfl
  · exact hports
  · exact renderFrame_noUnison hports j
  · exact exec_noUnison hports hunison hexec

/-- Settles O39: the step keeps the pool sound too, where no pair of note and index sounds twice, and all indexes that
sound are 0. -/
theorem unisonOffSoundsEachNoteOnce : Obligations.UnisonOffSoundsEachNoteOnce := by
  intro s t hsound h hunison ht
  have hnext : t.NoUnison := step_noUnison h hunison ht
  refine ⟨hnext, fun i j hi hj hnote => ?_⟩
  exact (everyStepKeepsTheStateSound s t hsound ht).subPool.pairs i j hi hj hnote ((hnext i hi).trans (hnext j hj).symm)

/-! The unison offsets (O55). -/

/-- The offset of voice k of n with spread dc, over the rationals (R285). -/
def offsetCents (n : Nat) (dc : ℚ) (k : Nat) : ℚ := -dc + 2 * dc * k / (n - 1 : Nat)

theorem unisonCents_one (c : Config) (dc : Num) (k : Fin 8) : unisonCents c 1 dc k = .fin 0 := if_pos rfl

theorem detuneRatio_eq {c : Config} (hf : Ideal c.f) {v : Num} {x : ℚ} (hv : Is v x) :
    detuneRatio c v = c.f.pow (.fin 2) (.fin (x / 1200)) := by
  rw [detuneRatio, hf.div _ _ _ _ hv (is_fin _) (by norm_num)]

section

variable {n : Nat} {dc : ℚ} (hn : 1 < n)

include hn

theorem voices_sub_one_pos : (0 : ℚ) < (n - 1 : Nat) := by
  have : 0 < n - 1 := by omega
  exact_mod_cast this

theorem unisonCents_eq {c : Config} (hf : Ideal c.f) {spread : Num} (hspread : Is spread dc) (k : Fin 8) :
    unisonCents c n spread k = .fin (offsetCents n dc k) := by
  rw [unisonCents, if_neg hn.ne', hf.mul _ _ _ _ (is_fin _) hspread, hf.mul _ _ _ _ (is_fin _) (is_fin _),
    hf.div _ _ _ _ (is_fin _) (is_fin _) (voices_sub_one_pos hn).ne',
    hf.add _ _ _ _ (num_neg_unsigned hspread) (is_fin _), offsetCents]

theorem offsetCents_last : offsetCents n dc (n - 1) = dc := by
  have := (voices_sub_one_pos hn).ne'
  rw [offsetCents]
  field_simp
  ring

theorem offsetCents_symm {k : Nat} (hk : k < n) : offsetCents n dc k = -offsetCents n dc (n - 1 - k) := by
  have := (voices_sub_one_pos hn).ne'
  rw [offsetCents, offsetCents, Nat.cast_sub (show k ≤ n - 1 by omega)]
  field_simp
  ring

theorem offsetCents_strictMono (hdc : 0 < dc) : StrictMono (offsetCents n dc) := by
  intro k k' hkk
  have hcast : (k : ℚ) < k' := by exact_mod_cast hkk
  have := voices_sub_one_pos hn
  unfold offsetCents
  gcongr

end

theorem offsetCents_zero (n : Nat) (dc : ℚ) : offsetCents n dc 0 = -dc := by simp [offsetCents]

/-- Settles O55: in ideal semantics the offsets are those of the rule over the rationals, an affine function of the
voice. -/
theorem unisonOffsetsSpreadLinearly : Obligations.UnisonOffsetsSpreadLinearly := by
  intro c n spread dc hf _ _ hspread _
  refine ⟨unisonCents_one c spread, fun v x => detuneRatio_eq hf, fun hn => ⟨offsetCents n dc, ?_⟩⟩
  exact ⟨fun k _ => ⟨unisonCents_eq hn hf hspread k, rfl⟩, offsetCents_zero n dc, offsetCents_last hn,
    fun k hk => offsetCents_symm hn hk, fun hdc k k' hkk _ => offsetCents_strictMono hn hdc hkk⟩

end Sys2Proof.Proofs

/-! PROOFS. The render's family: the words of a frame (O33), a render of no frames (O30), what a tick leaves of the path
that MODE does not select (O34), a tick as the chain of its rule (O60), and silence after reset (O58). -/

namespace Sys2Proof.Proofs

open Sys2Proof.Machine Sys2Proof.Claims Sys2Proof.Laws

/-! Words between two numbers. -/

theorem toNum_ne_nan {w : Word} (h : F32.isNaN w = false) : F32.toNum w ≠ .nan := by
  intro hnan
  have hunsigned := toNum_eq h
  rw [hnan] at hunsigned
  split at hunsigned
  · cases hunsigned
  · split at hunsigned <;> cases hunsigned

/-- A word whose key lies between those of two numbers is a number between them. -/
theorem toNum_between {lo hi w : Word} {a b : ℚ} (hlo : F32.isNaN lo = false) (hhi : F32.isNaN hi = false)
    (hw : F32.isNaN w = false) (ha : F32.toNum lo = .fin a) (hb : F32.toNum hi = .fin b)
    (hlow : F32.key lo ≤ F32.key w) (hhigh : F32.key w ≤ F32.key hi) :
    ∃ q : ℚ, Is (F32.toNum w) q ∧ a ≤ q ∧ q ≤ b := by
  have hbelow := toNum_lt hw hlo
  have habove := toNum_lt hhi hw
  rw [ha, decide_eq_false (not_lt.2 hlow)] at hbelow
  rw [hb, decide_eq_false (not_lt.2 hhigh)] at habove
  have hnumber := toNum_ne_nan hw
  cases hv : F32.toNum w with
  | fin q => rw [hv] at hbelow habove; exact ⟨q, rfl, by simpa using hbelow, by simpa using habove⟩
  | negZero => rw [hv] at hbelow habove; exact ⟨0, rfl, by simpa using hbelow, by simpa using habove⟩
  | inf neg => rw [hv] at hbelow habove; cases neg <;> simp at hbelow habove
  | nan => exact absurd hv hnumber

/-! The words of a frame (O33). -/

/-- A magnitude of at most 1 is a number in [-1, 1]. -/
theorem inUnit_of_mag {w : Word} (hw : F32.isNaN w = false) (hmag : F32.mag w ≤ 0x3F800000) : InUnit w := by
  have hone : F32.toNum 0x3F800000 = .fin 1 := by decide +kernel
  have hminus : F32.toNum 0xBF800000 = .fin (-1) := by decide +kernel
  have hlow : F32.key 0xBF800000 ≤ F32.key w := by
    rw [show F32.key 0xBF800000 = -0x3F800000 by decide, F32.key]
    split <;> omega
  have hhigh : F32.key w ≤ F32.key 0x3F800000 := by
    rw [show F32.key 0x3F800000 = 0x3F800000 by decide, F32.key]
    split <;> omega
  obtain ⟨q, hq, hq0, hq1⟩ := toNum_between (by decide) (by decide) hw hminus hone hlow hhigh
  exact ⟨hw, (num_le_is (is_fin _) hq).trans (decide_eq_true hq0), (num_le_is hq (is_fin _)).trans (decide_eq_true hq1)⟩

theorem outWord_inUnit (n : Nat) (y e : Num) : InUnit (outWord Config.chip n (outSample Config.chip y e)) := by
  obtain ⟨hnumber, hmag⟩ := outWord_range n y e
  exact inUnit_of_mag hnumber hmag

/-- Settles O33: the words that stand in the buffer are the output words of the render's ticks. -/
theorem everyRenderedWordIsInUnitRange : Obligations.EveryRenderedWordIsInUnitRange := by
  intro s n b rest turns h
  obtain ⟨t, hrun, -, hframes, -⟩ := renderWritesItsFramesInOrder s n b rest turns h
  refine ⟨t, hrun, fun k hk => ?_⟩
  obtain ⟨hl, hr⟩ := hframes k hk
  exact ⟨_, _, hl, hr, outWord_inUnit .., outWord_inUnit ..⟩

/-! A render of no frames (O30). -/

/-- Settles O30: an aligned buffer holds no frames whatever its length, and the render returns before its first tick. -/
theorem renderOfNoFramesChangesNothing : Obligations.RenderOfNoFramesChangesNothing := by
  intro s haligned
  have hbuf : s.io.buf.holds (0 : Word).toNat = true := (holds_iff _ _).2 ⟨haligned, Nat.zero_le _⟩
  change execRender 0 s = _
  rw [execRender, hbuf, if_neg (by decide)]
  exact if_pos rfl

/-! The path that MODE does not select (O34). -/

theorem pathTick_of_isSub {c : Config} {s : State} (h : s.params.isSub = true) : s.pathTick c = s.subTick c := if_pos h

theorem pathTick_of_not_isSub {c : Config} {s : State} (h : s.params.isSub = false) : s.pathTick c = s.epTick c :=
  if_neg (by rw [h]; exact Bool.false_ne_true)

/-- Mixing draws a noise value for each slot that sounds. -/
theorem mixSub_draws (c : Config) (p : Params) (t : Taps) (pool : Vector SubVoice 12) (draws : Nat) :
    (mixSub c p t pool draws).draws = draws + subCount pool :=
  (mixSub_spec c p t slots slots_nodup { pool := pool, sum := .zero, draws := draws }).2

theorem mixEp_draws (c : Config) (pool : Vector EpVoice 12) (draws : Nat) :
    (mixEp c pool draws).draws = draws + epCount pool :=
  (mixEp_spec c slots slots_nodup { pool := pool, sum := .zero, draws := draws }).2

theorem tick_noiseCount_of_isSub {c : Config} {s : State} (h : s.params.isSub = true) :
    (s.tick c).st.noiseCount = s.noiseCount + subCount s.sub.pool := by
  rw [tick_noiseCount, pathTick_of_isSub h]
  simp only [State.subTick, SubPath.tick, mixSub_draws]

theorem tick_noiseCount_of_not_isSub {c : Config} {s : State} (h : s.params.isSub = false) :
    (s.tick c).st.noiseCount = s.noiseCount + epCount s.ep.pool := by
  rw [tick_noiseCount, pathTick_of_not_isSub h]
  simp only [State.epTick, EpPath.tick, mixEp_draws]

theorem setMode_paths {val : Word} {s t : State} (h : exec (.setMode val) s = .next t) :
    t.sub = s.sub ∧ t.ep = s.ep := by
  rcases writeReg_next ((exec_set .mode val s).symm.trans h) with ⟨w, -, rfl⟩ | ⟨-, rfl⟩
  · exact ⟨setP_sub .., setP_ep ..⟩
  · exact ⟨rfl, rfl⟩

/-- Settles O34: a tick runs the one path or the other, and draws a noise value for each slot of that path that sounds. -/
theorem inactivePathIsFrozen : Obligations.InactivePathIsFrozen := by
  refine ⟨fun s hmode => ?_, fun s hmode => ?_, fun _ _ _ => setMode_paths⟩
  · have hsub := isSub_of_mode hmode
    exact ⟨tick_ep_of_isSub hsub, tick_noiseCount_of_isSub hsub⟩
  · have hep := not_isSub_of_mode hmode
    exact ⟨tick_sub_of_not_isSub hep, tick_noiseCount_of_not_isSub hep⟩

/-! The tick as the chain of its rule (O60). -/

/-- sub_tick is the chain of R372, and its mix is that of the slots in slot order. -/
theorem subTickOf_eq (c : Config) (p : Params) (draws : Nat) (x : SubPath) :
    subTickOf c p draws x = ((x.tick c p draws).path, (x.tick c p draws).yL, (x.tick c p draws).yR) := by
  simp only [SubPath.tick, (mixSub_eq ..).1, (mixSub_eq ..).2]
  rfl

/-- ep_tick_path is the chain of R373. -/
theorem epTickOf_eq (c : Config) (p : Params) (draws : Nat) (x : EpPath) :
    epTickOf c p draws x = ((x.tick c p draws).path, (x.tick c p draws).yL, (x.tick c p draws).yR) := by
  simp only [EpPath.tick, (mixEp_eq ..).1, (mixEp_eq ..).2]
  rfl

/-- The chip's word of a clipped sample is a word of R378, as the model reads it. -/
theorem wordOf_outWord (n : Nat) (y e : Num) :
    WordOf (clip (Config.chip.f.add (Config.chip.f.mul (.fin Config.chip.k.outGain) y) e))
      (outWord Config.chip n (outSample Config.chip y e)) := by
  have hunit := outWord_inUnit n y e
  change WordOf (outSample Config.chip y e) _
  rcases outSample_range Config.chip y e with h | h | ⟨q, h, -, -⟩ <;> rw [h] at hunit ⊢
  · exact hunit
  · rfl
  · rfl

theorem outputStage_pathTick (s : State) :
    OutputStage s (s.pathTick Config.chip).yL (s.pathTick Config.chip).yR where
  synOut := by rw [tick_io]
  left := wordOf_outWord ..
  right := wordOf_outWord ..

/-- Settles O60: the selected path's tick is the rule's chain, and the output stage takes its pair. -/
theorem tickRunsThePathThroughTheOutputStage : Obligations.TickRunsThePathThroughTheOutputStage := by
  intro s
  have hstage := outputStage_pathTick s
  refine ⟨fun hmode => ?_, fun hmode => ?_⟩
  · have hsub := isSub_of_mode hmode
    rw [subTickOf_eq]
    rw [pathTick_of_isSub hsub] at hstage
    exact ⟨tick_sub_of_isSub hsub, hstage⟩
  · have hep := not_isSub_of_mode hmode
    rw [epTickOf_eq]
    rw [pathTick_of_not_isSub hep] at hstage
    exact ⟨tick_ep_of_not_isSub hep, hstage⟩

/-! Silence after reset (O58): a mix of no voice is 0, and no unit of a chain at rest gives anything but 0 to 0. -/

/-- A register whose legal values are the numbers of [0, 1] holds one. -/
theorem legal_unit {p : Params} (h : p.Legal) {r : Reg} (hr : regKind r = .f32 f32Zero f32One) :
    ∃ q : ℚ, Is (p.num r) q ∧ 0 ≤ q ∧ q ≤ 1 := by
  have hlegal := h r
  simp only [hr, legalWord, Bool.and_eq_true, Bool.not_eq_true', decide_eq_true_eq] at hlegal
  obtain ⟨⟨hnumber, hlow⟩, hhigh⟩ := hlegal
  exact toNum_between (by decide) (by decide) hnumber (by decide +kernel) (by decide +kernel) hlow hhigh

section

variable {c : Config} (hf : Ideal c.f)

include hf

theorem mul_silence {v : Num} {q : ℚ} (hv : Is v q) : c.f.mul v (.fin 0) = .fin 0 := by
  rw [hf.mul _ _ _ _ hv (is_fin _), mul_zero]

theorem silence_add_silence : c.f.add (.fin 0) (.fin 0) = .fin 0 := by
  rw [hf.add _ _ _ _ (is_fin _) (is_fin _), add_zero]

theorem crossfade_silence {mix : Num} {m : ℚ} (hm : Is mix m) : crossfade c mix (.fin 0) (.fin 0) = .fin 0 := by
  rw [crossfade, hf.sub _ _ _ _ (is_fin _) hm, mul_silence hf (is_fin _), mul_silence hf hm, silence_add_silence hf]

theorem onePole_silence (k : ℚ) : onePole c (.fin k) (.fin 0) (.fin 0) = .fin 0 := by
  rw [onePole_eq hf (is_fin _) (is_fin _) (is_fin _), sub_zero, mul_zero, add_zero]

/-- A line that holds no element gives 0, between whichever two elements it is read. -/
theorem rdf_nil (n w : Nat) (d : ℚ) : Line.rdf c [] n w (.fin d) = .fin 0 := by
  have hget (k : Int) : Line.rd [] n w k = .fin 0 := rfl
  rw [Line.rdf, hget, hget, frac, num_floor_fin, hf.sub _ _ _ _ (is_fin _) (is_fin _),
    hf.sub _ _ _ _ (is_fin _) (is_fin _), mul_silence hf (is_fin _), mul_silence hf (is_fin _), silence_add_silence hf]

/-! The units at rest. -/

theorem chorusMode_mix {md : Word} {m : ChorusMode} (h : chorusMode c md = some m) : ∃ q : ℚ, m.mix = .fin q := by
  unfold chorusMode at h
  split at h
  · cases h
  · split at h <;> cases h
    · exact ⟨_, rfl⟩
    · exact ⟨_, hf.lit _⟩

theorem chorusReset_silence (hk : c.k.Valid) (md : Word) :
    (Chorus.reset.tick c (.fin 0) md).2 = (.fin 0, .fin 0) := by
  have hline : Line.put Chorus.reset.buf Chorus.reset.w (.fin 0) = [] := if_pos rfl
  rw [Chorus.tick]
  simp only [hline]
  cases hmode : chorusMode c md with
  | none => rfl
  | some m =>
    obtain ⟨d0, dep, hd0, hdep, -⟩ := chorusMode_delays hk hmode
    obtain ⟨mix, hmix⟩ := chorusMode_mix hf hmode
    obtain ⟨q, hq⟩ := twoPi_is hf
    obtain ⟨σ, hσ, -⟩ := hf.sin (c.f.mul (twoPi c) (.fin 0)) (q * 0) (is_of_eq_fin (hf.mul _ _ _ _ hq (is_fin _)))
    have hoffset (ms : ℚ) : chorusOffset c (.fin ms) = .fin (ms * c.k.sr / 1000) := by
      rw [chorusOffset, sampleRate, hf.mul _ _ _ _ (is_fin _) (is_fin _),
        hf.div _ _ _ _ (is_fin _) (is_fin _) (by norm_num)]
    simp only [Chorus.reset, Num.zero, hσ, hd0, hdep, hmix, hf.mul _ _ _ _ (is_fin _) (is_fin _),
      hf.add _ _ _ _ (is_fin _) (is_fin _), hf.sub _ _ _ _ (is_fin _) (is_fin _), hoffset, rdf_nil hf,
      crossfade_silence hf (is_fin _)]

theorem tremoloReset_gain (hk : c.k.Valid) {p : Params} (hp : p.Legal) :
    ∃ g : ℚ, (Tremolo.reset.tick c p).2 = .fin g := by
  obtain ⟨d, hd, hd0, hd1⟩ := legal_unit hp (r := .tremDepth) rfl
  obtain ⟨gt, -, htarget⟩ := tremTarget_mem (theta := .fin 0) hf hk hd hd0 hd1 (is_fin _)
  obtain ⟨a, -, hfollow⟩ := tremFollow_mem hf hk
  exact ⟨_, (congrArg₂ (onePole c · (.fin 1) ·) hfollow htarget).trans
    (onePole_eq hf (is_fin _) (is_fin _) (is_fin _))⟩

theorem delayReset_silence {p : Params} (hp : p.Legal) :
    (Delay.reset.tick c p (.fin 0) (.fin 0)).2 = (.fin 0, .fin 0) := by
  obtain ⟨mix, hmix, -⟩ := legal_unit hp (r := .dlyMix) rfl
  exact congrArg₂ Prod.mk (crossfade_silence hf hmix) (crossfade_silence hf hmix)

theorem allPass_silence (n ai : Nat) : (AllPass.tick c n (.fin 0) { buf := [], ai := ai }).2 = .fin 0 :=
  (hf.sub _ _ _ _ (is_fin 0) (is_fin 0)).trans (by rw [sub_zero])

theorem revChannelReset_silence (p : Params) (channel : Nat) (u : Num) :
    (RevChannel.reset.tick c p channel u).2 = .fin 0 := by
  have hcomb (n : Nat) : (Comb.tick c p n u { buf := [], ci := 0, cf := .zero }).2 = .fin 0 := rfl
  simp [RevChannel.tick, RevChannel.reset, hcomb, silence_add_silence hf, allPass_silence hf]

theorem reverbReset_silence {p : Params} (hp : p.Legal) :
    (Reverb.reset.tick c p (.fin 0) (.fin 0)).2 = (.fin 0, .fin 0) := by
  obtain ⟨mix, hmix, -⟩ := legal_unit hp (r := .revMix) rfl
  simp only [Reverb.tick, Reverb.reset, revChannelReset_silence hf, crossfade_silence hf hmix]

theorem shelfReset_silence : (Shelf.reset.tick c (.fin 0) (.fin 0)).2 = (.fin 0, .fin 0) := by
  simp only [Shelf.tick, Shelf.reset, onePole_silence hf, mul_silence hf (is_fin _), silence_add_silence hf]

/-! The pools at rest, and the two paths. -/

theorem mixSub_silence {pool : Vector SubVoice 12} (h : ∀ i : Fin 12, ¬ pool[i].Sounds) (p : Params) (t : Taps)
    (draws : Nat) : (mixSub c p t pool draws).sum = .fin 0 := by
  have hshare (i : Fin 12) : (subShare c p t pool draws i).2 = .fin 0 :=
    congrArg Prod.snd (if_neg fun hs => h i (of_decide_eq_true hs))
  rw [(mixSub_eq ..).2]
  exact List.foldl_fixed' (fun i => by rw [hshare i, silence_add_silence hf]) _

theorem mixEp_silence {pool : Vector EpVoice 12} (h : ∀ i : Fin 12, ¬ pool[i].Sounds) (draws : Nat) :
    (mixEp c pool draws).sum = .fin 0 := by
  have hshare (i : Fin 12) : (epShare c pool draws i).2 = .fin 0 :=
    congrArg Prod.snd (if_neg fun hs => h i (of_decide_eq_true hs))
  rw [(mixEp_eq ..).2]
  exact List.foldl_fixed' (fun i => by rw [hshare i, silence_add_silence hf]) _

theorem agStep_rest : agStep c (.fin 1) 0 = .fin 1 := by
  rw [agStep, if_pos rfl, hf.lit, hf.lit, hf.mul _ _ _ _ (is_fin _) (is_fin _), hf.mul _ _ _ _ (is_fin _) (is_fin _),
    hf.add _ _ _ _ (is_fin _) (is_fin _)]
  norm_num

/-- Down the chain of R372 each unit is given 0 and gives 0, and the gains between them are numbers. -/
theorem subReset_silence (hk : c.k.Valid) {p : Params} (hp : p.Legal) (draws : Nat) :
    (SubPath.reset.tick c p draws).yL = .fin 0 ∧ (SubPath.reset.tick c p draws).yR = .fin 0 := by
  have hidle (i : Fin 12) : ¬ SubPath.reset.pool[i].Sounds := by simp [SubPath.reset, SubVoice.reset]
  have hcount : subCount SubPath.reset.pool = 0 := by decide
  have hsat : sat08 c (.fin 0) = .fin 0 := sat08_of_le_knee hf (by norm_num)
  obtain ⟨g, hg⟩ := tremoloReset_gain hf hk hp
  obtain ⟨v, hv, -⟩ := legal_unit hp (r := .masterVol) rfl
  simp only [SubPath.tick, mixSub_silence hf hidle, hcount]
  simp only [SubPath.reset, agStep_rest hf, mul_silence hf (is_fin _), hsat, chorusReset_silence hf hk, hg,
    delayReset_silence hf hp, reverbReset_silence hf hp, shelfReset_silence hf, mul_silence hf hv, and_self]

/-- The same down the chain of R373. -/
theorem epReset_silence (hk : c.k.Valid) {p : Params} (hp : p.Legal) (draws : Nat) :
    (EpPath.reset.tick c p draws).yL = .fin 0 ∧ (EpPath.reset.tick c p draws).yR = .fin 0 := by
  have hidle (i : Fin 12) : ¬ EpPath.reset.pool[i].Sounds := by simp [EpPath.reset, EpVoice.reset]
  have hcount : epCount EpPath.reset.pool = 0 := by decide
  obtain ⟨g, hg⟩ := tremoloReset_gain hf hk hp
  obtain ⟨v, hv, -⟩ := legal_unit hp (r := .epVol) rfl
  simp only [EpPath.tick, mixEp_silence hf hidle, hcount]
  simp only [EpPath.reset, agStep_rest hf, mul_silence hf (is_fin _), chorusReset_silence hf hk, hg,
    delayReset_silence hf hp, reverbReset_silence hf hp, mul_silence hf hv, and_self]

end

/-- Settles O58: the mix of twelve IDLE slots is 0, and every unit after it is at rest. -/
theorem resetStateTicksSilent : Obligations.ResetStateTicksSilent := by
  intro c p hf hk hp
  obtain ⟨hl, hr⟩ : ((State.resetWith p).pathTick c).yL = .fin 0 ∧ ((State.resetWith p).pathTick c).yR = .fin 0 := by
    cases hmode : (State.resetWith p).params.isSub with
    | true => rw [pathTick_of_isSub hmode]; exact subReset_silence hf hk hp _
    | false => rw [pathTick_of_not_isSub hmode]; exact epReset_silence hf hk hp _
  rw [tick_io, hl, hr]

end Sys2Proof.Proofs

/-! PROOFS. The commands' family: the words that are one opcode (O16, O26, O27), the turns (O9, O40) and what of the
state reaches them (O42), the instructions that complete (O10), the SETs (O13, O15), and the state after reset (O37,
O43). -/

namespace Sys2Proof.Proofs

open Sys2Proof.Machine Sys2Proof.Claims Sys2Proof.Laws

/-! A turn of each port (O9). -/

/-- What a turn does once its word, if it has one, is off the port. -/
def runTaken (p : Port) : Option Cmd → State → Host.Outcome State Fault Refusal
  | none, s => .next s
  | some w, s =>
    match decode p w with
    | .ok i => exec i s
    | .error e => .refused (.undecodable e)

theorem runTaken_next {p : Port} {word : Option Cmd} {s t : State} (h : runTaken p word s = .next t) :
    t = s ∨ ∃ w i, decode p w = .ok i ∧ exec i s = .next t := by
  cases word with
  | none => cases h; exact .inl rfl
  | some w =>
    simp only [runTaken] at h
    split at h
    · exact .inr ⟨w, _, ‹_›, h⟩
    · cases h

section

variable {s : State} {ps : List Port}

theorem step_of_no_turn (h : s.io.turns = []) : step s = .next s := by
  simp only [step, nextAction, h]

theorem step_ctrl_turn (h : s.io.turns = .ctrl :: ps) :
    step s = runTaken .ctrl s.io.ctrlIn.head?
      { s with io := { s.io with turns := ps, ctrlIn := s.io.ctrlIn.tail } } := by
  obtain ⟨_, _, _, _, _, ⟨ctrlIn, _, _, turns, _, _, _, _⟩, _, _⟩ := s
  obtain rfl : turns = .ctrl :: ps := h
  cases ctrlIn <;> rfl

theorem step_plat_turn (h : s.io.turns = .plat :: ps) :
    step s = runTaken .plat s.io.platIn.head?
      { s with io := { s.io with turns := ps, platIn := s.io.platIn.tail } } := by
  obtain ⟨_, _, _, _, _, ⟨_, _, platIn, turns, _, _, _, _⟩, _, _⟩ := s
  obtain rfl : turns = .plat :: ps := h
  cases platIn <;> rfl

/-- With no render in progress the audio port gives its oldest word, and latches the buffer that comes with it. -/
theorem step_audio_turn (h : s.io.turns = .audio :: ps) (hjob : s.io.job = none) :
    step s = runTaken .audio (s.io.audioIn.head?.map AudioWord.word)
      { s with io := { s.io with
          turns := ps, audioIn := s.io.audioIn.tail, buf := s.io.audioIn.head?.elim s.io.buf AudioWord.buf } } := by
  obtain ⟨_, _, _, _, _, ⟨_, audioIn, _, turns, _, job, _, _⟩, _, _⟩ := s
  obtain rfl : turns = .audio :: ps := h
  obtain rfl : job = none := hjob
  cases audioIn <;> rfl

end

/-- Settles O9: a port with no word has no action but to give its turn back. -/
theorem turnsWithNothingToDoRest : Obligations.TurnsWithNothingToDoRest := by
  intro s ps
  refine ⟨step_of_no_turn, fun hturns hin => ?_, fun hturns hin => ?_, fun hturns hjob hin => ?_⟩
  · simp only [step, nextAction_of_turn hturns, portTurn, hin]
  · simp only [step, nextAction_of_turn hturns, portTurn, hin]
  · simp only [step, nextAction_of_turn hturns, portTurn, hjob, hin]

/-! What each port's turn reaches (O40). -/

/-- The registers and the two pools with their counters may have changed, and nothing else. -/
def KeepsToControl (s t : State) : Prop :=
  t = { s with
    params := t.params,
    sub := { s.sub with pool := t.sub.pool, gS := t.sub.gS },
    ep := { s.ep with pool := t.ep.pool, gE := t.ep.gE } }

/-- What the audio port leaves unchanged. -/
def KeepsToAudio (s t : State) : Prop :=
  t.params = s.params ∧ t.restartInFlight = s.restartInFlight ∧ t.sub.gS = s.sub.gS ∧ t.ep.gE = s.ep.gE ∧
  t.io.ctrlIn = s.io.ctrlIn ∧ t.io.platIn = s.io.platIn ∧ t.io.turns = s.io.turns

section

variable {s t : State} {w : Cmd} {i : Instr}

theorem writeReg_keepsToControl {r : Reg} {val : Word} (h : writeReg r val s = .next t) : KeepsToControl s t := by
  rcases writeReg_next h with ⟨w, -, rfl⟩ | ⟨-, rfl⟩ <;> rfl

theorem noteOn_keepsToControl {note vel : Byte} {val : Word} (h : execNoteOn note vel val s = .next t) :
    KeepsToControl s t := by
  rcases noteOn_next h with rfl | ⟨n, fr, -, -, ⟨-, -, rfl⟩ | ⟨-, -, rfl⟩⟩
  · rfl
  · simp only [KeepsToControl, subNoteOn]
  · simp only [KeepsToControl, epNoteOn]

theorem noteOff_keepsToControl {note : Byte} (h : execNoteOff note s = .next t) : KeepsToControl s t := by
  rcases noteOff_next h with rfl | ⟨n, -, ⟨-, rfl⟩ | ⟨-, rfl⟩⟩
  · rfl
  · simp only [KeepsToControl, subNoteOff]
  · simp only [KeepsToControl, epNoteOff]

theorem ctrl_keepsToControl (hdec : decode .ctrl w = .ok i) (h : exec i s = .next t) : KeepsToControl s t := by
  rcases decode_ctrl hdec with rfl | rfl | rfl | rfl | ⟨-, r, rfl⟩
  · cases h; rfl
  · exact noteOn_keepsToControl h
  · exact noteOff_keepsToControl h
  · cases h; simp only [KeepsToControl, subAllOff, epAllOff]
  · exact writeReg_keepsToControl ((exec_set ..).symm.trans h)

theorem plat_keepsToFlag (hdec : decode .plat w = .ok i) (h : exec i s = .next t) :
    t = { s with restartInFlight := t.restartInFlight } := by
  rcases decode_plat hdec with rfl | rfl | rfl
  · cases h; rfl
  · obtain rfl := deviceChanged_next h; rfl
  · cases h; rfl

theorem renderFrame_keepsToAudio (c : Config) (s : State) (j : Job) : KeepsToAudio s (s.renderFrame c j) := by
  simp [KeepsToAudio, frame_io, tick_io]

theorem audio_keepsToAudio (hdec : decode .audio w = .ok i) (h : exec i s = .next t) : KeepsToAudio s t := by
  rcases decode_audio hdec with rfl | rfl
  · cases h; exact ⟨rfl, rfl, rfl, rfl, rfl, rfl, rfl⟩
  · obtain ⟨-, ⟨-, rfl⟩ | ⟨-, rfl⟩⟩ := render_next h
    · exact ⟨rfl, rfl, rfl, rfl, rfl, rfl, rfl⟩
    · exact renderFrame_keepsToAudio ..

end

/-- Settles O40: a turn takes its word off its own port, and an instruction of the port keeps to the port's state. -/
theorem eachPortKeepsToItsState : Obligations.EachPortKeepsToItsState := by
  intro s t ps ht
  refine ⟨fun hturns => ?_, fun hturns => ?_, fun hturns => ?_⟩
  · rw [step_ctrl_turn hturns] at ht
    rcases runTaken_next ht with rfl | ⟨w, i, hdec, hexec⟩
    · rfl
    · exact ctrl_keepsToControl hdec hexec
  · rw [step_plat_turn hturns] at ht
    rcases runTaken_next ht with rfl | ⟨w, i, hdec, hexec⟩
    · rfl
    · exact plat_keepsToFlag hdec hexec
  · cases hjob : s.io.job with
    | some j =>
      rw [step_frame hturns hjob] at ht
      cases ht
      exact renderFrame_keepsToAudio ..
    | none =>
      rw [step_audio_turn hturns hjob] at ht
      rcases runTaken_next ht with rfl | ⟨w, i, hdec, hexec⟩
      · exact ⟨rfl, rfl, rfl, rfl, rfl, rfl, rfl⟩
      · exact audio_keepsToAudio hdec hexec

/-! The restart flag (O42). -/

/-- The state with the restart flag set to b. -/
def flagged (b : Bool) (s : State) : State := { s with restartInFlight := b }

/-- An outcome with its next state, where there is one, replaced. -/
def mapNext (f : State → State) : Host.Outcome State Fault Refusal → Host.Outcome State Fault Refusal
  | .next s => .next (f s)
  | .fault e => .fault e
  | .refused e => .refused e

section

variable (b : Bool) (s : State)

theorem writeReg_flagged (r : Reg) (val : Word) :
    writeReg r val (flagged b s) = mapNext (flagged b) (writeReg r val s) := by
  unfold writeReg
  split <;> rfl

theorem noteOnPath_flagged (c : Config) (n : Fin 128) (fr v : Num) :
    noteOnPath c n fr v (flagged b s) = mapNext (flagged b) (noteOnPath c n fr v s) := by
  simp only [noteOnPath, apply_ite (mapNext (flagged b))]
  rfl

theorem noteOn_flagged (note vel : Byte) (val : Word) :
    execNoteOn note vel val (flagged b s) = mapNext (flagged b) (execNoteOn note vel val s) := by
  unfold execNoteOn
  split
  · exact noteOnPath_flagged ..
  · rfl

theorem noteOff_flagged (note : Byte) :
    execNoteOff note (flagged b s) = mapNext (flagged b) (execNoteOff note s) := by
  unfold execNoteOff
  split
  · rw [apply_ite (mapNext (flagged b))]
    rfl
  · rfl

theorem render_flagged (n : Word) : execRender n (flagged b s) = mapNext (flagged b) (execRender n s) := by
  simp only [execRender, flagged, renderFrame_restart]
  split
  · rfl
  · split <;> rfl

/-- No instruction but the platform commands reads or writes the flag. -/
theorem exec_flagged {i : Instr} (hdev : i ≠ .deviceChanged) (hdone : i ≠ .restartDone) :
    exec i (flagged b s) = mapNext (flagged b) (exec i s) := by
  rcases instr_cases i with (rfl | ⟨note, vel, val, rfl⟩ | ⟨note, rfl⟩ | rfl) | ⟨r, val, rfl⟩ | ⟨n, rfl⟩ | rfl | rfl
  · rfl
  · exact noteOn_flagged ..
  · exact noteOff_flagged ..
  · rfl
  · rw [exec_set, exec_set]; exact writeReg_flagged ..
  · exact render_flagged ..
  · exact absurd rfl hdev
  · exact absurd rfl hdone

end

/-- A word decodes on a port only to an instruction of the port (R111). -/
theorem onPort_of_decode {p : Port} {w : Cmd} {i : Instr} (h : decode p w = .ok i) : i.onPort p = true := by
  obtain ⟨hacc, hop⟩ := decode_ok_iff.1 h
  rw [Instr.onPort, encode_of_decodeOpcode hop, opField_and_usedBits]
  exact hacc

theorem platform_not_onPort {p : Port} (h : p ≠ .plat) :
    ¬ Instr.deviceChanged.onPort p = true ∧ ¬ Instr.restartDone.onPort p = true := by
  cases p with
  | ctrl => exact ⟨Bool.false_ne_true, Bool.false_ne_true⟩
  | audio => exact ⟨Bool.false_ne_true, Bool.false_ne_true⟩
  | plat => exact absurd rfl h

theorem runTaken_flagged {p : Port} (hp : p ≠ .plat) (b : Bool) (word : Option Cmd) (s : State) :
    runTaken p word (flagged b s) = mapNext (flagged b) (runTaken p word s) := by
  cases word with
  | none => rfl
  | some w =>
    obtain ⟨hdev, hdone⟩ := platform_not_onPort hp
    simp only [runTaken]
    split
    next i hdec =>
      have hon := onPort_of_decode hdec
      exact exec_flagged b s (fun hi => hdev (hi ▸ hon)) fun hi => hdone (hi ▸ hon)
    next => rfl

theorem step_flagged {s : State} (h : ∀ ps, s.io.turns ≠ .plat :: ps) (b : Bool) :
    step (flagged b s) = mapNext (flagged b) (step s) := by
  cases hturns : s.io.turns with
  | nil =>
    rw [step_of_no_turn hturns, step_of_no_turn (s := flagged b s) hturns]
    rfl
  | cons p ps =>
    cases p with
    | ctrl =>
      rw [step_ctrl_turn hturns, step_ctrl_turn (s := flagged b s) hturns]
      exact runTaken_flagged (by decide) b _ { s with io := _ }
    | plat => exact absurd hturns (h ps)
    | audio =>
      cases hjob : s.io.job with
      | none =>
        rw [step_audio_turn hturns hjob, step_audio_turn (s := flagged b s) hturns hjob]
        exact runTaken_flagged (by decide) b _ { s with io := _ }
      | some j =>
        rw [step_frame hturns hjob, step_frame (s := flagged b s) hturns hjob]
        exact congrArg _ (renderFrame_restart { s with io := _ } b ..)

/-- Settles O42: setting the flag before the step or after it is the same. -/
theorem restartFlagReachesNoOtherPort : Obligations.RestartFlagReachesNoOtherPort := by
  intro s t b hturns ht
  have h := step_flagged hturns b
  rw [ht] at h
  exact h

/-! Words that are an opcode alone (O16, O26, O27). -/

/-- Where a format uses OP alone, every word with the opcode is the instruction. -/
theorem decode_of_opcode {p : Port} {w v : Cmd} {i : Instr} (henc : encode i = v)
    (hbits : usedBits (opField v).toNat = 0xFF00000000000000) (hp : i.onPort p = true)
    (h : w &&& 0xFF00000000000000 = v) : decode p w = .ok i := by
  have hop : opField w = opField v := by rw [← h]; exact (opField_and_usedBits w 0).symm
  rw [← decode_and_usedBits, hop, hbits, h, ← henc]
  exact decode_encode hp

theorem nop_onPort (p : Port) : Instr.nop.onPort p = true := by cases p <;> rfl

/-- Settles O16: NOP's format uses OP alone, and every port takes it. -/
theorem nopChangesNothing : Obligations.NopChangesNothing :=
  ⟨fun _ => rfl, fun p _ => decode_of_opcode (i := .nop) rfl rfl (nop_onPort p), rfl⟩

theorem exec_deviceChanged_of_no_restart {s : State} (h : s.restartInFlight = false) :
    exec .deviceChanged s = .next { s with restartInFlight := true } :=
  if_neg (Bool.eq_false_iff.1 h)

/-- Settles O26: the flag decides whether the signal sets it or is ignored. -/
theorem deviceChangedSetsTheFlag : Obligations.DeviceChangedSetsTheFlag :=
  ⟨fun _ => ⟨exec_deviceChanged_of_no_restart, fun h => if_pos h⟩,
    fun _ => decode_of_opcode (i := .deviceChanged) rfl rfl rfl, rfl⟩

/-- Settles O27: a RENDER is one of the instructions the flag does not reach. -/
theorem restartDoneClearsTheFlag : Obligations.RestartDoneClearsTheFlag := by
  refine ⟨fun s => ⟨rfl, exec_deviceChanged_of_no_restart rfl⟩,
    fun _ => decode_of_opcode (i := .restartDone) rfl rfl rfl, rfl, fun n s t b ht => ?_⟩
  have h := exec_flagged b s (i := .render n) nofun nofun
  rw [ht] at h
  exact h

/-! The instructions that complete (O10). -/

/-- The stamps of a NOTE_ON would wrap the selected pool's counter (R281). -/
def StampsWrap (s : State) : Prop :=
  (s.P .mode = 0 ∧ 2 ^ 64 ≤ s.sub.gS.toNat + unisonCount s.params) ∨ (s.P .mode ≠ 0 ∧ 2 ^ 64 ≤ s.ep.gE.toNat + 1)

section

variable {s : State}

/-- A note-on goes on unless its stamps would wrap. -/
theorem noteOnPath_goesOn (hlegal : s.params.Legal) (c : Config) (n : Fin 128) (fr v : Num) :
    goesOn (noteOnPath c n fr v s) ∨ noteOnPath c n fr v s = .fault .ageCounterWrap ∧ StampsWrap s := by
  have hcount := unisonCount_le hlegal
  by_cases hmode : s.P .mode = 0
  · by_cases hwrap : 2 ^ 64 ≤ s.sub.gS.toNat + unisonCount s.params
    · exact .inr ⟨noteOnPath_sub_wrap hmode hcount hwrap, .inl ⟨hmode, hwrap⟩⟩
    · have hfits : stampsFit s.sub.gS (unisonCount s.params) = true := decide_eq_true (not_le.1 hwrap)
      refine .inl ⟨{ s with sub := subNoteOn c s.params n fr s.sub }, ?_⟩
      rw [noteOnPath, if_pos (isSub_of_mode hmode), unisonIdxs_length hcount, if_pos hfits]
  · by_cases hwrap : 2 ^ 64 ≤ s.ep.gE.toNat + 1
    · exact .inr ⟨noteOnPath_ep_wrap hmode hwrap, .inr ⟨hmode, hwrap⟩⟩
    · have hfits : stampsFit s.ep.gE 1 = true := decide_eq_true (not_le.1 hwrap)
      refine .inl ⟨{ s with ep := epNoteOn c n fr v s.ep }, ?_⟩
      rw [noteOnPath, not_isSub_of_mode hmode, if_neg Bool.false_ne_true, if_pos hfits]

theorem noteOn_goesOn (hlegal : s.params.Legal) (note vel : Byte) (val : Word) :
    goesOn (execNoteOn note vel val s) ∨ execNoteOn note vel val s = .fault .ageCounterWrap ∧ StampsWrap s := by
  unfold execNoteOn
  split
  · exact noteOnPath_goesOn hlegal ..
  · exact .inl ⟨s, rfl⟩

theorem noteOff_goesOn (note : Byte) : goesOn (execNoteOff note s) := by
  unfold execNoteOff
  split
  · split
    · exact ⟨_, rfl⟩
    · exact ⟨_, rfl⟩
  · exact ⟨_, rfl⟩

theorem writeReg_goesOn (r : Reg) (val : Word) : goesOn (writeReg r val s) := by
  unfold writeReg
  split
  · exact ⟨_, rfl⟩
  · exact ⟨_, rfl⟩

theorem render_goesOn (n : Word) :
    goesOn (execRender n s) ∨
      execRender n s = .fault .renderBufferInvalid ∧ (s.io.buf.base % 4 ≠ 0 ∨ s.io.buf.room < 8 * n.toNat) := by
  cases hbuf : s.io.buf.holds n.toNat with
  | false =>
    rw [Bool.eq_false_iff, ne_eq, holds_iff] at hbuf
    exact .inr ⟨renderIntoAnInvalidBufferIsStuck n s (by omega), by omega⟩
  | true =>
    rcases Nat.eq_zero_or_pos n.toNat with hn | hn
    · exact .inl ⟨_, (if_neg (by rw [hbuf]; decide)).trans (if_pos hn)⟩
    · exact .inl ⟨_, render_first hn hbuf⟩

theorem deviceChanged_goesOn : goesOn (execDeviceChanged s) := by
  unfold execDeviceChanged
  split
  · exact ⟨_, rfl⟩
  · exact ⟨_, rfl⟩

end

/-- Settles O10: only NOTE_ON and RENDER can fault, each under its own condition. -/
theorem everyInstructionCompletesButTwoUndefinedCases :
    Obligations.EveryInstructionCompletesButTwoUndefinedCases := by
  intro i s hlegal
  rcases instr_cases i with (rfl | ⟨note, vel, val, rfl⟩ | ⟨note, rfl⟩ | rfl) | ⟨r, val, rfl⟩ | ⟨n, rfl⟩ | rfl | rfl
  · exact .inl ⟨_, rfl⟩
  · rcases noteOn_goesOn hlegal note vel val with h | ⟨hfault, hwrap⟩
    · exact .inl h
    · exact .inr (.inl ⟨hfault, ⟨note, vel, val, rfl⟩, hwrap⟩)
  · exact .inl (noteOff_goesOn note)
  · exact .inl ⟨_, rfl⟩
  · rw [exec_set]; exact .inl (writeReg_goesOn r val)
  · rcases render_goesOn n with h | ⟨hfault, hbad⟩
    · exact .inl h
    · exact .inr (.inr ⟨hfault, n, rfl, hbad⟩)
  · exact .inl deviceChanged_goesOn
  · exact .inl ⟨_, rfl⟩

/-! A SET of a NaN, and all SETs one after the other (O13, O15). -/

/-- The write rule of an f32 register, whatever its range. -/
theorem storedWord_f32 {r : Reg} (h : f32Range r ≠ none) (keep : Bool) (val : Word) :
    ∃ lo hi, storedWord keep (regKind r) val =
      if F32.isNaN val then none else some (F32.keptZero keep (F32.clamp lo hi val)) := by
  obtain ⟨⟨lo, hi⟩, hrange⟩ := Option.ne_none_iff_exists'.1 h
  exact ⟨_, _, by rw [regKind_of_f32Range hrange, storedWord]⟩

/-- Settles O13: the write rule of an f32 register stores nothing for a NaN. -/
theorem setIgnoresNaN : Obligations.SetIgnoresNaN := by
  intro r val s hr hnan
  obtain ⟨lo, hi, hstored⟩ := storedWord_f32 hr (Config.chip.keepsSign r) val
  rw [if_pos hnan] at hstored
  rw [exec_set, writeReg, hstored]
  rfl

/-- Every SET whose VAL is no NaN, where the register is f32, stores a word. -/
theorem storedWord_isSome {r : Reg} {val : Word} (h : f32Range r ≠ none → F32.isNaN val = false) (keep : Bool) :
    ∃ w, storedWord keep (regKind r) val = some w := by
  by_cases hr : f32Range r = none
  · obtain ⟨w, hstored, -⟩ := storedWord_u32 hr keep val
    exact ⟨w, hstored⟩
  · obtain ⟨lo, hi, hstored⟩ := storedWord_f32 hr keep val
    rw [if_neg (by rw [h hr]; exact Bool.false_ne_true)] at hstored
    exact ⟨_, hstored⟩

/-- There is a register file with any given words. -/
theorem params_of_words (word : Reg → Word) : ∃ p : Params, ∀ r, p.u r = word r :=
  ⟨Vector.ofFn (Function.extend regIdx word 0), fun r => by simp [Params.u, regIdx_injective.extend_apply]⟩

/-- If every register that is not set yet holds its word already, the SETs give each register its word. -/
theorem setAll_resetWith {vals word : Reg → Word}
    (hstored : ∀ r, storedWord (Config.chip.keepsSign r) (regKind r) (vals r) = some (word r)) {q : Params}
    (hq : ∀ r, q.u r = word r) {order : List Reg} {p : Params} (hp : ∀ r, r ∉ order → p.u r = word r) :
    setAll vals order (State.resetWith p) = .next (State.resetWith q) := by
  induction order generalizing p with
  | nil =>
    have hpq : p = q := params_ext fun r => (hp r List.not_mem_nil).trans (hq r).symm
    rw [hpq]
    rfl
  | cons r rs ih =>
    have hset : exec (setInstr r (vals r)) (State.resetWith p) = .next (State.resetWith (p.put r (word r))) :=
      (exec_set ..).trans (writeReg_of_stored _ (hstored r))
    rw [setAll, hset]
    refine ih fun r' hr' => ?_
    by_cases heq : r' = r
    · rw [heq, u_put_same]
    · rw [u_put_other _ _ heq]
      exact hp r' (List.not_mem_cons_of_ne_of_not_mem heq hr')

/-- Settles O15: the word a SET stores depends on VAL alone, so the register file at the end holds those words. -/
theorem bootForgetsTheResetRegisters : Obligations.BootForgetsTheResetRegisters := by
  intro vals hvals
  choose word hstored using fun r => storedWord_isSome (hvals r) (Config.chip.keepsSign r)
  obtain ⟨q, hq⟩ := params_of_words word
  exact ⟨State.resetWith q, fun order p hall => setAll_resetWith hstored hq fun r hr => absurd (hall r) hr⟩

/-! The state after reset (O37, O43). -/

theorem subReset_slot (i : Fin 12) : SubPath.reset.pool[i] = SubVoice.reset := Vector.getElem_replicate i.isLt

theorem epReset_slot (i : Fin 12) : EpPath.reset.pool[i] = EpVoice.reset := Vector.getElem_replicate i.isLt

/-- A pool all of whose slots are IDLE and FREE is sound, whatever the counter. -/
theorem subSound_of_idle {pool : Vector SubVoice 12} (h : ∀ i : Fin 12, pool[i].vstate = .idle ∧ pool[i].note = none)
    (g : Age) : SubPool.Sound pool g where
  free i := iff_of_true (h i).1 (h i).2
  pairs i _ hi := absurd (h i).1 hi
  below i hi := absurd (h i).1 hi
  ages i _ hi := absurd (h i).1 hi

theorem epSound_of_idle {pool : Vector EpVoice 12} (h : ∀ i : Fin 12, pool[i].vstate = .idle ∧ pool[i].note = none)
    (g : Age) : EpPool.Sound pool g where
  free i := iff_of_true (h i).1 (h i).2
  notes i _ hi := absurd (h i).1 hi
  below i hi := absurd (h i).1 hi
  ages i _ hi := absurd (h i).1 hi

theorem subReset_idle (i : Fin 12) : SubPath.reset.pool[i].vstate = .idle ∧ SubPath.reset.pool[i].note = none := by
  rw [subReset_slot i]
  exact ⟨rfl, rfl⟩

theorem epReset_idle (i : Fin 12) : EpPath.reset.pool[i].vstate = .idle ∧ EpPath.reset.pool[i].note = none := by
  rw [epReset_slot i]
  exact ⟨rfl, rfl⟩

theorem reverbReset_fits {k : Constants} (h : k.Valid) : Reverb.reset.Fits k :=
  ⟨revChannelReset_fits h 0, revChannelReset_fits h 1⟩

theorem resetWith_sound {k : Constants} (hk : k.Valid) {p : Params} (hp : p.Legal) : (State.resetWith p).Sound k where
  memory := rfl
  registers := hp
  subPool := subSound_of_idle subReset_idle 0
  epPool := epSound_of_idle epReset_idle 0
  subChorus := chorusReset_fits k
  subDelay := delayReset_fits k
  subReverb := reverbReset_fits hk
  epChorus := chorusReset_fits k
  epDelay := delayReset_fits k
  epReverb := reverbReset_fits hk
  job := nofun

/-- Settles O37: reset leaves both pools IDLE and every line without an element. -/
theorem resetStateIsSound : Obligations.ResetStateIsSound :=
  ⟨fun _ => resetWith_sound (held_valid _), resetWith_sound (held_valid _) reset_legal⟩

theorem forall_mem_twice {α : Type} {P : α → Prop} {u : α} (h : P u) : ∀ x ∈ [u, u], P x :=
  List.forall_mem_cons.2 ⟨h, List.forall_mem_singleton.2 h⟩

theorem line_get_nil (k : Nat) : Line.get [] k = .fin 0 := rfl

theorem combReset (j : Fin 4) : RevChannel.reset.comb[j] = { buf := [], ci := 0, cf := .fin 0 } :=
  Vector.getElem_replicate j.isLt

theorem allPassReset (j : Fin 2) : RevChannel.reset.ap[j] = { buf := [], ai := 0 } :=
  Vector.getElem_replicate j.isLt

/-- Settles O43: each slot and each unit is its own reset value; both paths have the same units. -/
theorem resetLeavesTheBlockSilent : Obligations.ResetLeavesTheBlockSilent := by
  intro p
  refine ⟨subReset_slot, epReset_slot, ⟨rfl, rfl, rfl, rfl, rfl⟩, ?chorus, ?tremolo, ?delay, ?reverb, ⟨rfl, rfl⟩, rfl⟩
  case chorus => exact forall_mem_twice (u := Chorus.reset) ⟨line_get_nil, rfl, rfl⟩
  case tremolo => exact forall_mem_twice (u := Tremolo.reset) ⟨rfl, rfl⟩
  case delay =>
    exact forall_mem_twice (u := Delay.reset) ⟨fun k => ⟨line_get_nil k, line_get_nil k⟩, rfl, rfl, rfl⟩
  case reverb =>
    refine forall_mem_twice (u := Reverb.reset) (forall_mem_twice (u := RevChannel.reset) ⟨fun j => ?_, fun j => ?_⟩)
    · rw [combReset j]
      exact ⟨line_get_nil, rfl, rfl⟩
    · rw [allPassReset j]
      exact ⟨line_get_nil, rfl⟩

end Sys2Proof.Proofs
